-- ==== Sys2Proof/Word.lean ====
section
/-! DEFINITION. The word types of the BSS2K core (R9, R13): everything the spec treats as bits. -/

namespace Sys2Proof

/-- A byte of memory (R70). -/
abbrev Byte := BitVec 8

/-- A register value, an address, an immediate: a u32 (R9, R13). -/
abbrev Word := BitVec 32

/-- An instruction word or the cycle counter: a u64 (R9, R112). -/
abbrev DWord := BitVec 64

/-- A numeric opcode code: the 16-bit opcode field (R9). -/
abbrev Code := BitVec 16

/-- A register field of an instruction, used as a register index 0..255 (R117). -/
abbrev Reg := BitVec 8

end Sys2Proof
end

