-- ==== Sys2Proof/Config.lean ====
section
/-! DEFINITION. The implementation parameters of R10 as plain data, and the host's answers as free values. -/

namespace Sys2Proof

/-- RESERVED_OPERAND_POLICY (R35): what decoding does with a register field of 253, 254 or 255. -/
inductive ReservedPolicy where
  | fault
  | direct
  deriving DecidableEq, Repr

/-- PADDING_POLICY (R119): what decoding does with a nonzero padding byte. -/
inductive PaddingPolicy where
  | ignore
  | fault
  deriving DecidableEq, Repr

/-- DEBUG_POLICY (R272): how severe a failed assertion or checkpoint is. -/
inductive DebugPolicy where
  | strict
  | lenient
  deriving DecidableEq, Repr

/-- HOST_REGENERATES (R345): when the host may regenerate the instruction cache. -/
inductive RegeneratePolicy where
  | bootOnly
  | betweenSteps
  deriving DecidableEq, Repr

/-- The parameters decoding depends on, and no others (R123). `codes` is OPCODE_CODE (R131), one code for each
`Opcode` in the order of its constructors, which is the order of R130. -/
structure Codec where
  codes : Vector Code 69
  reserved : ReservedPolicy
  padding : PaddingPolicy
  deriving DecidableEq, Repr

/-- The parameters of R10. `costs` is CYCLES, one cost for each `Opcode` in the order of R130. INSTRUCTION_WIDTH is
the constant 8 (R110, R136). INIT_REGS and INIT_MEMORY are arguments of `boot`. -/
structure Config where
  codec : Codec
  costs : Vector Nat 69
  terminalWidth : Nat
  terminalHeight : Nat
  displayWidth : Nat
  displayHeight : Nat
  framebufferExtraWords : Nat
  stackSize : Nat
  debugPolicy : DebugPolicy
  exitOnHalt : Bool
  firstFbVisibleAtReset : Bool
  hostRegenerates : RegeneratePolicy
  deriving DecidableEq, Repr

/-- One call `generate_instruction_cache(start?, size?)` of the host (R345). -/
structure RegenerateCall where
  start : Option Nat
  size : Option Nat
  deriving DecidableEq, Repr

/-- FREE VALUE (log entry 5): whether the host answers Down to the draw numbered `n`, asked for `keyCode`
(R261, I6). -/
opaque Config.keyDown (n : Nat) (keyCode : Word) : Bool

/-- FREE VALUE (log entry 5): the host's wall clock in milliseconds at the draw numbered `n` (R262, I7). -/
opaque Config.timeMs (n : Nat) : DWord

/-- FREE VALUE (log entry 6): the regenerations the host asks for at the draw numbered `n`, in order, under
HOST_REGENERATES = BetweenSteps (R345, I10). -/
opaque Config.hostRegenerations (n : Nat) : List RegenerateCall

end Sys2Proof
end

