-- ==== Sys2Proof/Syntax.lean ====
section
/-! DEFINITION. The instruction set of R130 as syntax: opcodes, roles, and one constructor of `Instr` for each row of
the opcode table, with its operands in declared order. -/

namespace Sys2Proof

/-- The 69 mnemonics of R130, in the table's order. -/
inductive Opcode where
  | moveRegisterImmediate
  | moveRegisterAddress
  | moveTargetSource
  | moveAddressRegister
  | moveTargetPointer
  | movePointerSource
  | moveByteRegisterAddress
  | moveByteAddressRegister
  | moveByteTargetPointer
  | moveBytePointerSource
  | moveHalfwordRegisterAddress
  | moveHalfwordAddressRegister
  | moveHalfwordTargetPointer
  | moveHalfwordPointerSource
  | addTargetLhsRhs
  | addWithCarryTargetLhsRhs
  | subtractTargetLhsRhs
  | subtractWithCarryTargetLhsRhs
  | addTargetSourceImmediate
  | subtractTargetSourceImmediate
  | multiplyHighLowLhsRhs
  | divmodTargetModLhsRhs
  | andTargetLhsRhs
  | orTargetLhsRhs
  | xorTargetLhsRhs
  | notTargetSource
  | leftShiftTargetLhsRhs
  | rightShiftTargetLhsRhs
  | compareTargetLhsRhs
  | boolCompareEquals
  | boolCompareNotEquals
  | boolCompareGreater
  | boolCompareGreaterOrEquals
  | boolCompareLess
  | boolCompareLessOrEquals
  | pushRegister
  | pushImmediate
  | popRegister
  | pop
  | callAddress
  | callRegister
  | returnFromCall
  | jumpImmediate
  | jumpRegister
  | jumpImmediateIfEqual
  | jumpImmediateIfGreaterThan
  | jumpImmediateIfLessThan
  | jumpImmediateIfGreaterThanOrEqual
  | jumpImmediateIfLessThanOrEqual
  | jumpImmediateIfZero
  | jumpImmediateIfNotZero
  | jumpImmediateIfCarry
  | jumpImmediateIfNotCarry
  | jumpImmediateIfDivideByZero
  | jumpImmediateIfNotDivideByZero
  | getKeyState
  | pollTime
  | swapFramebuffers
  | invisibleFramebufferAddress
  | pollCycleCountHighLow
  | noOp
  | haltAndCatchFire
  | dumpRegisters
  | dumpMemory
  | assertRegisterRegister
  | assertRegisterImmediate
  | assertPointerImmediate
  | debugBreak
  | checkpoint
  deriving DecidableEq, Repr

/-- The names of the register roles of R130. -/
inductive Role where
  | register
  | target
  | source
  | pointer
  | lhs
  | rhs
  | high
  | low
  | result
  | remainder
  | comparison
  | keycode
  | expected
  | actual
  deriving DecidableEq, Repr

/-- The kind of the extra word (R116). -/
inductive ExtraKind where
  | immediate
  | sourceAddress
  | targetAddress
  deriving DecidableEq, Repr

/-- A decoded instruction (R122): a definition with concrete register fields and a concrete extra word. The last
operand of a constructor is its extra word where the type is `Word`. -/
inductive Instr where
  -- Move family (R150)
  | moveRegisterImmediate (register : Reg) (immediate : Word)
  | moveRegisterAddress (register : Reg) (address : Word)
  | moveTargetSource (target source : Reg)
  | moveAddressRegister (register : Reg) (address : Word)
  | moveTargetPointer (target pointer : Reg)
  | movePointerSource (pointer source : Reg)
  | moveByteRegisterAddress (register : Reg) (address : Word)
  | moveByteAddressRegister (register : Reg) (address : Word)
  | moveByteTargetPointer (target pointer : Reg)
  | moveBytePointerSource (pointer source : Reg)
  | moveHalfwordRegisterAddress (register : Reg) (address : Word)
  | moveHalfwordAddressRegister (register : Reg) (address : Word)
  | moveHalfwordTargetPointer (target pointer : Reg)
  | moveHalfwordPointerSource (pointer source : Reg)
  -- Arithmetic family (R170)
  | addTargetLhsRhs (target lhs rhs : Reg)
  | addWithCarryTargetLhsRhs (target lhs rhs : Reg)
  | subtractTargetLhsRhs (target lhs rhs : Reg)
  | subtractWithCarryTargetLhsRhs (target lhs rhs : Reg)
  | addTargetSourceImmediate (target source : Reg) (immediate : Word)
  | subtractTargetSourceImmediate (target source : Reg) (immediate : Word)
  | multiplyHighLowLhsRhs (high low lhs rhs : Reg)
  | divmodTargetModLhsRhs (result remainder lhs rhs : Reg)
  -- Bitwise, shift and compare family (R190, R195, R199)
  | andTargetLhsRhs (target lhs rhs : Reg)
  | orTargetLhsRhs (target lhs rhs : Reg)
  | xorTargetLhsRhs (target lhs rhs : Reg)
  | notTargetSource (target source : Reg)
  | leftShiftTargetLhsRhs (target lhs rhs : Reg)
  | rightShiftTargetLhsRhs (target lhs rhs : Reg)
  | compareTargetLhsRhs (target lhs rhs : Reg)
  | boolCompareEquals (target lhs rhs : Reg)
  | boolCompareNotEquals (target lhs rhs : Reg)
  | boolCompareGreater (target lhs rhs : Reg)
  | boolCompareGreaterOrEquals (target lhs rhs : Reg)
  | boolCompareLess (target lhs rhs : Reg)
  | boolCompareLessOrEquals (target lhs rhs : Reg)
  -- Stack, call and return family (R220, R221)
  | pushRegister (register : Reg)
  | pushImmediate (immediate : Word)
  | popRegister (register : Reg)
  | pop
  | callAddress (address : Word)
  | callRegister (register : Reg)
  | returnFromCall
  -- Jump family (R240)
  | jumpImmediate (address : Word)
  | jumpRegister (register : Reg)
  | jumpImmediateIfEqual (comparison : Reg) (address : Word)
  | jumpImmediateIfGreaterThan (comparison : Reg) (address : Word)
  | jumpImmediateIfLessThan (comparison : Reg) (address : Word)
  | jumpImmediateIfGreaterThanOrEqual (comparison : Reg) (address : Word)
  | jumpImmediateIfLessThanOrEqual (comparison : Reg) (address : Word)
  | jumpImmediateIfZero (address : Word)
  | jumpImmediateIfNotZero (address : Word)
  | jumpImmediateIfCarry (address : Word)
  | jumpImmediateIfNotCarry (address : Word)
  | jumpImmediateIfDivideByZero (address : Word)
  | jumpImmediateIfNotDivideByZero (address : Word)
  -- I/O family (R260)
  | getKeyState (target keycode : Reg)
  | pollTime (high low : Reg)
  | swapFramebuffers
  | invisibleFramebufferAddress (target : Reg)
  | pollCycleCountHighLow (high low : Reg)
  -- System and debug family (R272)
  | noOp
  | haltAndCatchFire
  | dumpRegisters
  | dumpMemory
  | assertRegisterRegister (expected actual : Reg)
  | assertRegisterImmediate (actual : Reg) (immediate : Word)
  | assertPointerImmediate (pointer : Reg) (immediate : Word)
  | debugBreak
  | checkpoint (immediate : Word)
  deriving DecidableEq, Repr

/-- The definition an instruction refers to. -/
def Instr.opcode : Instr → Opcode
  | .moveRegisterImmediate _ _ => .moveRegisterImmediate
  | .moveRegisterAddress _ _ => .moveRegisterAddress
  | .moveTargetSource _ _ => .moveTargetSource
  | .moveAddressRegister _ _ => .moveAddressRegister
  | .moveTargetPointer _ _ => .moveTargetPointer
  | .movePointerSource _ _ => .movePointerSource
  | .moveByteRegisterAddress _ _ => .moveByteRegisterAddress
  | .moveByteAddressRegister _ _ => .moveByteAddressRegister
  | .moveByteTargetPointer _ _ => .moveByteTargetPointer
  | .moveBytePointerSource _ _ => .moveBytePointerSource
  | .moveHalfwordRegisterAddress _ _ => .moveHalfwordRegisterAddress
  | .moveHalfwordAddressRegister _ _ => .moveHalfwordAddressRegister
  | .moveHalfwordTargetPointer _ _ => .moveHalfwordTargetPointer
  | .moveHalfwordPointerSource _ _ => .moveHalfwordPointerSource
  | .addTargetLhsRhs _ _ _ => .addTargetLhsRhs
  | .addWithCarryTargetLhsRhs _ _ _ => .addWithCarryTargetLhsRhs
  | .subtractTargetLhsRhs _ _ _ => .subtractTargetLhsRhs
  | .subtractWithCarryTargetLhsRhs _ _ _ => .subtractWithCarryTargetLhsRhs
  | .addTargetSourceImmediate _ _ _ => .addTargetSourceImmediate
  | .subtractTargetSourceImmediate _ _ _ => .subtractTargetSourceImmediate
  | .multiplyHighLowLhsRhs _ _ _ _ => .multiplyHighLowLhsRhs
  | .divmodTargetModLhsRhs _ _ _ _ => .divmodTargetModLhsRhs
  | .andTargetLhsRhs _ _ _ => .andTargetLhsRhs
  | .orTargetLhsRhs _ _ _ => .orTargetLhsRhs
  | .xorTargetLhsRhs _ _ _ => .xorTargetLhsRhs
  | .notTargetSource _ _ => .notTargetSource
  | .leftShiftTargetLhsRhs _ _ _ => .leftShiftTargetLhsRhs
  | .rightShiftTargetLhsRhs _ _ _ => .rightShiftTargetLhsRhs
  | .compareTargetLhsRhs _ _ _ => .compareTargetLhsRhs
  | .boolCompareEquals _ _ _ => .boolCompareEquals
  | .boolCompareNotEquals _ _ _ => .boolCompareNotEquals
  | .boolCompareGreater _ _ _ => .boolCompareGreater
  | .boolCompareGreaterOrEquals _ _ _ => .boolCompareGreaterOrEquals
  | .boolCompareLess _ _ _ => .boolCompareLess
  | .boolCompareLessOrEquals _ _ _ => .boolCompareLessOrEquals
  | .pushRegister _ => .pushRegister
  | .pushImmediate _ => .pushImmediate
  | .popRegister _ => .popRegister
  | .pop => .pop
  | .callAddress _ => .callAddress
  | .callRegister _ => .callRegister
  | .returnFromCall => .returnFromCall
  | .jumpImmediate _ => .jumpImmediate
  | .jumpRegister _ => .jumpRegister
  | .jumpImmediateIfEqual _ _ => .jumpImmediateIfEqual
  | .jumpImmediateIfGreaterThan _ _ => .jumpImmediateIfGreaterThan
  | .jumpImmediateIfLessThan _ _ => .jumpImmediateIfLessThan
  | .jumpImmediateIfGreaterThanOrEqual _ _ => .jumpImmediateIfGreaterThanOrEqual
  | .jumpImmediateIfLessThanOrEqual _ _ => .jumpImmediateIfLessThanOrEqual
  | .jumpImmediateIfZero _ => .jumpImmediateIfZero
  | .jumpImmediateIfNotZero _ => .jumpImmediateIfNotZero
  | .jumpImmediateIfCarry _ => .jumpImmediateIfCarry
  | .jumpImmediateIfNotCarry _ => .jumpImmediateIfNotCarry
  | .jumpImmediateIfDivideByZero _ => .jumpImmediateIfDivideByZero
  | .jumpImmediateIfNotDivideByZero _ => .jumpImmediateIfNotDivideByZero
  | .getKeyState _ _ => .getKeyState
  | .pollTime _ _ => .pollTime
  | .swapFramebuffers => .swapFramebuffers
  | .invisibleFramebufferAddress _ => .invisibleFramebufferAddress
  | .pollCycleCountHighLow _ _ => .pollCycleCountHighLow
  | .noOp => .noOp
  | .haltAndCatchFire => .haltAndCatchFire
  | .dumpRegisters => .dumpRegisters
  | .dumpMemory => .dumpMemory
  | .assertRegisterRegister _ _ => .assertRegisterRegister
  | .assertRegisterImmediate _ _ => .assertRegisterImmediate
  | .assertPointerImmediate _ _ => .assertPointerImmediate
  | .debugBreak => .debugBreak
  | .checkpoint _ => .checkpoint

/-- The register fields of an instruction, in declared order (R117). -/
def Instr.regs : Instr → List Reg
  | .moveRegisterImmediate a _ => [a]
  | .moveRegisterAddress a _ => [a]
  | .moveTargetSource a b => [a, b]
  | .moveAddressRegister a _ => [a]
  | .moveTargetPointer a b => [a, b]
  | .movePointerSource a b => [a, b]
  | .moveByteRegisterAddress a _ => [a]
  | .moveByteAddressRegister a _ => [a]
  | .moveByteTargetPointer a b => [a, b]
  | .moveBytePointerSource a b => [a, b]
  | .moveHalfwordRegisterAddress a _ => [a]
  | .moveHalfwordAddressRegister a _ => [a]
  | .moveHalfwordTargetPointer a b => [a, b]
  | .moveHalfwordPointerSource a b => [a, b]
  | .addTargetLhsRhs a b c => [a, b, c]
  | .addWithCarryTargetLhsRhs a b c => [a, b, c]
  | .subtractTargetLhsRhs a b c => [a, b, c]
  | .subtractWithCarryTargetLhsRhs a b c => [a, b, c]
  | .addTargetSourceImmediate a b _ => [a, b]
  | .subtractTargetSourceImmediate a b _ => [a, b]
  | .multiplyHighLowLhsRhs a b c d => [a, b, c, d]
  | .divmodTargetModLhsRhs a b c d => [a, b, c, d]
  | .andTargetLhsRhs a b c => [a, b, c]
  | .orTargetLhsRhs a b c => [a, b, c]
  | .xorTargetLhsRhs a b c => [a, b, c]
  | .notTargetSource a b => [a, b]
  | .leftShiftTargetLhsRhs a b c => [a, b, c]
  | .rightShiftTargetLhsRhs a b c => [a, b, c]
  | .compareTargetLhsRhs a b c => [a, b, c]
  | .boolCompareEquals a b c => [a, b, c]
  | .boolCompareNotEquals a b c => [a, b, c]
  | .boolCompareGreater a b c => [a, b, c]
  | .boolCompareGreaterOrEquals a b c => [a, b, c]
  | .boolCompareLess a b c => [a, b, c]
  | .boolCompareLessOrEquals a b c => [a, b, c]
  | .pushRegister a => [a]
  | .pushImmediate _ => []
  | .popRegister a => [a]
  | .pop => []
  | .callAddress _ => []
  | .callRegister a => [a]
  | .returnFromCall => []
  | .jumpImmediate _ => []
  | .jumpRegister a => [a]
  | .jumpImmediateIfEqual a _ => [a]
  | .jumpImmediateIfGreaterThan a _ => [a]
  | .jumpImmediateIfLessThan a _ => [a]
  | .jumpImmediateIfGreaterThanOrEqual a _ => [a]
  | .jumpImmediateIfLessThanOrEqual a _ => [a]
  | .jumpImmediateIfZero _ => []
  | .jumpImmediateIfNotZero _ => []
  | .jumpImmediateIfCarry _ => []
  | .jumpImmediateIfNotCarry _ => []
  | .jumpImmediateIfDivideByZero _ => []
  | .jumpImmediateIfNotDivideByZero _ => []
  | .getKeyState a b => [a, b]
  | .pollTime a b => [a, b]
  | .swapFramebuffers => []
  | .invisibleFramebufferAddress a => [a]
  | .pollCycleCountHighLow a b => [a, b]
  | .noOp => []
  | .haltAndCatchFire => []
  | .dumpRegisters => []
  | .dumpMemory => []
  | .assertRegisterRegister a b => [a, b]
  | .assertRegisterImmediate a _ => [a]
  | .assertPointerImmediate a _ => [a]
  | .debugBreak => []
  | .checkpoint _ => []

/-- The extra word of an instruction, if its definition has one (R116). -/
def Instr.extra : Instr → Option Word
  | .moveRegisterImmediate _ w => some w
  | .moveRegisterAddress _ w => some w
  | .moveTargetSource _ _ => none
  | .moveAddressRegister _ w => some w
  | .moveTargetPointer _ _ => none
  | .movePointerSource _ _ => none
  | .moveByteRegisterAddress _ w => some w
  | .moveByteAddressRegister _ w => some w
  | .moveByteTargetPointer _ _ => none
  | .moveBytePointerSource _ _ => none
  | .moveHalfwordRegisterAddress _ w => some w
  | .moveHalfwordAddressRegister _ w => some w
  | .moveHalfwordTargetPointer _ _ => none
  | .moveHalfwordPointerSource _ _ => none
  | .addTargetLhsRhs _ _ _ => none
  | .addWithCarryTargetLhsRhs _ _ _ => none
  | .subtractTargetLhsRhs _ _ _ => none
  | .subtractWithCarryTargetLhsRhs _ _ _ => none
  | .addTargetSourceImmediate _ _ w => some w
  | .subtractTargetSourceImmediate _ _ w => some w
  | .multiplyHighLowLhsRhs _ _ _ _ => none
  | .divmodTargetModLhsRhs _ _ _ _ => none
  | .andTargetLhsRhs _ _ _ => none
  | .orTargetLhsRhs _ _ _ => none
  | .xorTargetLhsRhs _ _ _ => none
  | .notTargetSource _ _ => none
  | .leftShiftTargetLhsRhs _ _ _ => none
  | .rightShiftTargetLhsRhs _ _ _ => none
  | .compareTargetLhsRhs _ _ _ => none
  | .boolCompareEquals _ _ _ => none
  | .boolCompareNotEquals _ _ _ => none
  | .boolCompareGreater _ _ _ => none
  | .boolCompareGreaterOrEquals _ _ _ => none
  | .boolCompareLess _ _ _ => none
  | .boolCompareLessOrEquals _ _ _ => none
  | .pushRegister _ => none
  | .pushImmediate w => some w
  | .popRegister _ => none
  | .pop => none
  | .callAddress w => some w
  | .callRegister _ => none
  | .returnFromCall => none
  | .jumpImmediate w => some w
  | .jumpRegister _ => none
  | .jumpImmediateIfEqual _ w => some w
  | .jumpImmediateIfGreaterThan _ w => some w
  | .jumpImmediateIfLessThan _ w => some w
  | .jumpImmediateIfGreaterThanOrEqual _ w => some w
  | .jumpImmediateIfLessThanOrEqual _ w => some w
  | .jumpImmediateIfZero w => some w
  | .jumpImmediateIfNotZero w => some w
  | .jumpImmediateIfCarry w => some w
  | .jumpImmediateIfNotCarry w => some w
  | .jumpImmediateIfDivideByZero w => some w
  | .jumpImmediateIfNotDivideByZero w => some w
  | .getKeyState _ _ => none
  | .pollTime _ _ => none
  | .swapFramebuffers => none
  | .invisibleFramebufferAddress _ => none
  | .pollCycleCountHighLow _ _ => none
  | .noOp => none
  | .haltAndCatchFire => none
  | .dumpRegisters => none
  | .dumpMemory => none
  | .assertRegisterRegister _ _ => none
  | .assertRegisterImmediate _ w => some w
  | .assertPointerImmediate _ w => some w
  | .debugBreak => none
  | .checkpoint w => some w

/-- The index of an opcode in the order of R130. -/
def Opcode.index (op : Opcode) : Fin 69 := ⟨op.ctorIdx, by cases op <;> decide⟩

/-- The opcodes in the order of R130. -/
def Opcode.all : List Opcode :=
  [.moveRegisterImmediate, .moveRegisterAddress, .moveTargetSource, .moveAddressRegister, .moveTargetPointer,
   .movePointerSource, .moveByteRegisterAddress, .moveByteAddressRegister, .moveByteTargetPointer,
   .moveBytePointerSource, .moveHalfwordRegisterAddress, .moveHalfwordAddressRegister,
   .moveHalfwordTargetPointer, .moveHalfwordPointerSource,
   .addTargetLhsRhs, .addWithCarryTargetLhsRhs, .subtractTargetLhsRhs, .subtractWithCarryTargetLhsRhs,
   .addTargetSourceImmediate, .subtractTargetSourceImmediate, .multiplyHighLowLhsRhs, .divmodTargetModLhsRhs,
   .andTargetLhsRhs, .orTargetLhsRhs, .xorTargetLhsRhs, .notTargetSource, .leftShiftTargetLhsRhs,
   .rightShiftTargetLhsRhs, .compareTargetLhsRhs, .boolCompareEquals, .boolCompareNotEquals,
   .boolCompareGreater, .boolCompareGreaterOrEquals, .boolCompareLess, .boolCompareLessOrEquals,
   .pushRegister, .pushImmediate, .popRegister, .pop, .callAddress, .callRegister, .returnFromCall,
   .jumpImmediate, .jumpRegister, .jumpImmediateIfEqual, .jumpImmediateIfGreaterThan,
   .jumpImmediateIfLessThan, .jumpImmediateIfGreaterThanOrEqual, .jumpImmediateIfLessThanOrEqual,
   .jumpImmediateIfZero, .jumpImmediateIfNotZero, .jumpImmediateIfCarry, .jumpImmediateIfNotCarry,
   .jumpImmediateIfDivideByZero, .jumpImmediateIfNotDivideByZero,
   .getKeyState, .pollTime, .swapFramebuffers, .invisibleFramebufferAddress, .pollCycleCountHighLow,
   .noOp, .haltAndCatchFire, .dumpRegisters, .dumpMemory, .assertRegisterRegister, .assertRegisterImmediate,
   .assertPointerImmediate, .debugBreak, .checkpoint]

end Sys2Proof
end

