-- ==== Sys2Proof/WellFormed.lean ====
section
/-! DEFINITION. Which instructions and opcode codes are well formed: the inputs for which encoding and decoding are
inverse (R127). Widths need no check: a register field is 8 bits and an extra word 32 bits by their types. -/

namespace Sys2Proof

/-- A reserved register index: 253 FLAGS, 254 IP, 255 SP (R34). -/
def Reg.reserved (r : Reg) : Bool := decide (253 ≤ r.toNat)

/-- The register fields decoding accepts: all of them under Direct, 0..252 under Fault (R118, R127, R135). -/
def Instr.wf (c : Codec) (i : Instr) : Bool :=
  match c.reserved with
  | .direct => true
  | .fault => i.regs.all fun r => !Reg.reserved r

/-- No two definitions share a numeric code (R114 (a), R131). -/
abbrev Codec.Distinct (c : Codec) : Prop := c.codes.toList.Nodup

end Sys2Proof
end

