-- ==== Sys2Proof/Decode.lean ====
section
/-! DEFINITION. The opcode table as data (R128, R130), the decoder (R120) and the encoder (R124). Bit 63 of an
instruction word is the most significant bit of the byte at the lowest address (R112). -/

namespace Sys2Proof

/-! ### The opcode table -/

/-- The register roles of a definition, in declared order (R130). -/
def Opcode.roles : Opcode → List Role
  | .moveRegisterImmediate => [.register]
  | .moveRegisterAddress => [.register]
  | .moveTargetSource => [.target, .source]
  | .moveAddressRegister => [.register]
  | .moveTargetPointer => [.target, .pointer]
  | .movePointerSource => [.pointer, .source]
  | .moveByteRegisterAddress => [.register]
  | .moveByteAddressRegister => [.register]
  | .moveByteTargetPointer => [.target, .pointer]
  | .moveBytePointerSource => [.pointer, .source]
  | .moveHalfwordRegisterAddress => [.register]
  | .moveHalfwordAddressRegister => [.register]
  | .moveHalfwordTargetPointer => [.target, .pointer]
  | .moveHalfwordPointerSource => [.pointer, .source]
  | .addTargetLhsRhs => [.target, .lhs, .rhs]
  | .addWithCarryTargetLhsRhs => [.target, .lhs, .rhs]
  | .subtractTargetLhsRhs => [.target, .lhs, .rhs]
  | .subtractWithCarryTargetLhsRhs => [.target, .lhs, .rhs]
  | .addTargetSourceImmediate => [.target, .source]
  | .subtractTargetSourceImmediate => [.target, .source]
  | .multiplyHighLowLhsRhs => [.high, .low, .lhs, .rhs]
  | .divmodTargetModLhsRhs => [.result, .remainder, .lhs, .rhs]
  | .andTargetLhsRhs => [.target, .lhs, .rhs]
  | .orTargetLhsRhs => [.target, .lhs, .rhs]
  | .xorTargetLhsRhs => [.target, .lhs, .rhs]
  | .notTargetSource => [.target, .source]
  | .leftShiftTargetLhsRhs => [.target, .lhs, .rhs]
  | .rightShiftTargetLhsRhs => [.target, .lhs, .rhs]
  | .compareTargetLhsRhs => [.target, .lhs, .rhs]
  | .boolCompareEquals => [.target, .lhs, .rhs]
  | .boolCompareNotEquals => [.target, .lhs, .rhs]
  | .boolCompareGreater => [.target, .lhs, .rhs]
  | .boolCompareGreaterOrEquals => [.target, .lhs, .rhs]
  | .boolCompareLess => [.target, .lhs, .rhs]
  | .boolCompareLessOrEquals => [.target, .lhs, .rhs]
  | .pushRegister => [.register]
  | .pushImmediate => []
  | .popRegister => [.register]
  | .pop => []
  | .callAddress => []
  | .callRegister => [.register]
  | .returnFromCall => []
  | .jumpImmediate => []
  | .jumpRegister => [.register]
  | .jumpImmediateIfEqual => [.comparison]
  | .jumpImmediateIfGreaterThan => [.comparison]
  | .jumpImmediateIfLessThan => [.comparison]
  | .jumpImmediateIfGreaterThanOrEqual => [.comparison]
  | .jumpImmediateIfLessThanOrEqual => [.comparison]
  | .jumpImmediateIfZero => []
  | .jumpImmediateIfNotZero => []
  | .jumpImmediateIfCarry => []
  | .jumpImmediateIfNotCarry => []
  | .jumpImmediateIfDivideByZero => []
  | .jumpImmediateIfNotDivideByZero => []
  | .getKeyState => [.target, .keycode]
  | .pollTime => [.high, .low]
  | .swapFramebuffers => []
  | .invisibleFramebufferAddress => [.target]
  | .pollCycleCountHighLow => [.high, .low]
  | .noOp => []
  | .haltAndCatchFire => []
  | .dumpRegisters => []
  | .dumpMemory => []
  | .assertRegisterRegister => [.expected, .actual]
  | .assertRegisterImmediate => [.actual]
  | .assertPointerImmediate => [.pointer]
  | .debugBreak => []
  | .checkpoint => []

/-- The extra-word kind of a definition, if it has one (R130). -/
def Opcode.extraKind : Opcode → Option ExtraKind
  | .moveRegisterImmediate => some .immediate
  | .moveRegisterAddress => some .sourceAddress
  | .moveTargetSource => none
  | .moveAddressRegister => some .targetAddress
  | .moveTargetPointer => none
  | .movePointerSource => none
  | .moveByteRegisterAddress => some .sourceAddress
  | .moveByteAddressRegister => some .targetAddress
  | .moveByteTargetPointer => none
  | .moveBytePointerSource => none
  | .moveHalfwordRegisterAddress => some .sourceAddress
  | .moveHalfwordAddressRegister => some .targetAddress
  | .moveHalfwordTargetPointer => none
  | .moveHalfwordPointerSource => none
  | .addTargetLhsRhs => none
  | .addWithCarryTargetLhsRhs => none
  | .subtractTargetLhsRhs => none
  | .subtractWithCarryTargetLhsRhs => none
  | .addTargetSourceImmediate => some .immediate
  | .subtractTargetSourceImmediate => some .immediate
  | .multiplyHighLowLhsRhs => none
  | .divmodTargetModLhsRhs => none
  | .andTargetLhsRhs => none
  | .orTargetLhsRhs => none
  | .xorTargetLhsRhs => none
  | .notTargetSource => none
  | .leftShiftTargetLhsRhs => none
  | .rightShiftTargetLhsRhs => none
  | .compareTargetLhsRhs => none
  | .boolCompareEquals => none
  | .boolCompareNotEquals => none
  | .boolCompareGreater => none
  | .boolCompareGreaterOrEquals => none
  | .boolCompareLess => none
  | .boolCompareLessOrEquals => none
  | .pushRegister => none
  | .pushImmediate => some .immediate
  | .popRegister => none
  | .pop => none
  | .callAddress => some .targetAddress
  | .callRegister => none
  | .returnFromCall => none
  | .jumpImmediate => some .targetAddress
  | .jumpRegister => none
  | .jumpImmediateIfEqual => some .targetAddress
  | .jumpImmediateIfGreaterThan => some .targetAddress
  | .jumpImmediateIfLessThan => some .targetAddress
  | .jumpImmediateIfGreaterThanOrEqual => some .targetAddress
  | .jumpImmediateIfLessThanOrEqual => some .targetAddress
  | .jumpImmediateIfZero => some .targetAddress
  | .jumpImmediateIfNotZero => some .targetAddress
  | .jumpImmediateIfCarry => some .targetAddress
  | .jumpImmediateIfNotCarry => some .targetAddress
  | .jumpImmediateIfDivideByZero => some .targetAddress
  | .jumpImmediateIfNotDivideByZero => some .targetAddress
  | .getKeyState => none
  | .pollTime => none
  | .swapFramebuffers => none
  | .invisibleFramebufferAddress => none
  | .pollCycleCountHighLow => none
  | .noOp => none
  | .haltAndCatchFire => none
  | .dumpRegisters => none
  | .dumpMemory => none
  | .assertRegisterRegister => none
  | .assertRegisterImmediate => some .immediate
  | .assertPointerImmediate => some .immediate
  | .debugBreak => none
  | .checkpoint => some .immediate

/-- The increment flag (R130, R132). -/
def Opcode.increment : Opcode → Bool
  | .moveRegisterImmediate => true
  | .moveRegisterAddress => true
  | .moveTargetSource => true
  | .moveAddressRegister => true
  | .moveTargetPointer => true
  | .movePointerSource => true
  | .moveByteRegisterAddress => true
  | .moveByteAddressRegister => true
  | .moveByteTargetPointer => true
  | .moveBytePointerSource => true
  | .moveHalfwordRegisterAddress => true
  | .moveHalfwordAddressRegister => true
  | .moveHalfwordTargetPointer => true
  | .moveHalfwordPointerSource => true
  | .addTargetLhsRhs => true
  | .addWithCarryTargetLhsRhs => true
  | .subtractTargetLhsRhs => true
  | .subtractWithCarryTargetLhsRhs => true
  | .addTargetSourceImmediate => true
  | .subtractTargetSourceImmediate => true
  | .multiplyHighLowLhsRhs => true
  | .divmodTargetModLhsRhs => true
  | .andTargetLhsRhs => true
  | .orTargetLhsRhs => true
  | .xorTargetLhsRhs => true
  | .notTargetSource => true
  | .leftShiftTargetLhsRhs => true
  | .rightShiftTargetLhsRhs => true
  | .compareTargetLhsRhs => true
  | .boolCompareEquals => true
  | .boolCompareNotEquals => true
  | .boolCompareGreater => true
  | .boolCompareGreaterOrEquals => true
  | .boolCompareLess => true
  | .boolCompareLessOrEquals => true
  | .pushRegister => true
  | .pushImmediate => true
  | .popRegister => true
  | .pop => true
  | .callAddress => false
  | .callRegister => false
  | .returnFromCall => false
  | .jumpImmediate => false
  | .jumpRegister => false
  | .jumpImmediateIfEqual => false
  | .jumpImmediateIfGreaterThan => false
  | .jumpImmediateIfLessThan => false
  | .jumpImmediateIfGreaterThanOrEqual => false
  | .jumpImmediateIfLessThanOrEqual => false
  | .jumpImmediateIfZero => false
  | .jumpImmediateIfNotZero => false
  | .jumpImmediateIfCarry => false
  | .jumpImmediateIfNotCarry => false
  | .jumpImmediateIfDivideByZero => false
  | .jumpImmediateIfNotDivideByZero => false
  | .getKeyState => true
  | .pollTime => true
  | .swapFramebuffers => true
  | .invisibleFramebufferAddress => true
  | .pollCycleCountHighLow => true
  | .noOp => true
  | .haltAndCatchFire => false
  | .dumpRegisters => true
  | .dumpMemory => true
  | .assertRegisterRegister => true
  | .assertRegisterImmediate => true
  | .assertPointerImmediate => true
  | .debugBreak => true
  | .checkpoint => true

/-- The default numeric code (R130). -/
def Opcode.defaultCode : Opcode → Code
  | .moveRegisterImmediate => 0x0000#16
  | .moveRegisterAddress => 0x0001#16
  | .moveTargetSource => 0x0002#16
  | .moveAddressRegister => 0x0003#16
  | .moveTargetPointer => 0x0004#16
  | .movePointerSource => 0x0005#16
  | .moveByteRegisterAddress => 0x0006#16
  | .moveByteAddressRegister => 0x0007#16
  | .moveByteTargetPointer => 0x0008#16
  | .moveBytePointerSource => 0x0009#16
  | .moveHalfwordRegisterAddress => 0x000a#16
  | .moveHalfwordAddressRegister => 0x000b#16
  | .moveHalfwordTargetPointer => 0x000c#16
  | .moveHalfwordPointerSource => 0x000d#16
  | .addTargetLhsRhs => 0x0010#16
  | .addWithCarryTargetLhsRhs => 0x0011#16
  | .subtractTargetLhsRhs => 0x0012#16
  | .subtractWithCarryTargetLhsRhs => 0x0013#16
  | .addTargetSourceImmediate => 0x0014#16
  | .subtractTargetSourceImmediate => 0x0015#16
  | .multiplyHighLowLhsRhs => 0x0016#16
  | .divmodTargetModLhsRhs => 0x0017#16
  | .andTargetLhsRhs => 0x0020#16
  | .orTargetLhsRhs => 0x0021#16
  | .xorTargetLhsRhs => 0x0022#16
  | .notTargetSource => 0x0023#16
  | .leftShiftTargetLhsRhs => 0x0024#16
  | .rightShiftTargetLhsRhs => 0x0025#16
  | .compareTargetLhsRhs => 0x0026#16
  | .boolCompareEquals => 0x0027#16
  | .boolCompareNotEquals => 0x0028#16
  | .boolCompareGreater => 0x0029#16
  | .boolCompareGreaterOrEquals => 0x002a#16
  | .boolCompareLess => 0x002b#16
  | .boolCompareLessOrEquals => 0x002c#16
  | .pushRegister => 0x0030#16
  | .pushImmediate => 0x0031#16
  | .popRegister => 0x0032#16
  | .pop => 0x0033#16
  | .callAddress => 0x0034#16
  | .callRegister => 0x0035#16
  | .returnFromCall => 0x0036#16
  | .jumpImmediate => 0x0040#16
  | .jumpRegister => 0x0041#16
  | .jumpImmediateIfEqual => 0x0042#16
  | .jumpImmediateIfGreaterThan => 0x0043#16
  | .jumpImmediateIfLessThan => 0x0044#16
  | .jumpImmediateIfGreaterThanOrEqual => 0x0045#16
  | .jumpImmediateIfLessThanOrEqual => 0x0046#16
  | .jumpImmediateIfZero => 0x0047#16
  | .jumpImmediateIfNotZero => 0x0048#16
  | .jumpImmediateIfCarry => 0x0049#16
  | .jumpImmediateIfNotCarry => 0x004a#16
  | .jumpImmediateIfDivideByZero => 0x004b#16
  | .jumpImmediateIfNotDivideByZero => 0x004c#16
  | .getKeyState => 0x0050#16
  | .pollTime => 0x0051#16
  | .swapFramebuffers => 0x0052#16
  | .invisibleFramebufferAddress => 0x0053#16
  | .pollCycleCountHighLow => 0x0054#16
  | .noOp => 0x0060#16
  | .haltAndCatchFire => 0x0061#16
  | .dumpRegisters => 0x0062#16
  | .dumpMemory => 0x0063#16
  | .assertRegisterRegister => 0x0064#16
  | .assertRegisterImmediate => 0x0065#16
  | .assertPointerImmediate => 0x0066#16
  | .debugBreak => 0x0067#16
  | .checkpoint => 0x0068#16

/-- The instruction of a definition whose register field `k` is `f k` and whose extra word is `x` (R117, R120). -/
def Opcode.assemble (op : Opcode) (f : Nat → Reg) (x : Word) : Instr :=
  match op with
  | .moveRegisterImmediate => .moveRegisterImmediate (f 0) x
  | .moveRegisterAddress => .moveRegisterAddress (f 0) x
  | .moveTargetSource => .moveTargetSource (f 0) (f 1)
  | .moveAddressRegister => .moveAddressRegister (f 0) x
  | .moveTargetPointer => .moveTargetPointer (f 0) (f 1)
  | .movePointerSource => .movePointerSource (f 0) (f 1)
  | .moveByteRegisterAddress => .moveByteRegisterAddress (f 0) x
  | .moveByteAddressRegister => .moveByteAddressRegister (f 0) x
  | .moveByteTargetPointer => .moveByteTargetPointer (f 0) (f 1)
  | .moveBytePointerSource => .moveBytePointerSource (f 0) (f 1)
  | .moveHalfwordRegisterAddress => .moveHalfwordRegisterAddress (f 0) x
  | .moveHalfwordAddressRegister => .moveHalfwordAddressRegister (f 0) x
  | .moveHalfwordTargetPointer => .moveHalfwordTargetPointer (f 0) (f 1)
  | .moveHalfwordPointerSource => .moveHalfwordPointerSource (f 0) (f 1)
  | .addTargetLhsRhs => .addTargetLhsRhs (f 0) (f 1) (f 2)
  | .addWithCarryTargetLhsRhs => .addWithCarryTargetLhsRhs (f 0) (f 1) (f 2)
  | .subtractTargetLhsRhs => .subtractTargetLhsRhs (f 0) (f 1) (f 2)
  | .subtractWithCarryTargetLhsRhs => .subtractWithCarryTargetLhsRhs (f 0) (f 1) (f 2)
  | .addTargetSourceImmediate => .addTargetSourceImmediate (f 0) (f 1) x
  | .subtractTargetSourceImmediate => .subtractTargetSourceImmediate (f 0) (f 1) x
  | .multiplyHighLowLhsRhs => .multiplyHighLowLhsRhs (f 0) (f 1) (f 2) (f 3)
  | .divmodTargetModLhsRhs => .divmodTargetModLhsRhs (f 0) (f 1) (f 2) (f 3)
  | .andTargetLhsRhs => .andTargetLhsRhs (f 0) (f 1) (f 2)
  | .orTargetLhsRhs => .orTargetLhsRhs (f 0) (f 1) (f 2)
  | .xorTargetLhsRhs => .xorTargetLhsRhs (f 0) (f 1) (f 2)
  | .notTargetSource => .notTargetSource (f 0) (f 1)
  | .leftShiftTargetLhsRhs => .leftShiftTargetLhsRhs (f 0) (f 1) (f 2)
  | .rightShiftTargetLhsRhs => .rightShiftTargetLhsRhs (f 0) (f 1) (f 2)
  | .compareTargetLhsRhs => .compareTargetLhsRhs (f 0) (f 1) (f 2)
  | .boolCompareEquals => .boolCompareEquals (f 0) (f 1) (f 2)
  | .boolCompareNotEquals => .boolCompareNotEquals (f 0) (f 1) (f 2)
  | .boolCompareGreater => .boolCompareGreater (f 0) (f 1) (f 2)
  | .boolCompareGreaterOrEquals => .boolCompareGreaterOrEquals (f 0) (f 1) (f 2)
  | .boolCompareLess => .boolCompareLess (f 0) (f 1) (f 2)
  | .boolCompareLessOrEquals => .boolCompareLessOrEquals (f 0) (f 1) (f 2)
  | .pushRegister => .pushRegister (f 0)
  | .pushImmediate => .pushImmediate x
  | .popRegister => .popRegister (f 0)
  | .pop => .pop
  | .callAddress => .callAddress x
  | .callRegister => .callRegister (f 0)
  | .returnFromCall => .returnFromCall
  | .jumpImmediate => .jumpImmediate x
  | .jumpRegister => .jumpRegister (f 0)
  | .jumpImmediateIfEqual => .jumpImmediateIfEqual (f 0) x
  | .jumpImmediateIfGreaterThan => .jumpImmediateIfGreaterThan (f 0) x
  | .jumpImmediateIfLessThan => .jumpImmediateIfLessThan (f 0) x
  | .jumpImmediateIfGreaterThanOrEqual => .jumpImmediateIfGreaterThanOrEqual (f 0) x
  | .jumpImmediateIfLessThanOrEqual => .jumpImmediateIfLessThanOrEqual (f 0) x
  | .jumpImmediateIfZero => .jumpImmediateIfZero x
  | .jumpImmediateIfNotZero => .jumpImmediateIfNotZero x
  | .jumpImmediateIfCarry => .jumpImmediateIfCarry x
  | .jumpImmediateIfNotCarry => .jumpImmediateIfNotCarry x
  | .jumpImmediateIfDivideByZero => .jumpImmediateIfDivideByZero x
  | .jumpImmediateIfNotDivideByZero => .jumpImmediateIfNotDivideByZero x
  | .getKeyState => .getKeyState (f 0) (f 1)
  | .pollTime => .pollTime (f 0) (f 1)
  | .swapFramebuffers => .swapFramebuffers
  | .invisibleFramebufferAddress => .invisibleFramebufferAddress (f 0)
  | .pollCycleCountHighLow => .pollCycleCountHighLow (f 0) (f 1)
  | .noOp => .noOp
  | .haltAndCatchFire => .haltAndCatchFire
  | .dumpRegisters => .dumpRegisters
  | .dumpMemory => .dumpMemory
  | .assertRegisterRegister => .assertRegisterRegister (f 0) (f 1)
  | .assertRegisterImmediate => .assertRegisterImmediate (f 0) x
  | .assertPointerImmediate => .assertPointerImmediate (f 0) x
  | .debugBreak => .debugBreak
  | .checkpoint => .checkpoint x

/-- The numeric code of a definition under OPCODE_CODE (R131). -/
def Codec.code (c : Codec) (op : Opcode) : Code := c.codes[op.index]

/-- The reverse index of the opcode table: numeric code to definition (R120). -/
def Codec.byCode (c : Codec) (code : Code) : Option Opcode := Opcode.all.find? fun op => decide (c.code op = code)

/-- The default codes of R130 with the default policies of R10. -/
def Codec.std : Codec where
  codes := ⟨(Opcode.all.map Opcode.defaultCode).toArray, rfl⟩
  reserved := .fault
  padding := .ignore

/-- The number of bits a definition uses (R114 (b)). -/
def Opcode.bitBudget (op : Opcode) : Nat := 16 + 8 * op.roles.length + if op.extraKind.isSome then 32 else 0

/-! ### Fields of an instruction word (R112) -/

/-- Byte `j` of an instruction word, 0-based from the lowest address. -/
def wordByte (w : DWord) (j : Nat) : Byte := w.extractLsb' (56 - 8 * j) 8

/-- The opcode field, `W[63:48]`. -/
def opcodeField (w : DWord) : Code := w.extractLsb' 48 16

/-- Register field `k`, `W[47-8k:40-8k]`, for `k` in 0..5. -/
def regField (w : DWord) (k : Nat) : Reg := w.extractLsb' (40 - 8 * k) 8

/-- The extra word, `W[31:0]`. -/
def extraField (w : DWord) : Word := w.extractLsb' 0 32

/-- The padding bytes of a definition's format, as offsets (R113): the bytes after the register fields, up to the extra
word where there is one. -/
def Opcode.paddingBytes (op : Opcode) : List Nat :=
  let n := op.roles.length
  List.range' (2 + n) ((if op.extraKind.isSome then 2 else 6) - n)

/-! ### The decoder -/

/-- Why an instruction word does not decode; the kinds an undecodable cache entry holds (R48, R120). -/
inductive DecodeError where
  | unknownOpcode (code : Code)
  | reservedRegisterOperand (role : Role) (value : Reg)
  | paddingNotZero (word : DWord)
  deriving DecidableEq, Repr

/-- What the codec and its numeric primitives report when used on their own (R77, R125). None can arise in a run. -/
inductive CodecError where
  | undecodable (e : DecodeError)
  | alignmentOrSize (width length : Nat)
  | registerOutOfRange (index : Nat)
  | operandArityMismatch (op : Opcode)
  | missingOperand (op : Opcode)
  | unexpectedOperand (op : Opcode)
  deriving DecidableEq, Repr

/-- The first register field, in declared order, that holds a reserved index (R118); `k` numbers the first role. -/
def firstReserved (f : Nat → Reg) : Nat → List Role → Option (Role × Reg)
  | _, [] => none
  | k, role :: roles => if Reg.reserved (f k) then some (role, f k) else firstReserved f (k + 1) roles

/-- The reserved operand that makes decoding fail under the policy, if any (R118). -/
def Codec.reservedOperand (c : Codec) (op : Opcode) (w : DWord) : Option (Role × Reg) :=
  match c.reserved with
  | .direct => none
  | .fault => firstReserved (regField w) 0 op.roles

/-- Whether the padding of a word makes decoding fail under the policy (R119). -/
def Codec.paddingFails (c : Codec) (op : Opcode) (w : DWord) : Bool :=
  match c.padding with
  | .ignore => false
  | .fault => op.paddingBytes.any fun j => decide (wordByte w j ≠ 0)

/-- Decoding: the opcode, then the registers in declared order, then the padding (R120). -/
def decode (c : Codec) (w : DWord) : Except DecodeError Instr :=
  match c.byCode (opcodeField w) with
  | none => .error (.unknownOpcode (opcodeField w))
  | some op =>
    match c.reservedOperand op w with
    | some (role, value) => .error (.reservedRegisterOperand role value)
    | none =>
      if c.paddingFails op w then .error (.paddingNotZero w)
      else .ok (op.assemble (regField w) (extraField w))

/-! ### Numeric primitives (R73, R77) -/

/-- The unsigned value of a list of bytes, most significant first. -/
def beValue (bs : List Byte) : Nat := bs.foldl (fun acc b => acc * 256 + b.toNat) 0

/-- The low `n` bytes of a value, most significant first. -/
def beBytes (n v : Nat) : List Byte := (List.range n).map fun k => BitVec.ofNat 8 (v / 2 ^ (8 * (n - 1 - k)))

/-- The numeric primitive of width `n` over a byte slice: AlignmentOrSize when the slice is shorter than `n` (R77). Of a
longer slice, of which R77 says nothing, it reads the first `n` bytes and ignores the rest (log entry 22, DESIGN
CHOICE). -/
def readNumeric (n : Nat) (bs : List Byte) : Except CodecError Nat :=
  if bs.length < n then .error (.alignmentOrSize n bs.length) else .ok (beValue (bs.take n))

/-- Decoding of a byte slice, total on any bytes; bytes after the first eight are ignored (log entry 22, DESIGN
CHOICE). -/
def decodeBytes (c : Codec) (bs : List Byte) : Except CodecError Instr :=
  match readNumeric 8 bs with
  | .error e => .error e
  | .ok v =>
    match decode c (BitVec.ofNat 64 v) with
    | .error e => .error (.undecodable e)
    | .ok i => .ok i

/-! ### The encoder -/

/-- Register fields in their places, the first of them being field `k` (R124). -/
def placeRegs (k : Nat) : List Reg → DWord
  | [] => 0
  | r :: rs => (r.setWidth 64 <<< (40 - 8 * k)) ||| placeRegs (k + 1) rs

/-- The word with a given code, register fields and extra word, every padding bit 0 (R124, R126). -/
def encodeFields (code : Code) (regs : List Reg) (extra : Option Word) : DWord :=
  (code.setWidth 64 <<< 48) ||| placeRegs 0 regs ||| (extra.getD 0).setWidth 64

/-- The instruction word of an instruction (R124). -/
def encode (c : Codec) (i : Instr) : DWord := encodeFields (c.code i.opcode) i.regs i.extra

/-- The bytes of an instruction, lowest address first (R73, R112). -/
def encodeBytes (c : Codec) (i : Instr) : List Byte := beBytes 8 (encode c i).toNat

/-- The encoder as a tool calls it, with its errors in the order of R124. -/
def encodeCall (c : Codec) (op : Opcode) (regs : List Nat) (extra : Option Nat) : Except CodecError DWord :=
  if regs.length ≠ op.roles.length then .error (.operandArityMismatch op)
  else if op.extraKind.isSome && extra.isNone then .error (.missingOperand op)
  else if op.extraKind.isNone && extra.isSome then .error (.unexpectedOperand op)
  else match regs.find? fun r => decide (255 < r) with
    | some r => .error (.registerOutOfRange r)
    | none =>
      if extra.any fun x => decide (2 ^ 32 - 1 < x) then .error (.operandArityMismatch op)
      else .ok (encodeFields (c.code op) (regs.map (BitVec.ofNat 8)) (extra.map (BitVec.ofNat 32)))

/-! ### The host's question about one row of the table -/

/-- The 64-bit instruction word whose low `nbits` bits are those of `w`, every other bit 0 (log entry 12). -/
def tableWord (nbits w : Nat) : DWord := BitVec.ofNat 64 (w % 2 ^ nbits)

/-- The instruction the decoder reads from the bytes of a table word, laid out as memory holds them. -/
def decodeTableWord (nbits w : Nat) : Option Instr :=
  match decodeBytes Codec.std (beBytes 8 (tableWord nbits w).toNat) with
  | .ok i => some i
  | .error _ => none

end Sys2Proof
end

