-- ==== Sys2Proof/Machine/Layout.lean ====
section
/-! DEFINITION. The memory map of R84 as functions of the parameters, which configurations are admitted (R11), and the
configuration of the reset state. -/

namespace Sys2Proof

/-- INSTRUCTION_WIDTH in bytes, the only value admitted (R110, R136). -/
def instructionWidth : Nat := 8

/-- MEMORY_SIZE (R9, R70). -/
def memorySize : Nat := 0x01000000

/-- TERMINAL_BUFFER_START (R84). -/
def Config.terminalBufferStart (_ : Config) : Nat := 0

/-- TERMINAL_BUFFER_SIZE: one byte per cell (R84). -/
def Config.terminalBufferSize (c : Config) : Nat := c.terminalWidth * c.terminalHeight

/-- TERMINAL_CURSOR_POINTER: one word (R84). -/
def Config.terminalCursorPointer (c : Config) : Nat := c.terminalBufferStart + c.terminalBufferSize

/-- TERMINAL_CURSOR_MODE: one word (R84). -/
def Config.terminalCursorMode (c : Config) : Nat := c.terminalCursorPointer + 4

/-- FRAMEBUFFER_SIZE: RGBA, 4 bytes per pixel (R84). -/
def Config.framebufferSize (c : Config) : Nat := c.displayWidth * c.displayHeight * 4

/-- FRAMEBUFFER_0_START (R84). -/
def Config.framebuffer0Start (c : Config) : Nat := c.terminalCursorMode + 4 + 4 * c.framebufferExtraWords

/-- FRAMEBUFFER_1_START (R84). -/
def Config.framebuffer1Start (c : Config) : Nat := c.framebuffer0Start + c.framebufferSize

/-- STACK_START (R84). -/
def Config.stackStart (c : Config) : Nat := c.framebuffer1Start + c.framebufferSize

/-- STACK_END (R84). -/
def Config.stackEnd (c : Config) : Nat := c.stackStart + c.stackSize

/-- ENTRY_POINT, immediately after the stack (R84). -/
def Config.entryPoint (c : Config) : Nat := c.stackEnd

/-- The cycle cost of an opcode, CYCLES (R353). -/
def Config.cost (c : Config) (op : Opcode) : Nat := c.costs[op.index]

/-- The layout part of R11: every region inside memory and the alignments it names. The regions cannot overlap, since
each begins where the one before it ends. -/
def Config.layoutFits (c : Config) : Bool :=
  decide (c.entryPoint ≤ memorySize) && decide (c.entryPoint % 8 = 0) && decide (c.stackStart % 4 = 0) &&
    decide (c.terminalCursorPointer % 4 = 0) && decide (c.terminalCursorMode % 4 = 0) &&
    decide (c.framebuffer0Start % 4 = 0) && decide (c.framebuffer1Start % 4 = 0)

/-- The domains of R10: positive sizes and costs, extra words 0 or 2, a stack size that is a multiple of 4. The cost of
MoveRegisterImmediate, which R353 says the document fixes at 1, may be any positive one, as R10 has it (log entry 23,
DESIGN CHOICE). -/
def Config.inDomain (c : Config) : Bool :=
  decide (0 < c.terminalWidth) && decide (0 < c.terminalHeight) && decide (0 < c.displayWidth) &&
    decide (0 < c.displayHeight) && (c.framebufferExtraWords == 0 || c.framebufferExtraWords == 2) &&
    decide (c.stackSize % 4 = 0) && c.costs.toList.all fun n => decide (0 < n)

/-- The configurations a model takes (R10, R11). -/
def Config.admitted (c : Config) : Bool := c.layoutFits && c.inDomain

/-- The configuration of the reset state: the defaults of R10, the terminal and display sizes of the example
configuration of 95_test_vectors.md (log entry 2, DESIGN CHOICE), the codes of R130 (log entry 14). -/
def Config.std : Config where
  codec := Codec.std
  costs := Vector.replicate 69 1
  terminalWidth := 60
  terminalHeight := 34
  displayWidth := 256
  displayHeight := 128
  framebufferExtraWords := 0
  stackSize := 524288
  debugPolicy := .strict
  exitOnHalt := false
  firstFbVisibleAtReset := true
  hostRegenerates := .bootOnly

end Sys2Proof
end

