-- ==== Sys2Proof/Machine/Sparse.lean ====
section
/-! DEFINITION. Sparse tables: a list of (index, value) pairs with one value for every index that is not listed. The
memory and the instruction cache are such tables. -/

namespace Sys2Proof.Machine

variable {α : Type} [DecidableEq α]

omit [DecidableEq α] in
/-- The value at an index; `d` is the value of an index that is not listed. -/
def sparseGet (d : α) : List (Nat × α) → Nat → α
  | [], _ => d
  | (k, v) :: l, i => if i = k then v else sparseGet d l i

omit [DecidableEq α] in
/-- The table with no entry for an index. -/
def sparseErase (l : List (Nat × α)) (i : Nat) : List (Nat × α) := l.filter fun c => decide (c.1 ≠ i)

omit [DecidableEq α] in
/-- The table with an entry put before the first larger index. -/
def sparseInsert (i : Nat) (v : α) : List (Nat × α) → List (Nat × α)
  | [] => [(i, v)]
  | (k, w) :: l => if i < k then (i, v) :: (k, w) :: l else (k, w) :: sparseInsert i v l

/-- The table with a new value at an index; writing `d` removes the entry. -/
def sparsePut (d : α) (l : List (Nat × α)) (i : Nat) (v : α) : List (Nat × α) :=
  if v = d then sparseErase l i else sparseInsert i v (sparseErase l i)

/-- The canonical form: indices strictly rising, all below `bound`, no listed value equal to `d`. -/
def sparseWf (d : α) (bound : Nat) (l : List (Nat × α)) : Bool :=
  decide (l.Pairwise fun a b => a.1 < b.1) && l.all fun c => decide (c.1 < bound) && decide (c.2 ≠ d)

end Sys2Proof.Machine
end

