-- ==== Sys2Proof/Machine/Memory.lean ====
section
/-! DEFINITION. Memory as data: the bytes of the flat address space (R70), read and written without any check. The
checked accesses are in Machine/Ops.lean. -/

namespace Sys2Proof.Machine

/-- The memory: its listed bytes in canonical form (`Memory.wf`). -/
abbrev Memory := List Host.Cell

/-- What a byte that is not listed reads as. INIT_MEMORY is any value (R52); this is the model's choice for a byte that
nothing has listed (log entry 4, DESIGN CHOICE). -/
def Memory.blank : Byte := 0

/-- The byte at an address. -/
def Memory.byte (m : Memory) (a : Nat) : Byte := sparseGet Memory.blank m a

/-- The memory with one byte written. -/
def Memory.setByte (m : Memory) (a : Nat) (b : Byte) : Memory := sparsePut Memory.blank m a b

/-- The `n` bytes from an address up. -/
def Memory.bytes (m : Memory) (a n : Nat) : List Byte := (List.range n).map fun k => m.byte (a + k)

/-- The memory with consecutive bytes written from an address up. -/
def Memory.setBytes (m : Memory) (a : Nat) : List Byte → Memory
  | [] => m
  | b :: bs => Memory.setBytes (m.setByte a b) (a + 1) bs

/-- The canonical form: addresses strictly rising and below MEMORY_SIZE, no listed byte equal to the blank one. -/
def Memory.wf (m : Memory) : Bool := sparseWf Memory.blank memorySize m

/-- The 64-bit word at an address, big-endian (R92, R112). -/
def Memory.dword (m : Memory) (a : Nat) : DWord := BitVec.ofNat 64 (beValue (m.bytes a 8))

end Sys2Proof.Machine
end

