-- ==== Sys2Proof/Machine/CacheEntry.lean ====
section
/-! DEFINITION. The entries of the instruction cache (R48) and the total decode that fills them (R121). -/

namespace Sys2Proof.Machine

/-- One entry of the instruction cache (R48). -/
inductive CacheEntry where
  | empty
  | decoded (i : Instr)
  | undecodable (e : DecodeError)
  deriving DecidableEq, Repr

/-- DecodeEntry, the total form of decode (R121). -/
def decodeEntry (c : Codec) (w : DWord) : CacheEntry :=
  match decode c w with
  | .ok i => .decoded i
  | .error e => .undecodable e

/-- The instruction cache: slot index (address div 8) to entry, as a sparse table with `base` for every index that is
not listed (log entry 10). -/
structure ICache where
  base : CacheEntry
  entries : List (Nat × CacheEntry)
  deriving DecidableEq, Repr

/-- The entry of a slot. -/
def ICache.get (c : ICache) (slot : Nat) : CacheEntry := sparseGet c.base c.entries slot

/-- The cache with one entry replaced. -/
def ICache.put (c : ICache) (slot : Nat) (e : CacheEntry) : ICache :=
  { c with entries := sparsePut c.base c.entries slot e }

/-- The cache in which no entry has been generated (R52). -/
def ICache.none : ICache := ⟨.empty, []⟩

/-- The canonical form of the cache's table: rising slots, each inside memory, none equal to the base entry. -/
def ICache.wf (c : ICache) : Bool := sparseWf c.base (memorySize / 8) c.entries

end Sys2Proof.Machine
end

