-- ==== Sys2Proof/Machine/State.lean ====
section
/-! DEFINITION. The state of the machine: everything the spec gives it (10_state.md), as plain data, and its value
right after reset. -/

namespace Sys2Proof.Machine

/-- Which condition of R114 an opcode table breaks: (a) a code used twice, (b) more bits than an instruction has. -/
inductive TableCondition where
  | duplicateCode
  | tooManyBits
  deriving DecidableEq, Repr

/-- The fatal faults of R301 with their recorded info, in the order of their codes 1 to 17. A running machine takes a
fault as a next state that holds the fault record (R302, R350), so `Outcome.fault` is answered by no step: that is
safe, since the record is the spec's own account of the stop (log entry 7). -/
inductive Fault where
  /-- Raised by the fetch of a word whose opcode no definition has (R133). Safe: the spec names it. -/
  | unknownOpcode (code : Code)
  /-- Raised by the fetch of a word with a reserved register field, under the Fault policy (R118). Safe. -/
  | reservedRegisterOperand (role : Role) (value : Reg)
  /-- Raised by the fetch of a word with nonzero padding, under the Fault policy (R119). Safe. -/
  | paddingNotZero (word : DWord)
  /-- Raised by a memory, fetch or stack access at a misaligned address (R74). Safe. -/
  | unalignedAccess (address : Word) (width : Nat)
  /-- Raised by an access past MEMORY_SIZE, or by a stack access outside the stack region (R75, R220). Safe. -/
  | outOfBounds (address : Word) (width : Nat)
  /-- Raised by a fetch below ENTRY_POINT (R90). Safe. -/
  | fetchOutsideCache (ip : Word)
  /-- Raised by a failed assertion under DEBUG_POLICY = Strict (R275 to R277). Safe. -/
  | assertionFailed (expected actual : Word)
  /-- Raised by a failed Checkpoint under DEBUG_POLICY = Strict (R279). Safe. -/
  | checkpointMismatch (expected counter : Word)
  /-- Raised by a register access with an index above 255 (R31); no instruction can name one (R32). Safe. -/
  | registerOutOfRange (index : Nat)
  /-- Raised by a numeric primitive over a short slice (R77); no access of the core hands it one. Safe. -/
  | alignmentOrSize (width length : Nat)
  /-- Raised by the boot on an opcode table that breaks R114. Safe. -/
  | malformedOpcodeTable (op : Opcode) (condition : TableCondition)
  /-- Raised by a cache generation over an illegal region (R345). Safe. -/
  | invalidCacheRegion (start size : Nat)
  /-- Raised by the ROM load, message "File size too big" (R343). Safe. -/
  | fileTooBig (size : Nat)
  /-- Raised by the ROM load, message "Filesize must be divisible by 4" (R343). Safe. -/
  | fileSizeNotDivisible (size : Nat)
  /-- Raised by the encoder only (R125, R306). Safe. -/
  | operandArityMismatch (op : Opcode)
  /-- Raised by the encoder only (R125, R306). Safe. -/
  | missingOperand (op : Opcode)
  /-- Raised by the encoder only (R125, R306). Safe. -/
  | unexpectedOperand (op : Opcode)
  deriving DecidableEq, Repr

/-- Why the model declines, as opposed to the machine faulting. No step and no instruction answers with one. -/
inductive Refusal where
  /-- An instruction without a meaning: no arm of `exec` answers with it. Safe. -/
  | notModelled (mnemonic : String)
  /-- Raised by `boot` for a configuration outside R10 or R11: a model takes only well-formed ones. Safe. -/
  | configurationNotAdmitted
  deriving DecidableEq, Repr

/-- The fault record `Fault(kind, info, ip)` (R47). -/
structure FaultRecord where
  kind : Fault
  ip : Word
  deriving DecidableEq, Repr

/-- What the core sends over the debug side channel (R8, R272). -/
inductive DebugEvent where
  | dumpRegisters (regs : Vector Word 256)
  | dumpMemory (mem : Memory)
  | assertionFailed (expected actual : Word)
  | checkpointMismatch (expected counter : Word)
  | breakpoint (ip : Word)
  deriving DecidableEq, Repr

/-- The state of the machine. `cfg` holds the parameters, which no step changes (log entry 1); `draws` and `debugOut`
are the model's own (log entries 5 and 9). FLAGS, IP and SP are registers 253, 254 and 255 of `regs` (R34). -/
structure State where
  cfg : Config
  regs : Vector Word 256
  mem : Memory
  icache : ICache
  cycles : DWord
  checkpoint : Word
  halted : Bool
  fault : Option FaultRecord
  fbFirstVisible : Bool
  draws : Nat
  debugOut : List DebugEvent
  deriving DecidableEq, Repr

/-- The register file of reset: `init` (INIT_REGS) but IP at the entry point and SP at the start of the stack (R52). -/
def resetRegs (c : Config) (init : Vector Word 256) : Vector Word 256 :=
  (init.set 254 (BitVec.ofNat 32 c.entryPoint)).set 255 (BitVec.ofNat 32 c.stackStart)

/-- The machine as created, before the boot generates the cache: every piece of state at its value of R52, with
INIT_REGS and the memory given. -/
def State.created (c : Config) (initRegs : Vector Word 256) (mem : Memory) : State where
  cfg := c
  regs := resetRegs c initRegs
  mem := mem
  icache := ICache.none
  cycles := 0
  checkpoint := 0
  halted := false
  fault := none
  fbFirstVisible := c.firstFbVisibleAtReset
  draws := 0
  debugOut := []

/-- INIT_REGS of the reset state: zero (log entry 3, DESIGN CHOICE). -/
def resetInitRegs : Vector Word 256 := Vector.replicate 256 0

/-- The machine right after reset: booted with an empty ROM and blank memory under the configuration `Config.std`. The
boot has generated the whole cache, so every slot holds the decode of the blank word (R344; log entries 10, 11). -/
def State.reset : State :=
  { State.created Config.std resetInitRegs [] with icache := ⟨decodeEntry Config.std.codec (Memory.dword [] 0), []⟩ }

end Sys2Proof.Machine
end

