-- ==== Sys2Proof/Machine/Ops.lean ====
section
/-! DEFINITION. The named operations over registers and memory, the stack primitives, the end of an instruction, and
fault entry. There is no return from a fault (R304), so no operation for one stands beside it. -/

namespace Sys2Proof.Machine

/-- What a meaning, or a step, answers. -/
abbrev Result := Host.Outcome State Fault Refusal

/-! ### Registers (R31, R34, R39) -/

/-- The register with index 253 (R34). -/
def flagsReg : Reg := 253

/-- The register with index 254 (R34). -/
def ipReg : Reg := 254

/-- The register with index 255 (R34). -/
def spReg : Reg := 255

/-- `x[i]` for the index a register field holds (R31, R117). -/
def State.reg (s : State) (r : Reg) : Word := s.regs[r.toNat]'r.isLt

/-- `x[i] <- v` (R31). -/
def State.setReg (s : State) (r : Reg) (v : Word) : State := { s with regs := s.regs.set r.toNat v r.isLt }

/-- `read(index)`, failing above 255 (R31). -/
def State.readIndex (s : State) (i : Nat) : Except Fault Word :=
  if i < 256 then .ok (s.reg (BitVec.ofNat 8 i)) else .error (.registerOutOfRange i)

/-- `write(index, value)`, failing above 255 and storing the value modulo 2^32 (R31). -/
def State.writeIndex (s : State) (i v : Nat) : Except Fault State :=
  if i < 256 then .ok (s.setReg (BitVec.ofNat 8 i) (BitVec.ofNat 32 v)) else .error (.registerOutOfRange i)

/-- `ip` (R37, R39). -/
def State.ip (s : State) : Word := s.reg ipReg

/-- `ip <- v` (R37, R39). -/
def State.setIp (s : State) (v : Word) : State := s.setReg ipReg v

/-- `sp` (R38, R39). -/
def State.sp (s : State) : Word := s.reg spReg

/-- `sp <- v` (R38, R39). -/
def State.setSp (s : State) (v : Word) : State := s.setReg spReg v

/-- `flags` (R36, R39). -/
def State.flags (s : State) : Word := s.reg flagsReg

/-- The FLAGS register replaced as a whole; only the flag accessors of Flags.lean call it (R40). -/
def State.setFlags (s : State) (v : Word) : State := s.setReg flagsReg v

/-- The address of the next instruction, `(ip + 8) mod 2^32` (R352). -/
def State.nextIp (s : State) : Word := s.ip + BitVec.ofNat 32 instructionWidth

/-! ### Memory accesses (R74 to R79) -/

/-- The widths of a memory access (R74). -/
inductive Width where
  | byte
  | half
  | word
  | instruction
  deriving DecidableEq, Repr

/-- A width in bytes (R74). -/
def Width.bytes : Width → Nat
  | .byte => 1
  | .half => 2
  | .word => 4
  | .instruction => 8

/-- The fault of an access of `n` bytes, alignment before bounds (R74, R75, R76). -/
def accessFault (a : Word) (n : Nat) : Option Fault :=
  if a.toNat % n ≠ 0 then some (.unalignedAccess a n)
  else if memorySize < a.toNat + n then some (.outOfBounds a n)
  else none

/-- `MemRead(addr, n)` (R78). -/
def State.memRead (s : State) (a : Word) (w : Width) : Except Fault Nat :=
  match accessFault a w.bytes with
  | some k => .error k
  | none => .ok (beValue (s.mem.bytes a.toNat w.bytes))

/-- `MemWrite(addr, n, v)` (R79). The instruction cache is untouched (R97). -/
def State.memWrite (s : State) (a : Word) (w : Width) (v : Nat) : Except Fault State :=
  match accessFault a w.bytes with
  | some k => .error k
  | none => .ok { s with mem := s.mem.setBytes a.toNat (beBytes w.bytes v) }

/-! ### Stack primitives (R220, R221) -/

/-- The fault of a stack access, alignment before the stack region (R220, R221). -/
def Config.stackFault (c : Config) (a : Word) : Option Fault :=
  if a.toNat % 4 ≠ 0 then some (.unalignedAccess a 4)
  else if a.toNat < c.stackStart ∨ c.stackEnd < a.toNat + 4 then some (.outOfBounds a 4)
  else none

/-- `Push32(v)` (R220). -/
def State.push32 (s : State) (v : Word) : Except Fault State :=
  match Config.stackFault s.cfg s.sp with
  | some k => .error k
  | none =>
    match s.memWrite s.sp .word v.toNat with
    | .error k => .error k
    | .ok t => .ok (t.setSp (s.sp + 4))

/-- The address a pop reads, `(sp - 4) mod 2^32` (R221). -/
def State.popAddress (s : State) : Word := s.sp - 4

/-- `Pop32()`: the popped word and the state with the stack pointer retreated (R221). -/
def State.pop32 (s : State) : Except Fault (Word × State) :=
  match Config.stackFault s.cfg s.popAddress with
  | some k => .error k
  | none =>
    match s.memRead s.popAddress .word with
    | .error k => .error k
    | .ok v => .ok (BitVec.ofNat 32 v, s.setSp s.popAddress)

/-! ### The debug side channel (R272) -/

/-- An event sent over the debug side channel; no architectural state changes. -/
def State.emit (s : State) (e : DebugEvent) : State := { s with debugOut := e :: s.debugOut }

/-! ### Fault entry (R300, R302) -/

/-- Taking a fault: the state as it is, with the fault record that names the kind and the address of the faulting
instruction, which `ip` still holds. Nothing else is written and control goes nowhere (R302, R303). -/
def State.raise (s : State) (k : Fault) : State := { s with fault := some ⟨k, s.ip⟩ }

/-! ### The end of an instruction (R350 to R354) -/

/-- The cost of an opcode added to the cycle counter, modulo 2^64 (R353). -/
def State.addCost (s : State) (op : Opcode) : State :=
  { s with cycles := s.cycles + BitVec.ofNat 64 (s.cfg.cost op) }

/-- The ip advance of an opcode with increment = true, applied to `ip` after the instruction's writes (R352). -/
def State.advance (s : State) (op : Opcode) : State := if op.increment then s.setIp s.nextIp else s

/-- The ExecutionResult of an instruction's effects, with the state they leave (R354). -/
inductive ExecResult where
  | normal (s : State)
  | halted (s : State)
  | error (k : Fault)

/-- An effect that either leaves a state or raises. -/
def ExecResult.ofExcept : Except Fault State → ExecResult
  | .ok t => .normal t
  | .error k => .error k

/-- What the step does with the result of an instruction begun in state `s` (R350): after Normal the ip advance and the
cost; after Halted the halted flag and the cost; after Error the fault entry, from the state before the instruction. -/
def finish (op : Opcode) (s : State) : ExecResult → Result
  | .normal t => .next ((t.advance op).addCost op)
  | .halted t => .next ({ t with halted := true }.addCost op)
  | .error k => .next (s.raise k)

end Sys2Proof.Machine
end

