-- ==== Sys2Proof/Machine/Cache.lean ====
section
/-! DEFINITION. The generation of the instruction cache (R345), the one maintenance operation (R95). -/

namespace Sys2Proof.Machine

/-- The entry that memory gives a slot (R121, R345). -/
def slotEntry (c : Codec) (m : Memory) (slot : Nat) : CacheEntry := decodeEntry c (m.dword (8 * slot))

/-- The cache with `n` slots from slot `lo` up regenerated from memory (R345). -/
def ICache.generateSlots (c : Codec) (m : Memory) (lo n : Nat) (ic : ICache) : ICache :=
  (List.range n).foldl (fun ic k => ic.put (lo + k) (slotEntry c m (lo + k))) ic

/-- The cache with every slot from `lo` to the end of memory generated, as a sparse table: the decode of the blank word
for every slot with no listed byte, and an entry of its own for each slot with one (log entry 10). -/
def ICache.generateAll (c : Codec) (m : Memory) (lo : Nat) : ICache :=
  m.foldl (fun ic cell =>
    if lo ≤ cell.1 / 8 ∧ cell.1 < memorySize then ic.put (cell.1 / 8) (slotEntry c m (cell.1 / 8)) else ic)
    ⟨decodeEntry c (Memory.dword [] 0), []⟩

/-- Whether `generate_instruction_cache` rejects a region (R345). -/
def regionRejected (c : Config) (start size : Nat) : Bool :=
  decide (start < c.entryPoint) || decide (start % 8 ≠ 0) || decide (size % 8 ≠ 0) ||
    decide (memorySize < start + size)

/-- `generate_instruction_cache(start?, size?)` with its defaults (R345). -/
def generateCache (c : Config) (m : Memory) (ic : ICache) (call : RegenerateCall) : Except Fault ICache :=
  let start := call.start.getD c.entryPoint
  let size := call.size.getD (memorySize - start)
  if regionRejected c start size then .error (.invalidCacheRegion start size)
  else if start = c.entryPoint ∧ start + size = memorySize then .ok (ICache.generateAll c.codec m (start / 8))
  else .ok (ic.generateSlots c.codec m (start / 8) (size / 8))

/-- One regeneration by the host; a rejected region stops the run with the current `ip` (R305, R345). -/
def State.regenerate (s : State) (call : RegenerateCall) : State :=
  match generateCache s.cfg s.mem s.icache call with
  | .ok ic => { s with icache := ic }
  | .error k => s.raise k

/-- The host's regenerations in order, up to the first one that stops the run. -/
def State.regenerateEach (s : State) : List RegenerateCall → State
  | [] => s
  | call :: calls =>
    let t := s.regenerate call
    if t.fault.isSome then t else t.regenerateEach calls

/-- What the host does between two steps (R316, R345): nothing under BootOnly, a drawn list of regenerations under
BetweenSteps (log entry 6). -/
def State.betweenSteps (s : State) : State :=
  match s.cfg.hostRegenerates with
  | .bootOnly => s
  | .betweenSteps => { s with draws := s.draws + 1 }.regenerateEach (Config.hostRegenerations s.draws)

end Sys2Proof.Machine
end

