-- ==== Sys2Proof/Machine/Boot.lean ====
section
/-! DEFINITION. The boot sequence (R341): table validation, ROM load, reset values, cache generation. -/

namespace Sys2Proof.Machine

/-- The fault of one definition of an opcode table: a code that an earlier definition has, or too many bits (R114). -/
def definitionFault (c : Codec) (op : Opcode) : Option Fault :=
  if c.byCode (c.code op) ≠ some op then some (.malformedOpcodeTable op .duplicateCode)
  else if 8 * instructionWidth < op.bitBudget then some (.malformedOpcodeTable op .tooManyBits)
  else none

/-- The validation of the opcode table; the first offending definition is reported (R114; log entry 15). -/
def tableFault (c : Codec) : Option Fault := Opcode.all.findSome? (definitionFault c)

/-- `LoadRom` (R343): the size check first, then the divisibility check. -/
def loadRom (c : Config) (m : Memory) (rom : List Byte) : Except Fault Memory :=
  if memorySize < c.entryPoint + rom.length then .error (.fileTooBig rom.length)
  else if rom.length % 4 ≠ 0 then .error (.fileSizeNotDivisible rom.length)
  else .ok (m.setBytes c.entryPoint rom)

/-- The boot (R341). An inadmissible configuration is refused (R11). A startup fault leaves a machine that never runs,
with the fault recorded at the entry point (R305). -/
def boot (c : Config) (initRegs : Vector Word 256) (initMem : Memory) (rom : List Byte) : Result :=
  if !c.admitted then .refused .configurationNotAdmitted
  else match tableFault c.codec with
    | some k => .next ((State.created c initRegs initMem).raise k)
    | none =>
      match loadRom c initMem rom with
      | .error k => .next ((State.created c initRegs initMem).raise k)
      | .ok m => .next ((State.created c initRegs m).regenerate ⟨none, none⟩)

end Sys2Proof.Machine
end

