-- ==== Sys2Proof/Machine/Flags.lean ====
section
/-! DEFINITION. The flags: their accessors (R40) and every value and flag computation of R41. -/

namespace Sys2Proof.Machine

/-- The three flags (R36). -/
inductive Flag where
  | zero
  | carry
  | divideByZero
  deriving DecidableEq, Repr

/-- The bit position of a flag in FLAGS (R36, R40). -/
def Flag.bitpos : Flag → Nat
  | .zero => 0
  | .carry => 1
  | .divideByZero => 2

/-- A FLAGS word with one flag bit replaced and every other bit kept (R40). -/
def Flag.put (f : Flag) (b : Bool) (w : Word) : Word :=
  (w &&& ~~~(1#32 <<< f.bitpos)) ||| (if b then 1#32 <<< f.bitpos else 0#32)

/-- `get_flag(F)` (R40). -/
def State.getFlag (s : State) (f : Flag) : Bool := decide ((s.flags >>> f.bitpos) &&& 1#32 = 1#32)

/-- `set_flag(F, b)` (R40). -/
def State.setFlag (s : State) (f : Flag) (b : Bool) : State := s.setFlags (f.put b s.flags)

/-- A result with the Zero and Carry flags it sets. -/
structure ZC where
  value : Word
  zero : Bool
  carry : Bool
  deriving DecidableEq, Repr

/-- The unit a carry or borrow adds (R172, R174). -/
def unitOf (b : Bool) : Nat := if b then 1 else 0

/-- Add with a carry in: the exact sum, reduced; Zero and Carry from the exact sum (R171, R172, R175). -/
def addZC (a b : Word) (cin : Bool) : ZC :=
  let s := a.toNat + b.toNat + unitOf cin
  ⟨BitVec.ofNat 32 s, decide (s % 2 ^ 32 = 0), decide (2 ^ 32 ≤ s)⟩

/-- Subtract with a borrow in: the exact difference, reduced; Carry is the borrow (R173, R174, R176). -/
def subZC (a b : Word) (cin : Bool) : ZC :=
  let d : Int := (a.toNat : Int) - b.toNat - unitOf cin
  ⟨BitVec.ofInt 32 d, decide (d % 2 ^ 32 = 0), decide (d < 0)⟩

/-- The exact product (R177). -/
def product (a b : Word) : Nat := a.toNat * b.toNat

/-- `lo32` (R14). -/
def lo32 (v : Nat) : Word := BitVec.ofNat 32 (v % 2 ^ 32)

/-- `hi32` (R14). -/
def hi32 (v : Nat) : Word := BitVec.ofNat 32 (v / 2 ^ 32 % 2 ^ 32)

/-- Quotient and remainder of a division, `(0, a)` for a zero divisor (R178). -/
def divmod (a b : Word) : Word × Word :=
  if b = 0 then (0, a) else (BitVec.ofNat 32 (a.toNat / b.toNat), BitVec.ofNat 32 (a.toNat % b.toNat))

/-- The number of leading zero bits, 32 for zero (R195). -/
def clz (a : Word) : Nat := ((List.range 32).find? fun k => a.getLsbD (31 - k)).getD 32

/-- The number of trailing zero bits, 32 for zero (R195). -/
def ctz (a : Word) : Nat := ((List.range 32).find? fun k => a.getLsbD k).getD 32

/-- Logical shift left by the whole u32 amount, with the document's branch above 32 (R195, R196). -/
def shiftLeftZC (a n : Word) : ZC :=
  if 32 < n.toNat then ⟨0, true, decide (a ≠ 0)⟩
  else
    let v := BitVec.ofNat 32 (a.toNat * 2 ^ n.toNat)
    ⟨v, decide (v = 0), decide (clz a < n.toNat)⟩

/-- Logical shift right by the whole u32 amount, with the document's branch above 32 (R195, R197). -/
def shiftRightZC (a n : Word) : ZC :=
  if 32 < n.toNat then ⟨0, true, decide (a ≠ 0)⟩
  else
    let v := BitVec.ofNat 32 (a.toNat / 2 ^ n.toNat)
    ⟨v, decide (v = 0), decide (ctz a < n.toNat)⟩

/-- The tri-state compare (R198). -/
def triState (a b : Word) : Word :=
  if a.toNat < b.toNat then 0xFFFFFFFF else if a = b then 0 else 1

/-- A relation as the plain 0 or 1 the boolean compares store (R199). -/
def boolWord (b : Bool) : Word := if b then 1 else 0

end Sys2Proof.Machine
end

