-- ==== Sys2Proof/Machine/Operands.lean ====
section
/-! DEFINITION. Operands (R35) and the shared shapes of instructions over them: every meaning is one line over these. -/

namespace Sys2Proof.Machine

/-- `opnd(i)`: under Fault decoding admits only 0..252, under Direct any index; both read `x[i]` (R35). -/
abbrev State.opnd (s : State) (r : Reg) : Word := s.reg r

/-- `opnd(i) <- v` (R35). -/
def State.setOpnd (s : State) (r : Reg) (v : Word) : State := s.setReg r v

/-- A value written to a register, no flag touched (R150, R199). -/
def writeValue (op : Opcode) (target : Reg) (v : Word) (s : State) : Result :=
  finish op s (.normal (s.setOpnd target v))

/-- Two values written in declared order, so the second wins when both roles name one register (R170, R262, R265). -/
def State.setPair (s : State) (first second : Reg) (v w : Word) : State := (s.setOpnd first v).setOpnd second w

/-- A value written, then Zero set from it (R190). -/
def writeZ (op : Opcode) (target : Reg) (v : Word) (zero : Bool) (s : State) : Result :=
  finish op s (.normal ((s.setOpnd target v).setFlag .zero zero))

/-- A value written, then Zero and Carry set with it (R170, R195). -/
def writeZC (op : Opcode) (target : Reg) (r : ZC) (s : State) : Result :=
  finish op s (.normal (((s.setOpnd target r.value).setFlag .zero r.zero).setFlag .carry r.carry))

/-- A load of a width from an address, zero-extended (R150). -/
def load (op : Opcode) (w : Width) (target : Reg) (a : Word) (s : State) : Result :=
  match s.memRead a w with
  | .error k => finish op s (.error k)
  | .ok v => finish op s (.normal (s.setOpnd target (BitVec.ofNat 32 v)))

/-- A store of the low bytes of a value to an address (R150). -/
def store (op : Opcode) (w : Width) (a : Word) (v : Word) (s : State) : Result :=
  finish op s (.ofExcept (s.memWrite a w v.toNat))

/-- A push of a word, then whatever the instruction does to the pushed state (R220). -/
def pushThen (op : Opcode) (v : Word) (after : State → State) (s : State) : Result :=
  match s.push32 v with
  | .error k => finish op s (.error k)
  | .ok t => finish op s (.normal (after t))

/-- A pop of a word, then whatever the instruction does with the popped word (R221). -/
def popThen (op : Opcode) (after : Word → State → State) (s : State) : Result :=
  match s.pop32 with
  | .error k => finish op s (.error k)
  | .ok (v, t) => finish op s (.normal (after v t))

/-- A jump to a target when a condition holds, else to the next instruction (R240). -/
def jumpIf (op : Opcode) (taken : Bool) (target : Word) (s : State) : Result :=
  if taken then finish op s (.normal (s.setIp target)) else finish op s (.normal (s.setIp s.nextIp))

/-- The outcome of an assertion on two values under DEBUG_POLICY (R272, R275). -/
def assertEqual (op : Opcode) (expected actual : Word) (s : State) : Result :=
  if expected = actual then finish op s (.normal s)
  else match s.cfg.debugPolicy with
    | .strict => finish op s (.error (.assertionFailed expected actual))
    | .lenient => finish op s (.normal (s.emit (.assertionFailed expected actual)))

end Sys2Proof.Machine
end

