-- ==== Sys2Proof/Machine/Arith.lean ====
section
/-! DEFINITION. Arithmetic family (R170 to R178): sources first, then destinations in declared order, then flags. -/

namespace Sys2Proof.Machine

/-- AddTargetLhsRhs: 32-bit add (R171). -/
def execAddTargetLhsRhs (target lhs rhs : Reg) (s : State) : Result :=
  writeZC .addTargetLhsRhs target (addZC (s.opnd lhs) (s.opnd rhs) false) s

/-- AddWithCarryTargetLhsRhs: add with carry in (R172). -/
def execAddWithCarryTargetLhsRhs (target lhs rhs : Reg) (s : State) : Result :=
  writeZC .addWithCarryTargetLhsRhs target (addZC (s.opnd lhs) (s.opnd rhs) (s.getFlag .carry)) s

/-- SubtractTargetLhsRhs: 32-bit subtract (R173). -/
def execSubtractTargetLhsRhs (target lhs rhs : Reg) (s : State) : Result :=
  writeZC .subtractTargetLhsRhs target (subZC (s.opnd lhs) (s.opnd rhs) false) s

/-- SubtractWithCarryTargetLhsRhs: subtract with borrow in (R174). -/
def execSubtractWithCarryTargetLhsRhs (target lhs rhs : Reg) (s : State) : Result :=
  writeZC .subtractWithCarryTargetLhsRhs target (subZC (s.opnd lhs) (s.opnd rhs) (s.getFlag .carry)) s

/-- AddTargetSourceImmediate: add an immediate, not sign-extended (R175). -/
def execAddTargetSourceImmediate (target source : Reg) (immediate : Word) (s : State) : Result :=
  writeZC .addTargetSourceImmediate target (addZC (s.opnd source) immediate false) s

/-- SubtractTargetSourceImmediate: subtract an immediate (R176). -/
def execSubtractTargetSourceImmediate (target source : Reg) (immediate : Word) (s : State) : Result :=
  writeZC .subtractTargetSourceImmediate target (subZC (s.opnd source) immediate false) s

/-- MultiplyHighLowLhsRhs: 32 by 32 to 64 bits; Zero reflects the low word only (R177). -/
def execMultiplyHighLowLhsRhs (high low lhs rhs : Reg) (s : State) : Result :=
  let p := product (s.opnd lhs) (s.opnd rhs)
  finish .multiplyHighLowLhsRhs s (.normal
    (((s.setPair high low (hi32 p) (lo32 p)).setFlag .zero (decide (lo32 p = 0))).setFlag .carry
      (decide (hi32 p ≠ 0))))

/-- DivmodTargetModLhsRhs: unsigned divide with remainder; a zero divisor is a flag, not a fault (R178). -/
def execDivmodTargetModLhsRhs (result remainder lhs rhs : Reg) (s : State) : Result :=
  let qr := divmod (s.opnd lhs) (s.opnd rhs)
  finish .divmodTargetModLhsRhs s (.normal
    (((s.setPair result remainder qr.1 qr.2).setFlag .zero (decide (qr.1 = 0))).setFlag .divideByZero
      (decide (s.opnd rhs = 0))))

end Sys2Proof.Machine
end

