-- ==== Sys2Proof/Machine/InputOutput.lean ====
section
/-! DEFINITION. I/O family (R260 to R265): no flag, no fault. -/

namespace Sys2Proof.Machine

/-- `Display.invisible_framebuffer_address()` (R50, R264). -/
def State.invisibleFramebuffer (s : State) : Word :=
  BitVec.ofNat 32 (if s.fbFirstVisible then s.cfg.framebuffer1Start else s.cfg.framebuffer0Start)

/-- GetKeyState: 1 when the host answers Down; the answer is a free value (R261). -/
def execGetKeyState (target keycode : Reg) (s : State) : Result :=
  let down := Config.keyDown s.draws (s.opnd keycode)
  finish .getKeyState s (.normal ({ s with draws := s.draws + 1 }.setOpnd target (boolWord down)))

/-- PollTime: the high and low words of the wall clock, a free value (R262). -/
def execPollTime (high low : Reg) (s : State) : Result :=
  let t := (Config.timeMs s.draws).toNat
  finish .pollTime s (.normal ({ s with draws := s.draws + 1 }.setPair high low (hi32 t) (lo32 t)))

/-- SwapFramebuffers: exchanges the visible and the invisible framebuffer (R263). -/
def execSwapFramebuffers (s : State) : Result :=
  finish .swapFramebuffers s (.normal { s with fbFirstVisible := !s.fbFirstVisible })

/-- InvisibleFramebufferAddress: the address of the framebuffer not shown (R264). -/
def execInvisibleFramebufferAddress (target : Reg) (s : State) : Result :=
  writeValue .invisibleFramebufferAddress target s.invisibleFramebuffer s

/-- PollCycleCountHighLow: the cycle counter before this instruction adds its own cost (R265). -/
def execPollCycleCountHighLow (high low : Reg) (s : State) : Result :=
  let n := s.cycles.toNat
  finish .pollCycleCountHighLow s (.normal (s.setPair high low (hi32 n) (lo32 n)))

end Sys2Proof.Machine
end

