-- ==== Sys2Proof/Machine/Jump.lean ====
section
/-! DEFINITION. Jump family (R240 to R255): absolute targets, unchecked here; the next fetch checks them. -/

namespace Sys2Proof.Machine

/-- JumpImmediate: jumps to the address (R241). -/
def execJumpImmediate (address : Word) (s : State) : Result :=
  jumpIf .jumpImmediate true address s

/-- JumpRegister: jumps to the address in a register (R242). -/
def execJumpRegister (register : Reg) (s : State) : Result :=
  jumpIf .jumpRegister true (s.opnd register) s

/-- JumpImmediateIfEqual: taken when the comparison register is 0 (R244). -/
def execJumpImmediateIfEqual (comparison : Reg) (address : Word) (s : State) : Result :=
  jumpIf .jumpImmediateIfEqual (decide (s.opnd comparison = 0)) address s

/-- JumpImmediateIfGreaterThan: taken when it is 1 (R245). -/
def execJumpImmediateIfGreaterThan (comparison : Reg) (address : Word) (s : State) : Result :=
  jumpIf .jumpImmediateIfGreaterThan (decide (s.opnd comparison = 1)) address s

/-- JumpImmediateIfLessThan: taken when it is all ones (R246). -/
def execJumpImmediateIfLessThan (comparison : Reg) (address : Word) (s : State) : Result :=
  jumpIf .jumpImmediateIfLessThan (decide (s.opnd comparison = 0xFFFFFFFF)) address s

/-- JumpImmediateIfGreaterThanOrEqual: taken when it is 1 or 0 (R247). -/
def execJumpImmediateIfGreaterThanOrEqual (comparison : Reg) (address : Word) (s : State) : Result :=
  jumpIf .jumpImmediateIfGreaterThanOrEqual (decide (s.opnd comparison = 1 ∨ s.opnd comparison = 0)) address s

/-- JumpImmediateIfLessThanOrEqual: taken when it is all ones or 0 (R248). -/
def execJumpImmediateIfLessThanOrEqual (comparison : Reg) (address : Word) (s : State) : Result :=
  jumpIf .jumpImmediateIfLessThanOrEqual (decide (s.opnd comparison = 0xFFFFFFFF ∨ s.opnd comparison = 0)) address s

/-- JumpImmediateIfZero: taken when Zero is set (R250). -/
def execJumpImmediateIfZero (address : Word) (s : State) : Result :=
  jumpIf .jumpImmediateIfZero (s.getFlag .zero) address s

/-- JumpImmediateIfNotZero: taken when Zero is clear (R251). -/
def execJumpImmediateIfNotZero (address : Word) (s : State) : Result :=
  jumpIf .jumpImmediateIfNotZero (!s.getFlag .zero) address s

/-- JumpImmediateIfCarry: taken when Carry is set (R252). -/
def execJumpImmediateIfCarry (address : Word) (s : State) : Result :=
  jumpIf .jumpImmediateIfCarry (s.getFlag .carry) address s

/-- JumpImmediateIfNotCarry: taken when Carry is clear (R253). -/
def execJumpImmediateIfNotCarry (address : Word) (s : State) : Result :=
  jumpIf .jumpImmediateIfNotCarry (!s.getFlag .carry) address s

/-- JumpImmediateIfDivideByZero: taken when DivideByZero is set (R254). -/
def execJumpImmediateIfDivideByZero (address : Word) (s : State) : Result :=
  jumpIf .jumpImmediateIfDivideByZero (s.getFlag .divideByZero) address s

/-- JumpImmediateIfNotDivideByZero: taken when DivideByZero is clear (R255). -/
def execJumpImmediateIfNotDivideByZero (address : Word) (s : State) : Result :=
  jumpIf .jumpImmediateIfNotDivideByZero (!s.getFlag .divideByZero) address s

end Sys2Proof.Machine
end

