-- ==== Sys2Proof/Machine/Logic.lean ====
section
/-! DEFINITION. Bitwise, shift and compare family (R190 to R205). -/

namespace Sys2Proof.Machine

/-- AndTargetLhsRhs: bitwise and (R191). -/
def execAndTargetLhsRhs (target lhs rhs : Reg) (s : State) : Result :=
  let v := s.opnd lhs &&& s.opnd rhs
  writeZ .andTargetLhsRhs target v (decide (v = 0)) s

/-- OrTargetLhsRhs: bitwise or (R192). -/
def execOrTargetLhsRhs (target lhs rhs : Reg) (s : State) : Result :=
  let v := s.opnd lhs ||| s.opnd rhs
  writeZ .orTargetLhsRhs target v (decide (v = 0)) s

/-- XorTargetLhsRhs: bitwise exclusive or (R193). -/
def execXorTargetLhsRhs (target lhs rhs : Reg) (s : State) : Result :=
  let v := s.opnd lhs ^^^ s.opnd rhs
  writeZ .xorTargetLhsRhs target v (decide (v = 0)) s

/-- NotTargetSource: bitwise complement (R194). -/
def execNotTargetSource (target source : Reg) (s : State) : Result :=
  let v := ~~~(s.opnd source)
  writeZ .notTargetSource target v (decide (v = 0)) s

/-- LeftShiftTargetLhsRhs: logical shift left (R196). -/
def execLeftShiftTargetLhsRhs (target lhs rhs : Reg) (s : State) : Result :=
  writeZC .leftShiftTargetLhsRhs target (shiftLeftZC (s.opnd lhs) (s.opnd rhs)) s

/-- RightShiftTargetLhsRhs: logical shift right (R197). -/
def execRightShiftTargetLhsRhs (target lhs rhs : Reg) (s : State) : Result :=
  writeZC .rightShiftTargetLhsRhs target (shiftRightZC (s.opnd lhs) (s.opnd rhs)) s

/-- CompareTargetLhsRhs: unsigned tri-state compare (R198). -/
def execCompareTargetLhsRhs (target lhs rhs : Reg) (s : State) : Result :=
  writeZ .compareTargetLhsRhs target (triState (s.opnd lhs) (s.opnd rhs)) (decide (s.opnd lhs = s.opnd rhs)) s

/-- BoolCompareEquals: 1 when equal (R200). -/
def execBoolCompareEquals (target lhs rhs : Reg) (s : State) : Result :=
  writeValue .boolCompareEquals target (boolWord (decide (s.opnd lhs = s.opnd rhs))) s

/-- BoolCompareNotEquals: 1 when different (R201). -/
def execBoolCompareNotEquals (target lhs rhs : Reg) (s : State) : Result :=
  writeValue .boolCompareNotEquals target (boolWord (decide (s.opnd lhs ≠ s.opnd rhs))) s

/-- BoolCompareGreater: 1 when greater, unsigned (R202). -/
def execBoolCompareGreater (target lhs rhs : Reg) (s : State) : Result :=
  writeValue .boolCompareGreater target (boolWord (decide ((s.opnd rhs).toNat < (s.opnd lhs).toNat))) s

/-- BoolCompareGreaterOrEquals: 1 when greater or equal, unsigned (R203). -/
def execBoolCompareGreaterOrEquals (target lhs rhs : Reg) (s : State) : Result :=
  writeValue .boolCompareGreaterOrEquals target (boolWord (decide ((s.opnd rhs).toNat ≤ (s.opnd lhs).toNat))) s

/-- BoolCompareLess: 1 when less, unsigned (R204). -/
def execBoolCompareLess (target lhs rhs : Reg) (s : State) : Result :=
  writeValue .boolCompareLess target (boolWord (decide ((s.opnd lhs).toNat < (s.opnd rhs).toNat))) s

/-- BoolCompareLessOrEquals: 1 when less or equal, unsigned (R205). -/
def execBoolCompareLessOrEquals (target lhs rhs : Reg) (s : State) : Result :=
  writeValue .boolCompareLessOrEquals target (boolWord (decide ((s.opnd lhs).toNat ≤ (s.opnd rhs).toNat))) s

end Sys2Proof.Machine
end

