-- ==== Sys2Proof/Machine/Move.lean ====
section
/-! DEFINITION. Move family (R150 to R164): no flag is read or written. -/

namespace Sys2Proof.Machine

/-- MoveRegisterImmediate: writes the immediate to the register (R151). -/
def execMoveRegisterImmediate (register : Reg) (immediate : Word) (s : State) : Result :=
  writeValue .moveRegisterImmediate register immediate s

/-- MoveRegisterAddress: loads a word from the address (R152). -/
def execMoveRegisterAddress (register : Reg) (address : Word) (s : State) : Result :=
  load .moveRegisterAddress .word register address s

/-- MoveTargetSource: copies a register (R153). -/
def execMoveTargetSource (target source : Reg) (s : State) : Result :=
  writeValue .moveTargetSource target (s.opnd source) s

/-- MoveAddressRegister: stores a register at the address (R154). -/
def execMoveAddressRegister (register : Reg) (address : Word) (s : State) : Result :=
  store .moveAddressRegister .word address (s.opnd register) s

/-- MoveTargetPointer: loads a word from the address in a register (R155). -/
def execMoveTargetPointer (target pointer : Reg) (s : State) : Result :=
  load .moveTargetPointer .word target (s.opnd pointer) s

/-- MovePointerSource: stores a word to the address in a register (R156). -/
def execMovePointerSource (pointer source : Reg) (s : State) : Result :=
  store .movePointerSource .word (s.opnd pointer) (s.opnd source) s

/-- MoveByteRegisterAddress: loads a byte from the address, zero-extended (R157). -/
def execMoveByteRegisterAddress (register : Reg) (address : Word) (s : State) : Result :=
  load .moveByteRegisterAddress .byte register address s

/-- MoveByteAddressRegister: stores the low byte at the address (R158). -/
def execMoveByteAddressRegister (register : Reg) (address : Word) (s : State) : Result :=
  store .moveByteAddressRegister .byte address (s.opnd register) s

/-- MoveByteTargetPointer: loads a byte from the address in a register, zero-extended (R159). -/
def execMoveByteTargetPointer (target pointer : Reg) (s : State) : Result :=
  load .moveByteTargetPointer .byte target (s.opnd pointer) s

/-- MoveBytePointerSource: stores the low byte to the address in a register (R160). -/
def execMoveBytePointerSource (pointer source : Reg) (s : State) : Result :=
  store .moveBytePointerSource .byte (s.opnd pointer) (s.opnd source) s

/-- MoveHalfwordRegisterAddress: loads a halfword from the address, zero-extended (R161). -/
def execMoveHalfwordRegisterAddress (register : Reg) (address : Word) (s : State) : Result :=
  load .moveHalfwordRegisterAddress .half register address s

/-- MoveHalfwordAddressRegister: stores the low halfword at the address (R162). -/
def execMoveHalfwordAddressRegister (register : Reg) (address : Word) (s : State) : Result :=
  store .moveHalfwordAddressRegister .half address (s.opnd register) s

/-- MoveHalfwordTargetPointer: loads a halfword from the address in a register, zero-extended (R163). -/
def execMoveHalfwordTargetPointer (target pointer : Reg) (s : State) : Result :=
  load .moveHalfwordTargetPointer .half target (s.opnd pointer) s

/-- MoveHalfwordPointerSource: stores the low halfword to the address in a register (R164). -/
def execMoveHalfwordPointerSource (pointer source : Reg) (s : State) : Result :=
  store .moveHalfwordPointerSource .half (s.opnd pointer) (s.opnd source) s

end Sys2Proof.Machine
end

