-- ==== Sys2Proof/Machine/StackCall.lean ====
section
/-! DEFINITION. Stack, call and return family (R220 to R228). -/

namespace Sys2Proof.Machine

/-- PushRegister: pushes a register, read before the push (R222). -/
def execPushRegister (register : Reg) (s : State) : Result :=
  pushThen .pushRegister (s.opnd register) id s

/-- PushImmediate: pushes the immediate (R223). -/
def execPushImmediate (immediate : Word) (s : State) : Result :=
  pushThen .pushImmediate immediate id s

/-- PopRegister: pops into a register; the register write follows the pointer update (R224). -/
def execPopRegister (register : Reg) (s : State) : Result :=
  popThen .popRegister (fun v t => t.setOpnd register v) s

/-- Pop: pops and discards (R225). -/
def execPop (s : State) : Result :=
  popThen .pop (fun _ t => t) s

/-- CallAddress: pushes the address of the next instruction and jumps (R226). -/
def execCallAddress (address : Word) (s : State) : Result :=
  pushThen .callAddress s.nextIp (fun t => t.setIp address) s

/-- CallRegister: the target is read before the push (R227). -/
def execCallRegister (register : Reg) (s : State) : Result :=
  pushThen .callRegister s.nextIp (fun t => t.setIp (s.opnd register)) s

/-- Return: pops an address and jumps to it (R228). -/
def execReturnFromCall (s : State) : Result :=
  popThen .returnFromCall (fun v t => t.setIp v) s

end Sys2Proof.Machine
end

