-- ==== Sys2Proof/Machine/SystemDebug.lean ====
section
/-! DEFINITION. System and debug family (R270 to R279). -/

namespace Sys2Proof.Machine

/-- NoOp: does nothing but advance (R270). -/
def execNoOp (s : State) : Result :=
  finish .noOp s (.normal s)

/-- HaltAndCatchFire: sets the halted flag and keeps ip (R271). -/
def execHaltAndCatchFire (s : State) : Result :=
  finish .haltAndCatchFire s (.halted s)

/-- DumpRegisters: sends the register file over the debug side channel, ip not yet advanced (R273). -/
def execDumpRegisters (s : State) : Result :=
  finish .dumpRegisters s (.normal (s.emit (.dumpRegisters s.regs)))

/-- DumpMemory: sends all of memory over the debug side channel (R274). -/
def execDumpMemory (s : State) : Result :=
  finish .dumpMemory s (.normal (s.emit (.dumpMemory s.mem)))

/-- AssertRegisterRegister: asserts that two registers are equal (R275). -/
def execAssertRegisterRegister (expected actual : Reg) (s : State) : Result :=
  assertEqual .assertRegisterRegister (s.opnd expected) (s.opnd actual) s

/-- AssertRegisterImmediate: asserts that a register equals the immediate (R276). -/
def execAssertRegisterImmediate (actual : Reg) (immediate : Word) (s : State) : Result :=
  assertEqual .assertRegisterImmediate immediate (s.opnd actual) s

/-- AssertPointerImmediate: asserts that the word at a pointer equals the immediate; the read comes first (R277). -/
def execAssertPointerImmediate (pointer : Reg) (immediate : Word) (s : State) : Result :=
  match s.memRead (s.opnd pointer) .word with
  | .error k => finish .assertPointerImmediate s (.error k)
  | .ok v => assertEqual .assertPointerImmediate immediate (BitVec.ofNat 32 v) s

/-- DebugBreak: tells the host the address of the breakpoint; the pause is the host's, log entry 18 (R278). -/
def execDebugBreak (s : State) : Result :=
  finish .debugBreak s (.normal (s.emit (.breakpoint s.ip)))

/-- Checkpoint: compares the immediate with the checkpoint counter and advances it on a match (R279). -/
def execCheckpoint (immediate : Word) (s : State) : Result :=
  if immediate = s.checkpoint then finish .checkpoint s (.normal { s with checkpoint := s.checkpoint + 1 })
  else match s.cfg.debugPolicy with
    | .strict => finish .checkpoint s (.error (.checkpointMismatch immediate s.checkpoint))
    | .lenient => finish .checkpoint s (.normal (s.emit (.checkpointMismatch immediate s.checkpoint)))

end Sys2Proof.Machine
end

