-- ==== Sys2Proof/Machine/Dispatch.lean ====
section
/-! DEFINITION. The dispatch: one arm for each instruction, one direct call of its meaning. -/

namespace Sys2Proof.Machine

def exec (i : Instr) (s : State) : Host.Outcome State Fault Refusal :=
  match i with
  | .moveRegisterImmediate register immediate => Sys2Proof.Machine.execMoveRegisterImmediate register immediate s
  | .moveRegisterAddress register address => Sys2Proof.Machine.execMoveRegisterAddress register address s
  | .moveTargetSource target source => Sys2Proof.Machine.execMoveTargetSource target source s
  | .moveAddressRegister register address => Sys2Proof.Machine.execMoveAddressRegister register address s
  | .moveTargetPointer target pointer => Sys2Proof.Machine.execMoveTargetPointer target pointer s
  | .movePointerSource pointer source => Sys2Proof.Machine.execMovePointerSource pointer source s
  | .moveByteRegisterAddress register address => Sys2Proof.Machine.execMoveByteRegisterAddress register address s
  | .moveByteAddressRegister register address => Sys2Proof.Machine.execMoveByteAddressRegister register address s
  | .moveByteTargetPointer target pointer => Sys2Proof.Machine.execMoveByteTargetPointer target pointer s
  | .moveBytePointerSource pointer source => Sys2Proof.Machine.execMoveBytePointerSource pointer source s
  | .moveHalfwordRegisterAddress register address => Sys2Proof.Machine.execMoveHalfwordRegisterAddress register address s
  | .moveHalfwordAddressRegister register address => Sys2Proof.Machine.execMoveHalfwordAddressRegister register address s
  | .moveHalfwordTargetPointer target pointer => Sys2Proof.Machine.execMoveHalfwordTargetPointer target pointer s
  | .moveHalfwordPointerSource pointer source => Sys2Proof.Machine.execMoveHalfwordPointerSource pointer source s
  | .addTargetLhsRhs target lhs rhs => Sys2Proof.Machine.execAddTargetLhsRhs target lhs rhs s
  | .addWithCarryTargetLhsRhs target lhs rhs => Sys2Proof.Machine.execAddWithCarryTargetLhsRhs target lhs rhs s
  | .subtractTargetLhsRhs target lhs rhs => Sys2Proof.Machine.execSubtractTargetLhsRhs target lhs rhs s
  | .subtractWithCarryTargetLhsRhs target lhs rhs => Sys2Proof.Machine.execSubtractWithCarryTargetLhsRhs target lhs rhs s
  | .addTargetSourceImmediate target source immediate => Sys2Proof.Machine.execAddTargetSourceImmediate target source immediate s
  | .subtractTargetSourceImmediate target source immediate => Sys2Proof.Machine.execSubtractTargetSourceImmediate target source immediate s
  | .multiplyHighLowLhsRhs high low lhs rhs => Sys2Proof.Machine.execMultiplyHighLowLhsRhs high low lhs rhs s
  | .divmodTargetModLhsRhs result remainder lhs rhs => Sys2Proof.Machine.execDivmodTargetModLhsRhs result remainder lhs rhs s
  | .andTargetLhsRhs target lhs rhs => Sys2Proof.Machine.execAndTargetLhsRhs target lhs rhs s
  | .orTargetLhsRhs target lhs rhs => Sys2Proof.Machine.execOrTargetLhsRhs target lhs rhs s
  | .xorTargetLhsRhs target lhs rhs => Sys2Proof.Machine.execXorTargetLhsRhs target lhs rhs s
  | .notTargetSource target source => Sys2Proof.Machine.execNotTargetSource target source s
  | .leftShiftTargetLhsRhs target lhs rhs => Sys2Proof.Machine.execLeftShiftTargetLhsRhs target lhs rhs s
  | .rightShiftTargetLhsRhs target lhs rhs => Sys2Proof.Machine.execRightShiftTargetLhsRhs target lhs rhs s
  | .compareTargetLhsRhs target lhs rhs => Sys2Proof.Machine.execCompareTargetLhsRhs target lhs rhs s
  | .boolCompareEquals target lhs rhs => Sys2Proof.Machine.execBoolCompareEquals target lhs rhs s
  | .boolCompareNotEquals target lhs rhs => Sys2Proof.Machine.execBoolCompareNotEquals target lhs rhs s
  | .boolCompareGreater target lhs rhs => Sys2Proof.Machine.execBoolCompareGreater target lhs rhs s
  | .boolCompareGreaterOrEquals target lhs rhs => Sys2Proof.Machine.execBoolCompareGreaterOrEquals target lhs rhs s
  | .boolCompareLess target lhs rhs => Sys2Proof.Machine.execBoolCompareLess target lhs rhs s
  | .boolCompareLessOrEquals target lhs rhs => Sys2Proof.Machine.execBoolCompareLessOrEquals target lhs rhs s
  | .pushRegister register => Sys2Proof.Machine.execPushRegister register s
  | .pushImmediate immediate => Sys2Proof.Machine.execPushImmediate immediate s
  | .popRegister register => Sys2Proof.Machine.execPopRegister register s
  | .pop => Sys2Proof.Machine.execPop s
  | .callAddress address => Sys2Proof.Machine.execCallAddress address s
  | .callRegister register => Sys2Proof.Machine.execCallRegister register s
  | .returnFromCall => Sys2Proof.Machine.execReturnFromCall s
  | .jumpImmediate address => Sys2Proof.Machine.execJumpImmediate address s
  | .jumpRegister register => Sys2Proof.Machine.execJumpRegister register s
  | .jumpImmediateIfEqual comparison address => Sys2Proof.Machine.execJumpImmediateIfEqual comparison address s
  | .jumpImmediateIfGreaterThan comparison address => Sys2Proof.Machine.execJumpImmediateIfGreaterThan comparison address s
  | .jumpImmediateIfLessThan comparison address => Sys2Proof.Machine.execJumpImmediateIfLessThan comparison address s
  | .jumpImmediateIfGreaterThanOrEqual comparison address => Sys2Proof.Machine.execJumpImmediateIfGreaterThanOrEqual comparison address s
  | .jumpImmediateIfLessThanOrEqual comparison address => Sys2Proof.Machine.execJumpImmediateIfLessThanOrEqual comparison address s
  | .jumpImmediateIfZero address => Sys2Proof.Machine.execJumpImmediateIfZero address s
  | .jumpImmediateIfNotZero address => Sys2Proof.Machine.execJumpImmediateIfNotZero address s
  | .jumpImmediateIfCarry address => Sys2Proof.Machine.execJumpImmediateIfCarry address s
  | .jumpImmediateIfNotCarry address => Sys2Proof.Machine.execJumpImmediateIfNotCarry address s
  | .jumpImmediateIfDivideByZero address => Sys2Proof.Machine.execJumpImmediateIfDivideByZero address s
  | .jumpImmediateIfNotDivideByZero address => Sys2Proof.Machine.execJumpImmediateIfNotDivideByZero address s
  | .getKeyState target keycode => Sys2Proof.Machine.execGetKeyState target keycode s
  | .pollTime high low => Sys2Proof.Machine.execPollTime high low s
  | .swapFramebuffers => Sys2Proof.Machine.execSwapFramebuffers s
  | .invisibleFramebufferAddress target => Sys2Proof.Machine.execInvisibleFramebufferAddress target s
  | .pollCycleCountHighLow high low => Sys2Proof.Machine.execPollCycleCountHighLow high low s
  | .noOp => Sys2Proof.Machine.execNoOp s
  | .haltAndCatchFire => Sys2Proof.Machine.execHaltAndCatchFire s
  | .dumpRegisters => Sys2Proof.Machine.execDumpRegisters s
  | .dumpMemory => Sys2Proof.Machine.execDumpMemory s
  | .assertRegisterRegister expected actual => Sys2Proof.Machine.execAssertRegisterRegister expected actual s
  | .assertRegisterImmediate actual immediate => Sys2Proof.Machine.execAssertRegisterImmediate actual immediate s
  | .assertPointerImmediate pointer immediate => Sys2Proof.Machine.execAssertPointerImmediate pointer immediate s
  | .debugBreak => Sys2Proof.Machine.execDebugBreak s
  | .checkpoint immediate => Sys2Proof.Machine.execCheckpoint immediate s

end Sys2Proof.Machine
end

