-- ==== Sys2Proof/Machine/Fetch.lean ====
section
/-! DEFINITION. Instruction fetch through the cache (R90, R91), and the placing of one instruction where the next fetch
reads it. -/

namespace Sys2Proof.Machine

/-- The fault a decode failure raises when it is fetched (R91). -/
def decodeFault : DecodeError → Fault
  | .unknownOpcode code => .unknownOpcode code
  | .reservedRegisterOperand role value => .reservedRegisterOperand role value
  | .paddingNotZero word => .paddingNotZero word

/-- The checks of `Fetch(ip)`, in order (R90). -/
def fetchFault (c : Config) (a : Word) : Option Fault :=
  match accessFault a Width.instruction.bytes with
  | some k => some k
  | none => if a.toNat < c.entryPoint then some (.fetchOutsideCache a) else none

/-- The cache slot of an address (R48). -/
def slotOf (a : Word) : Nat := a.toNat / 8

/-- The lazy fill of the slot of `ip` from memory as it is now (R91). -/
def State.fillSlot (s : State) : State :=
  { s with icache := s.icache.put (slotOf s.ip) (decodeEntry s.cfg.codec (s.mem.dword s.ip.toNat)) }

/-- `Fetch(ip)`: the state, changed by a lazy fill only, and the instruction or the fault (R91). -/
def State.fetch (s : State) : State × Except Fault Instr :=
  match fetchFault s.cfg s.ip with
  | some k => (s, .error k)
  | none =>
    match s.icache.get (slotOf s.ip) with
    | .decoded i => (s, .ok i)
    | .undecodable e => (s, .error (decodeFault e))
    | .empty =>
      match decode s.cfg.codec (s.mem.dword s.ip.toNat) with
      | .ok i => (s.fillSlot, .ok i)
      | .error e => (s.fillSlot, .error (decodeFault e))

/-- The state with an instruction word placed at `ip`, in memory and in its cache slot, and no longer stopped: what a
ROM load and cache generation of that one slot leave (log entry 11). -/
def State.placeWord (s : State) (w : DWord) : State :=
  { s with
    mem := s.mem.setBytes s.ip.toNat (beBytes 8 w.toNat)
    icache := s.icache.put (slotOf s.ip) (decodeEntry s.cfg.codec w)
    halted := false
    fault := none }

end Sys2Proof.Machine
end

