-- ==== Sys2Proof/Machine/Cycle.lean ====
section
/-! DEFINITION. One step of the machine, the spec's executeNextInstruction (R350). -/

namespace Sys2Proof.Machine

/-- A halted or faulted machine, which stays as it is (R351). -/
def State.stopped (s : State) : Bool := s.halted || s.fault.isSome

/-- The fetch and the execution of one instruction by a machine that is not stopped (R350). -/
def fetchExecute (s : State) : Result :=
  match s.fetch with
  | (t, .error k) => .next (t.raise k)
  | (t, .ok i) => exec i t

/-- `executeNextInstruction`, with what the host does before it (R350, R351, R316). -/
def executeNextInstruction (s : State) : Result :=
  if s.stopped then .next s
  else if s.betweenSteps.stopped then .next s.betweenSteps
  else fetchExecute s.betweenSteps

end Sys2Proof.Machine
end

