-- ==== Sys2Proof/Machine/Step.lean ====
section
/-! DEFINITION. The step of the machine and the placing of a table word as its next instruction. -/

namespace Sys2Proof.Machine

/-- One step (R350). It answers a next state always: a fault is a next state with the fault record (R302). -/
def step (s : State) : Host.Outcome State Fault Refusal := executeNextInstruction s

/-- The state whose next step runs the instruction with bits `w`, at a fetchable `ip` (log entry 11). -/
def State.withFetchWord (s : State) (nbits w : Nat) : State := s.placeWord (tableWord nbits w)

end Sys2Proof.Machine
end

