-- ==== Sys2Proof/Safety.lean ====
section
/-! DEFINITION. The terms the statements use: how a run ends (R358), what an instruction does to a state, what it
leaves unchanged, and the invariant of the machine. -/

namespace Sys2Proof.Machine

/-! ### The end of a run -/

/-- The ends of a run that began (R358), or that it is still running. -/
inductive RunStatus where
  | running
  | halted
  | faulted (record : FaultRecord)
  deriving DecidableEq, Repr

/-- How a run stands in a state (R358). -/
def State.status (s : State) : RunStatus :=
  match s.fault with
  | some r => .faulted r
  | none => if s.halted then .halted else .running

/-- Whether the host process ends: the exit-on-halt policy, an observation that changes no core state (R45, R359). -/
def State.hostTerminates (s : State) : Bool := s.cfg.exitOnHalt && s.halted

/-- The numeric code of a fault kind (R301). -/
def Fault.code : Fault → Nat
  | .unknownOpcode _ => 1
  | .reservedRegisterOperand _ _ => 2
  | .paddingNotZero _ => 3
  | .unalignedAccess _ _ => 4
  | .outOfBounds _ _ => 5
  | .fetchOutsideCache _ => 6
  | .assertionFailed _ _ => 7
  | .checkpointMismatch _ _ => 8
  | .registerOutOfRange _ => 9
  | .alignmentOrSize _ _ => 10
  | .malformedOpcodeTable _ _ => 11
  | .invalidCacheRegion _ _ => 12
  | .fileTooBig _ => 13
  | .fileSizeNotDivisible _ => 14
  | .operandArityMismatch _ => 15
  | .missingOperand _ => 16
  | .unexpectedOperand _ => 17

/-! ### What an instruction does -/

/-- The row of the opcode table an instruction stands in: its default code, its roles with the register fields that hold
them, its extra word and its increment flag (R113, R117, R130). -/
def TableRow (i : Instr) (code : Code) (roles : List (Role × Reg)) (extra : Option (ExtraKind × Word))
    (increment : Bool) : Prop :=
  i.opcode.defaultCode = code ∧ i.opcode.roles = roles.map Prod.fst ∧ i.regs = roles.map Prod.snd ∧
    i.opcode.extraKind = extra.map Prod.fst ∧ i.extra = extra.map Prod.snd ∧ i.opcode.increment = increment

/-- The effect of an instruction on the register file: register writes in order, the flags it sets, and what it adds to
`ip` after its writes. -/
structure Effect where
  writes : List (Reg × Word) := []
  zero : Option Bool := none
  carry : Option Bool := none
  divideByZero : Option Bool := none
  advance : Word := 8

/-- What a register holds after writes in order. -/
def written (s : State) (writes : List (Reg × Word)) (q : Reg) : Word :=
  writes.foldl (fun v w => if q = w.1 then w.2 else v) (s.reg q)

/-- FLAGS after an instruction: each flag it sets, and every other bit as it was after the register writes. -/
def FlagsAfter (before after : Word) (e : Effect) : Prop :=
  after.getLsbD 0 = e.zero.getD (before.getLsbD 0) ∧ after.getLsbD 1 = e.carry.getD (before.getLsbD 1) ∧
    after.getLsbD 2 = e.divideByZero.getD (before.getLsbD 2) ∧
    ∀ k, 3 ≤ k → after.getLsbD k = before.getLsbD k

/-- The register file after an effect, every register told (the frame of the registers). -/
def RegsAfter (s t : State) (e : Effect) : Prop :=
  (∀ q : Reg, q ≠ flagsReg → q ≠ ipReg → t.reg q = written s e.writes q) ∧
    FlagsAfter (written s e.writes flagsReg) (t.reg flagsReg) e ∧
    t.reg ipReg = written s e.writes ipReg + e.advance

/-- Every byte of memory reads as before. -/
def SameMemory (s t : State) : Prop := ∀ a : Nat, t.mem.byte a = s.mem.byte a

/-- The bytes of a big-endian store of the low `n` bytes of a value, and every other byte as before. -/
def Stored (s t : State) (a n : Nat) (v : Word) : Prop :=
  (∀ k, k < n → t.mem.byte (a + k) = v.extractLsb' (8 * (n - 1 - k)) 8) ∧
    ∀ b, (b < a ∨ a + n ≤ b) → t.mem.byte b = s.mem.byte b

/-- The configuration, the instruction cache, the halted flag and the fault record are unchanged. -/
def SameControl (s t : State) : Prop :=
  t.cfg = s.cfg ∧ t.icache = s.icache ∧ t.halted = s.halted ∧ t.fault = s.fault

/-- The checkpoint counter, the display's state, the draws and the debug side channel are unchanged. -/
def SameRest (s t : State) : Prop :=
  t.checkpoint = s.checkpoint ∧ t.fbFirstVisible = s.fbFirstVisible ∧ t.draws = s.draws ∧ t.debugOut = s.debugOut

/-- The cycle counter has grown by the cost of an opcode, modulo 2^64 (R353). -/
def CostPaid (op : Opcode) (s t : State) : Prop := t.cycles = s.cycles + BitVec.ofNat 64 (s.cfg.cost op)

/-- `exec i s` answers the next state `t`, the registers of `t` are those of the effect, the cost is paid, and the
configuration, cache, halted flag and fault record are unchanged. -/
def RunsTo (i : Instr) (s : State) (e : Effect) (t : State) : Prop :=
  exec i s = .next t ∧ RegsAfter s t e ∧ CostPaid i.opcode s t ∧ SameControl s t

/-- An instruction that only changes registers: `exec i s` answers a next state with that effect on the register file
and everything else unchanged but the cycle counter. -/
def Runs (i : Instr) (s : State) (e : Effect) : Prop := ∃ t, RunsTo i s e t ∧ SameMemory s t ∧ SameRest s t

/-- `exec i s` takes the fault `k`: the record with the address of the instruction, nothing else changed (R300,
R302), as the next state that R350 returns (log entry 7). -/
def Faults (i : Instr) (s : State) (k : Fault) : Prop := exec i s = .next { s with fault := some ⟨k, s.ip⟩ }

/-- An access of `n` bytes at an address that is aligned and inside memory (R74, R75). -/
def Accessible (a : Word) (n : Nat) : Prop := a.toNat % n = 0 ∧ a.toNat + n ≤ memorySize

/-- A stack access of one word that is aligned and inside the stack region (R220). -/
def InStack (c : Config) (a : Word) : Prop :=
  a.toNat % 4 = 0 ∧ c.stackStart ≤ a.toNat ∧ a.toNat + 4 ≤ c.stackEnd

/-- An access at an address: `ok` where it is accessible, else the fault of R74 to R76. -/
def AccessOutcome (i : Instr) (s : State) (a : Word) (n : Nat) (ok : Prop) : Prop :=
  (Accessible a n → ok) ∧ (a.toNat % n ≠ 0 → Faults i s (.unalignedAccess a n)) ∧
    (a.toNat % n = 0 → memorySize < a.toNat + n → Faults i s (.outOfBounds a n))

/-- A byte access at an address, which is never unaligned: `ok` inside memory, else OutOfBounds (R74, R75). -/
def ByteOutcome (i : Instr) (s : State) (a : Word) (ok : Prop) : Prop :=
  (a.toNat < memorySize → ok) ∧ (memorySize ≤ a.toNat → Faults i s (.outOfBounds a 1))

/-- A stack access at an address: `ok` inside the stack region, else the fault of R220 and R221. -/
def StackOutcome (i : Instr) (s : State) (a : Word) (ok : Prop) : Prop :=
  (InStack s.cfg a → ok) ∧ (a.toNat % 4 ≠ 0 → Faults i s (.unalignedAccess a 4)) ∧
    (a.toNat % 4 = 0 → (a.toNat < s.cfg.stackStart ∨ s.cfg.stackEnd < a.toNat + 4) → Faults i s (.outOfBounds a 4))

/-- The halfword at an address, big-endian (R73). -/
def State.halfAt (s : State) (a : Nat) : BitVec 16 := s.mem.byte a ++ s.mem.byte (a + 1)

/-- The word at an address, big-endian (R73). -/
def State.wordAt (s : State) (a : Nat) : Word :=
  s.mem.byte a ++ s.mem.byte (a + 1) ++ s.mem.byte (a + 2) ++ s.mem.byte (a + 3)

/-- An instruction that sends one event over the debug side channel and otherwise only advances (R272; log entry 9). -/
def Emits (i : Instr) (s : State) (e : DebugEvent) : Prop :=
  ∃ t, RunsTo i s {} t ∧ SameMemory s t ∧ t.checkpoint = s.checkpoint ∧ t.fbFirstVisible = s.fbFirstVisible ∧
    t.draws = s.draws ∧ t.debugOut = e :: s.debugOut

/-- A check of the debug family: it passes, or fails with a fault under Strict and with a logged event under Lenient
(R272). -/
def CheckOutcome (i : Instr) (s : State) (holds : Prop) (k : Fault) (e : DebugEvent) (passes : Prop) : Prop :=
  (holds → passes) ∧ (¬ holds → s.cfg.debugPolicy = .strict → Faults i s k) ∧
    (¬ holds → s.cfg.debugPolicy = .lenient → Emits i s e)

/-! ### Fetch and decode -/

/-- An address a fetch accepts: aligned, inside memory and not below the entry point (R90). -/
def Fetchable (c : Config) (a : Word) : Prop := Accessible a 8 ∧ c.entryPoint ≤ a.toNat

/-- A padding byte of a definition's format, as an offset (R113): after the opcode and the register fields, before the
extra word or the end of the instruction. -/
def PaddingByte (op : Opcode) (j : Nat) : Prop :=
  2 + op.roles.length ≤ j ∧ j < if op.extraKind.isSome then 4 else 8

/-- A running machine whose host regenerates the cache at boot only. -/
def RunsAlone (s : State) : Prop := s.halted = false ∧ s.fault = none ∧ s.cfg.hostRegenerates = .bootOnly

/-- The 64-bit word at an address, big-endian (R92). -/
def State.dwordAt (s : State) (a : Nat) : DWord := s.wordAt a ++ s.wordAt (a + 4)

/-! ### The invariant -/

/-- Every entry of the cache is one that decoding some word fills in, or Empty; so under the Fault policy no cached
instruction names a reserved register (R118, R121). -/
def CacheDecoded (s : State) : Prop :=
  ∀ slot, s.icache.get slot = .empty ∨ ∃ w, s.icache.get slot = decodeEntry s.cfg.codec w

/-- No slot of the program region is Empty (R344). -/
def CacheGenerated (s : State) : Prop :=
  ∀ slot, s.cfg.entryPoint ≤ 8 * slot → 8 * slot < memorySize → s.icache.get slot ≠ .empty

/-- What every step keeps: an admitted configuration (R11), memory and cache in canonical form, a cache of decode
results that covers the program region (R121, R344), and never both halted and faulted (R309, R358). -/
structure Inv (s : State) : Prop where
  admitted : s.cfg.admitted = true
  memory : s.mem.wf = true
  cache : s.icache.wf = true
  decoded : CacheDecoded s
  generated : CacheGenerated s
  oneEnd : s.halted = true → s.fault = none

end Sys2Proof.Machine
end

