-- ==== Sys2Proof/Certificates/Slice0/Obligations.lean ====
section
/-! DEFINITION. The statements for the provers. Each docstring names the rules of the spec it formalises. -/

open Sys2Proof Sys2Proof.Machine

/-! ### Move family -/

/-- R151, R153: an immediate or a register is written to a register, unchanged, with no flag touched. -/
def Obligations.RegisterMovesWriteTheirSource : Prop :=
  ∀ (s : State) (register target source : Reg) (immediate : Word),
    TableRow (.moveRegisterImmediate register immediate) 0x0000 [(.register, register)]
      (some (.immediate, immediate)) true ∧
    Runs (.moveRegisterImmediate register immediate) s { writes := [(register, immediate)] } ∧
    TableRow (.moveTargetSource target source) 0x0002 [(.target, target), (.source, source)] none true ∧
    Runs (.moveTargetSource target source) s { writes := [(target, s.reg source)] }

/-- R152, R155: a word load from an absolute address or a pointer writes the big-endian word; a misaligned or
out-of-bounds address takes the fault and writes nothing. -/
def Obligations.WordLoadsReadBigEndian : Prop :=
  ∀ (s : State) (register target pointer : Reg) (address : Word),
    TableRow (.moveRegisterAddress register address) 0x0001 [(.register, register)]
      (some (.sourceAddress, address)) true ∧
    AccessOutcome (.moveRegisterAddress register address) s address 4
      (Runs (.moveRegisterAddress register address) s { writes := [(register, s.wordAt address.toNat)] }) ∧
    TableRow (.moveTargetPointer target pointer) 0x0004 [(.target, target), (.pointer, pointer)] none true ∧
    AccessOutcome (.moveTargetPointer target pointer) s (s.reg pointer) 4
      (Runs (.moveTargetPointer target pointer) s { writes := [(target, s.wordAt (s.reg pointer).toNat)] })

/-- R157, R159, R161, R163: byte and halfword loads zero-extend; a bad address takes the fault. -/
def Obligations.NarrowLoadsZeroExtend : Prop :=
  ∀ (s : State) (register target pointer : Reg) (address : Word),
    TableRow (.moveByteRegisterAddress register address) 0x0006 [(.register, register)]
      (some (.sourceAddress, address)) true ∧
    ByteOutcome (.moveByteRegisterAddress register address) s address
      (Runs (.moveByteRegisterAddress register address) s
        { writes := [(register, (s.mem.byte address.toNat).setWidth 32)] }) ∧
    TableRow (.moveByteTargetPointer target pointer) 0x0008 [(.target, target), (.pointer, pointer)] none true ∧
    ByteOutcome (.moveByteTargetPointer target pointer) s (s.reg pointer)
      (Runs (.moveByteTargetPointer target pointer) s
        { writes := [(target, (s.mem.byte (s.reg pointer).toNat).setWidth 32)] }) ∧
    TableRow (.moveHalfwordRegisterAddress register address) 0x000A [(.register, register)]
      (some (.sourceAddress, address)) true ∧
    AccessOutcome (.moveHalfwordRegisterAddress register address) s address 2
      (Runs (.moveHalfwordRegisterAddress register address) s
        { writes := [(register, (s.halfAt address.toNat).setWidth 32)] }) ∧
    TableRow (.moveHalfwordTargetPointer target pointer) 0x000C [(.target, target), (.pointer, pointer)] none true ∧
    AccessOutcome (.moveHalfwordTargetPointer target pointer) s (s.reg pointer) 2
      (Runs (.moveHalfwordTargetPointer target pointer) s
        { writes := [(target, (s.halfAt (s.reg pointer).toNat).setWidth 32)] })

/-- R154, R156: a word store writes the four bytes at its address, big-endian, and no other byte; a bad address takes
the fault and writes nothing. -/
def Obligations.WordStoresWriteBigEndian : Prop :=
  ∀ (s : State) (register pointer source : Reg) (address : Word),
    TableRow (.moveAddressRegister register address) 0x0003 [(.register, register)]
      (some (.targetAddress, address)) true ∧
    AccessOutcome (.moveAddressRegister register address) s address 4
      (∃ t, RunsTo (.moveAddressRegister register address) s {} t ∧
        Stored s t address.toNat 4 (s.reg register) ∧ SameRest s t) ∧
    TableRow (.movePointerSource pointer source) 0x0005 [(.pointer, pointer), (.source, source)] none true ∧
    AccessOutcome (.movePointerSource pointer source) s (s.reg pointer) 4
      (∃ t, RunsTo (.movePointerSource pointer source) s {} t ∧
        Stored s t (s.reg pointer).toNat 4 (s.reg source) ∧ SameRest s t)

/-- R158, R160, R162, R164: byte and halfword stores write the low bytes of the register and no other byte. -/
def Obligations.NarrowStoresWriteLowBytes : Prop :=
  ∀ (s : State) (register pointer source : Reg) (address : Word),
    TableRow (.moveByteAddressRegister register address) 0x0007 [(.register, register)]
      (some (.targetAddress, address)) true ∧
    ByteOutcome (.moveByteAddressRegister register address) s address
      (∃ t, RunsTo (.moveByteAddressRegister register address) s {} t ∧
        Stored s t address.toNat 1 (s.reg register) ∧ SameRest s t) ∧
    TableRow (.moveBytePointerSource pointer source) 0x0009 [(.pointer, pointer), (.source, source)] none true ∧
    ByteOutcome (.moveBytePointerSource pointer source) s (s.reg pointer)
      (∃ t, RunsTo (.moveBytePointerSource pointer source) s {} t ∧
        Stored s t (s.reg pointer).toNat 1 (s.reg source) ∧ SameRest s t) ∧
    TableRow (.moveHalfwordAddressRegister register address) 0x000B [(.register, register)]
      (some (.targetAddress, address)) true ∧
    AccessOutcome (.moveHalfwordAddressRegister register address) s address 2
      (∃ t, RunsTo (.moveHalfwordAddressRegister register address) s {} t ∧
        Stored s t address.toNat 2 (s.reg register) ∧ SameRest s t) ∧
    TableRow (.moveHalfwordPointerSource pointer source) 0x000D [(.pointer, pointer), (.source, source)] none true ∧
    AccessOutcome (.moveHalfwordPointerSource pointer source) s (s.reg pointer) 2
      (∃ t, RunsTo (.moveHalfwordPointerSource pointer source) s {} t ∧
        Stored s t (s.reg pointer).toNat 2 (s.reg source) ∧ SameRest s t)

/-! ### Arithmetic family -/

/-- R171, R175: the sum modulo 2^32; Zero and Carry from the exact sum; DivideByZero unchanged. -/
def Obligations.AddSetsZeroAndCarry : Prop :=
  ∀ (s : State) (target lhs rhs source : Reg) (immediate : Word),
    TableRow (.addTargetLhsRhs target lhs rhs) 0x0010 [(.target, target), (.lhs, lhs), (.rhs, rhs)] none true ∧
    Runs (.addTargetLhsRhs target lhs rhs) s
      { writes := [(target, s.reg lhs + s.reg rhs)]
        zero := some (decide (s.reg lhs + s.reg rhs = 0))
        carry := some (decide (2 ^ 32 ≤ (s.reg lhs).toNat + (s.reg rhs).toNat)) } ∧
    TableRow (.addTargetSourceImmediate target source immediate) 0x0014 [(.target, target), (.source, source)]
      (some (.immediate, immediate)) true ∧
    Runs (.addTargetSourceImmediate target source immediate) s
      { writes := [(target, s.reg source + immediate)]
        zero := some (decide (s.reg source + immediate = 0))
        carry := some (decide (2 ^ 32 ≤ (s.reg source).toNat + immediate.toNat)) }

/-- R172: the sum with the carry in, read at the start of the instruction. -/
def Obligations.AddWithCarryFeedsTheCarryIn : Prop :=
  ∀ (s : State) (target lhs rhs : Reg) (cin : Nat), cin = ((s.reg flagsReg).getLsbD 1).toNat →
    TableRow (.addWithCarryTargetLhsRhs target lhs rhs) 0x0011 [(.target, target), (.lhs, lhs), (.rhs, rhs)] none
      true ∧
    Runs (.addWithCarryTargetLhsRhs target lhs rhs) s
      { writes := [(target, s.reg lhs + s.reg rhs + BitVec.ofNat 32 cin)]
        zero := some (decide (s.reg lhs + s.reg rhs + BitVec.ofNat 32 cin = 0))
        carry := some (decide (2 ^ 32 ≤ (s.reg lhs).toNat + (s.reg rhs).toNat + cin)) }

/-- R173, R176: the difference modulo 2^32; Carry is the borrow; DivideByZero unchanged. -/
def Obligations.SubtractSetsZeroAndBorrow : Prop :=
  ∀ (s : State) (target lhs rhs source : Reg) (immediate : Word),
    TableRow (.subtractTargetLhsRhs target lhs rhs) 0x0012 [(.target, target), (.lhs, lhs), (.rhs, rhs)] none
      true ∧
    Runs (.subtractTargetLhsRhs target lhs rhs) s
      { writes := [(target, s.reg lhs - s.reg rhs)]
        zero := some (decide (s.reg lhs = s.reg rhs))
        carry := some (decide ((s.reg lhs).toNat < (s.reg rhs).toNat)) } ∧
    TableRow (.subtractTargetSourceImmediate target source immediate) 0x0015 [(.target, target), (.source, source)]
      (some (.immediate, immediate)) true ∧
    Runs (.subtractTargetSourceImmediate target source immediate) s
      { writes := [(target, s.reg source - immediate)]
        zero := some (decide (s.reg source = immediate))
        carry := some (decide ((s.reg source).toNat < immediate.toNat)) }

/-- R174: the difference with the borrow in, read at the start of the instruction. -/
def Obligations.SubtractWithCarryFeedsTheBorrowIn : Prop :=
  ∀ (s : State) (target lhs rhs : Reg) (cin : Nat), cin = ((s.reg flagsReg).getLsbD 1).toNat →
    TableRow (.subtractWithCarryTargetLhsRhs target lhs rhs) 0x0013 [(.target, target), (.lhs, lhs), (.rhs, rhs)]
      none true ∧
    Runs (.subtractWithCarryTargetLhsRhs target lhs rhs) s
      { writes := [(target, s.reg lhs - s.reg rhs - BitVec.ofNat 32 cin)]
        zero := some (decide (s.reg lhs - s.reg rhs - BitVec.ofNat 32 cin = 0))
        carry := some (decide ((s.reg lhs).toNat < (s.reg rhs).toNat + cin)) }

/-- R177: the exact 64-bit product in two registers, the low word written last; Zero from the low word, Carry from the
high word. -/
def Obligations.MultiplyIsExact : Prop :=
  ∀ (s : State) (high low lhs rhs : Reg) (p : DWord),
    p = (s.reg lhs).setWidth 64 * (s.reg rhs).setWidth 64 →
    TableRow (.multiplyHighLowLhsRhs high low lhs rhs) 0x0016
      [(.high, high), (.low, low), (.lhs, lhs), (.rhs, rhs)] none true ∧
    p.toNat = (s.reg lhs).toNat * (s.reg rhs).toNat ∧
    Runs (.multiplyHighLowLhsRhs high low lhs rhs) s
      { writes := [(high, p.extractLsb' 32 32), (low, p.extractLsb' 0 32)]
        zero := some (decide (p.extractLsb' 0 32 = 0))
        carry := some (decide (0 < (p.extractLsb' 32 32).toNat)) }

/-- R178: quotient and remainder, or 0 and the dividend for a zero divisor, which is a flag and no fault; Carry
unchanged. -/
def Obligations.DivmodFlagsAZeroDivisor : Prop :=
  ∀ (s : State) (result remainder lhs rhs : Reg),
    TableRow (.divmodTargetModLhsRhs result remainder lhs rhs) 0x0017
      [(.result, result), (.remainder, remainder), (.lhs, lhs), (.rhs, rhs)] none true ∧
    (s.reg rhs = 0 → Runs (.divmodTargetModLhsRhs result remainder lhs rhs) s
      { writes := [(result, 0), (remainder, s.reg lhs)], zero := some true, divideByZero := some true }) ∧
    (s.reg rhs ≠ 0 → ∀ q r : Word, (s.reg lhs).toNat = q.toNat * (s.reg rhs).toNat + r.toNat →
      r.toNat < (s.reg rhs).toNat →
      Runs (.divmodTargetModLhsRhs result remainder lhs rhs) s
        { writes := [(result, q), (remainder, r)], zero := some (decide (q = 0)), divideByZero := some false })

/-! ### Bitwise, shift and compare family -/

/-- R190 to R194: bit by bit, Zero from the result, Carry and DivideByZero unchanged. -/
def Obligations.BitwiseSetsZeroOnly : Prop :=
  ∀ (s : State) (target lhs rhs source : Reg) (v : Word),
    TableRow (.andTargetLhsRhs target lhs rhs) 0x0020 [(.target, target), (.lhs, lhs), (.rhs, rhs)] none true ∧
    ((∀ k, v.getLsbD k = ((s.reg lhs).getLsbD k && (s.reg rhs).getLsbD k)) →
      Runs (.andTargetLhsRhs target lhs rhs) s { writes := [(target, v)], zero := some (decide (v = 0)) }) ∧
    TableRow (.orTargetLhsRhs target lhs rhs) 0x0021 [(.target, target), (.lhs, lhs), (.rhs, rhs)] none true ∧
    ((∀ k, v.getLsbD k = ((s.reg lhs).getLsbD k || (s.reg rhs).getLsbD k)) →
      Runs (.orTargetLhsRhs target lhs rhs) s { writes := [(target, v)], zero := some (decide (v = 0)) }) ∧
    TableRow (.xorTargetLhsRhs target lhs rhs) 0x0022 [(.target, target), (.lhs, lhs), (.rhs, rhs)] none true ∧
    ((∀ k, v.getLsbD k = ((s.reg lhs).getLsbD k != (s.reg rhs).getLsbD k)) →
      Runs (.xorTargetLhsRhs target lhs rhs) s { writes := [(target, v)], zero := some (decide (v = 0)) }) ∧
    TableRow (.notTargetSource target source) 0x0023 [(.target, target), (.source, source)] none true ∧
    ((∀ k, k < 32 → v.getLsbD k = !(s.reg source).getLsbD k) →
      Runs (.notTargetSource target source) s { writes := [(target, v)], zero := some (decide (v = 0)) })

/-- R196, R197: logical shifts by the whole u32 amount; Carry when a 1 bit was shifted out; DivideByZero unchanged. -/
def Obligations.ShiftsCarryShiftedOutBits : Prop :=
  ∀ (s : State) (target lhs rhs : Reg) (a v : Word) (n : Nat), a = s.reg lhs → n = (s.reg rhs).toNat →
    TableRow (.leftShiftTargetLhsRhs target lhs rhs) 0x0024 [(.target, target), (.lhs, lhs), (.rhs, rhs)] none
      true ∧
    ((∀ k, v.getLsbD k = (decide (k < 32) && decide (n ≤ k) && a.getLsbD (k - n))) →
      Runs (.leftShiftTargetLhsRhs target lhs rhs) s
        { writes := [(target, v)], zero := some (decide (v = 0))
          carry := some ((List.range 32).any fun k => decide (32 ≤ k + n) && a.getLsbD k) }) ∧
    TableRow (.rightShiftTargetLhsRhs target lhs rhs) 0x0025 [(.target, target), (.lhs, lhs), (.rhs, rhs)] none
      true ∧
    ((∀ k, v.getLsbD k = a.getLsbD (k + n)) →
      Runs (.rightShiftTargetLhsRhs target lhs rhs) s
        { writes := [(target, v)], zero := some (decide (v = 0))
          carry := some ((List.range 32).any fun k => decide (k < n) && a.getLsbD k) })

/-- R198: all ones, zero or one by the unsigned order; Zero is equality; Carry and DivideByZero unchanged. -/
def Obligations.CompareIsTriState : Prop :=
  ∀ (s : State) (target lhs rhs : Reg),
    TableRow (.compareTargetLhsRhs target lhs rhs) 0x0026 [(.target, target), (.lhs, lhs), (.rhs, rhs)] none true ∧
    ((s.reg lhs).toNat < (s.reg rhs).toNat → Runs (.compareTargetLhsRhs target lhs rhs) s
      { writes := [(target, 0xFFFFFFFF)], zero := some false }) ∧
    (s.reg lhs = s.reg rhs → Runs (.compareTargetLhsRhs target lhs rhs) s
      { writes := [(target, 0)], zero := some true }) ∧
    ((s.reg rhs).toNat < (s.reg lhs).toNat → Runs (.compareTargetLhsRhs target lhs rhs) s
      { writes := [(target, 1)], zero := some false })

/-- R199 to R205: the six unsigned relations as a plain 0 or 1, no flag touched. -/
def Obligations.BoolComparesStoreZeroOrOne : Prop :=
  ∀ (s : State) (target lhs rhs : Reg) (a b : Nat), a = (s.reg lhs).toNat → b = (s.reg rhs).toNat →
    TableRow (.boolCompareEquals target lhs rhs) 0x0027 [(.target, target), (.lhs, lhs), (.rhs, rhs)] none true ∧
    Runs (.boolCompareEquals target lhs rhs) s { writes := [(target, if a = b then 1 else 0)] } ∧
    TableRow (.boolCompareNotEquals target lhs rhs) 0x0028 [(.target, target), (.lhs, lhs), (.rhs, rhs)] none
      true ∧
    Runs (.boolCompareNotEquals target lhs rhs) s { writes := [(target, if a ≠ b then 1 else 0)] } ∧
    TableRow (.boolCompareGreater target lhs rhs) 0x0029 [(.target, target), (.lhs, lhs), (.rhs, rhs)] none true ∧
    Runs (.boolCompareGreater target lhs rhs) s { writes := [(target, if b < a then 1 else 0)] } ∧
    TableRow (.boolCompareGreaterOrEquals target lhs rhs) 0x002A [(.target, target), (.lhs, lhs), (.rhs, rhs)] none
      true ∧
    Runs (.boolCompareGreaterOrEquals target lhs rhs) s { writes := [(target, if b ≤ a then 1 else 0)] } ∧
    TableRow (.boolCompareLess target lhs rhs) 0x002B [(.target, target), (.lhs, lhs), (.rhs, rhs)] none true ∧
    Runs (.boolCompareLess target lhs rhs) s { writes := [(target, if a < b then 1 else 0)] } ∧
    TableRow (.boolCompareLessOrEquals target lhs rhs) 0x002C [(.target, target), (.lhs, lhs), (.rhs, rhs)] none
      true ∧
    Runs (.boolCompareLessOrEquals target lhs rhs) s { writes := [(target, if a ≤ b then 1 else 0)] }

/-! ### Stack, call and return family -/

/-- R220, R222, R223: a push stores the word at `sp`, then advances `sp` by 4; outside the stack region it takes the
fault and writes nothing. -/
def Obligations.PushStoresThenAdvances : Prop :=
  ∀ (s : State) (register : Reg) (immediate : Word), s.cfg.admitted = true →
    TableRow (.pushRegister register) 0x0030 [(.register, register)] none true ∧
    StackOutcome (.pushRegister register) s s.sp
      (∃ t, RunsTo (.pushRegister register) s { writes := [(spReg, s.sp + 4)] } t ∧
        Stored s t s.sp.toNat 4 (s.reg register) ∧ SameRest s t) ∧
    TableRow (.pushImmediate immediate) 0x0031 [] (some (.immediate, immediate)) true ∧
    StackOutcome (.pushImmediate immediate) s s.sp
      (∃ t, RunsTo (.pushImmediate immediate) s { writes := [(spReg, s.sp + 4)] } t ∧
        Stored s t s.sp.toNat 4 immediate ∧ SameRest s t)

/-- R221, R224, R225: a pop retreats `sp` by 4, then reads the word there; the register write follows the pointer
update; outside the stack region it takes the fault and changes nothing. -/
def Obligations.PopRetreatsThenReads : Prop :=
  ∀ (s : State) (register : Reg), s.cfg.admitted = true →
    TableRow (.popRegister register) 0x0032 [(.register, register)] none true ∧
    StackOutcome (.popRegister register) s (s.sp - 4)
      (Runs (.popRegister register) s
        { writes := [(spReg, s.sp - 4), (register, s.wordAt (s.sp - 4).toNat)] }) ∧
    TableRow .pop 0x0033 [] none true ∧
    StackOutcome .pop s (s.sp - 4) (Runs .pop s { writes := [(spReg, s.sp - 4)] })

/-- R226, R227: a call pushes the address of the next instruction and goes to its target, which is read before the push;
if the push faults, `ip` keeps the call's address. -/
def Obligations.CallPushesTheReturnAddress : Prop :=
  ∀ (s : State) (register : Reg) (address : Word), s.cfg.admitted = true →
    TableRow (.callAddress address) 0x0034 [] (some (.targetAddress, address)) false ∧
    StackOutcome (.callAddress address) s s.sp
      (∃ t, RunsTo (.callAddress address) s
          { writes := [(spReg, s.sp + 4), (ipReg, address)], advance := 0 } t ∧
        Stored s t s.sp.toNat 4 (s.ip + 8) ∧ SameRest s t) ∧
    TableRow (.callRegister register) 0x0035 [(.register, register)] none false ∧
    StackOutcome (.callRegister register) s s.sp
      (∃ t, RunsTo (.callRegister register) s
          { writes := [(spReg, s.sp + 4), (ipReg, s.reg register)], advance := 0 } t ∧
        Stored s t s.sp.toNat 4 (s.ip + 8) ∧ SameRest s t)

/-- R228: a return pops an address and goes to it. -/
def Obligations.ReturnPopsItsTarget : Prop :=
  ∀ s : State, s.cfg.admitted = true →
    TableRow .returnFromCall 0x0036 [] none false ∧
    StackOutcome .returnFromCall s (s.sp - 4)
      (Runs .returnFromCall s
        { writes := [(spReg, s.sp - 4), (ipReg, s.wordAt (s.sp - 4).toNat)], advance := 0 })

/-- The document's stack property (95_test_vectors.md W5): a push and a pop give the word back and restore `sp`. -/
def Obligations.PushThenPopGivesTheWordBack : Prop :=
  ∀ (s : State) (register : Reg) (immediate : Word), s.cfg.admitted = true → InStack s.cfg s.sp →
    register.toNat < 253 →
    ∃ t u, exec (.pushImmediate immediate) s = .next t ∧ exec (.popRegister register) t = .next u ∧
      u.reg register = immediate ∧ u.sp = s.sp ∧ u.ip = s.ip + 16 ∧ u.fault = s.fault

/-- A call and the return from it come back after the call with the stack pointer restored. -/
def Obligations.CallThenReturnComesBack : Prop :=
  ∀ (s : State) (address : Word), s.cfg.admitted = true → InStack s.cfg s.sp →
    ∃ t u, exec (.callAddress address) s = .next t ∧ t.ip = address ∧ exec .returnFromCall t = .next u ∧
      u.ip = s.ip + 8 ∧ u.sp = s.sp ∧ u.fault = s.fault ∧ ∀ q : Reg, q ≠ ipReg → u.reg q = s.reg q

/-! ### Jump family -/

/-- R241, R242: an unconditional jump sets `ip` to its target, unchecked, and nothing else. -/
def Obligations.JumpsSetTheInstructionPointer : Prop :=
  ∀ (s : State) (register : Reg) (address : Word),
    TableRow (.jumpImmediate address) 0x0040 [] (some (.targetAddress, address)) false ∧
    Runs (.jumpImmediate address) s { writes := [(ipReg, address)], advance := 0 } ∧
    TableRow (.jumpRegister register) 0x0041 [(.register, register)] none false ∧
    Runs (.jumpRegister register) s { writes := [(ipReg, s.reg register)], advance := 0 }

/-- R243 to R248: the compare-register jumps test for exact equality with the tri-state codes; any other value falls
through to the next instruction. -/
def Obligations.CompareJumpsMatchExactly : Prop :=
  ∀ (s : State) (comparison : Reg) (address c : Word), c = s.reg comparison →
    TableRow (.jumpImmediateIfEqual comparison address) 0x0042 [(.comparison, comparison)]
      (some (.targetAddress, address)) false ∧
    Runs (.jumpImmediateIfEqual comparison address) s
      { writes := [(ipReg, if c = 0 then address else s.ip + 8)], advance := 0 } ∧
    TableRow (.jumpImmediateIfGreaterThan comparison address) 0x0043 [(.comparison, comparison)]
      (some (.targetAddress, address)) false ∧
    Runs (.jumpImmediateIfGreaterThan comparison address) s
      { writes := [(ipReg, if c = 1 then address else s.ip + 8)], advance := 0 } ∧
    TableRow (.jumpImmediateIfLessThan comparison address) 0x0044 [(.comparison, comparison)]
      (some (.targetAddress, address)) false ∧
    Runs (.jumpImmediateIfLessThan comparison address) s
      { writes := [(ipReg, if c = 0xFFFFFFFF then address else s.ip + 8)], advance := 0 } ∧
    TableRow (.jumpImmediateIfGreaterThanOrEqual comparison address) 0x0045 [(.comparison, comparison)]
      (some (.targetAddress, address)) false ∧
    Runs (.jumpImmediateIfGreaterThanOrEqual comparison address) s
      { writes := [(ipReg, if c = 1 ∨ c = 0 then address else s.ip + 8)], advance := 0 } ∧
    TableRow (.jumpImmediateIfLessThanOrEqual comparison address) 0x0046 [(.comparison, comparison)]
      (some (.targetAddress, address)) false ∧
    Runs (.jumpImmediateIfLessThanOrEqual comparison address) s
      { writes := [(ipReg, if c = 0xFFFFFFFF ∨ c = 0 then address else s.ip + 8)], advance := 0 }

/-- R249 to R255: the flag jumps read one bit of FLAGS, ignore the others, and write no flag. -/
def Obligations.FlagJumpsReadOneFlag : Prop :=
  ∀ (s : State) (address : Word) (f : Nat → Bool), (∀ k, f k = (s.reg flagsReg).getLsbD k) →
    TableRow (.jumpImmediateIfZero address) 0x0047 [] (some (.targetAddress, address)) false ∧
    Runs (.jumpImmediateIfZero address) s
      { writes := [(ipReg, if f 0 then address else s.ip + 8)], advance := 0 } ∧
    TableRow (.jumpImmediateIfNotZero address) 0x0048 [] (some (.targetAddress, address)) false ∧
    Runs (.jumpImmediateIfNotZero address) s
      { writes := [(ipReg, if f 0 then s.ip + 8 else address)], advance := 0 } ∧
    TableRow (.jumpImmediateIfCarry address) 0x0049 [] (some (.targetAddress, address)) false ∧
    Runs (.jumpImmediateIfCarry address) s
      { writes := [(ipReg, if f 1 then address else s.ip + 8)], advance := 0 } ∧
    TableRow (.jumpImmediateIfNotCarry address) 0x004A [] (some (.targetAddress, address)) false ∧
    Runs (.jumpImmediateIfNotCarry address) s
      { writes := [(ipReg, if f 1 then s.ip + 8 else address)], advance := 0 } ∧
    TableRow (.jumpImmediateIfDivideByZero address) 0x004B [] (some (.targetAddress, address)) false ∧
    Runs (.jumpImmediateIfDivideByZero address) s
      { writes := [(ipReg, if f 2 then address else s.ip + 8)], advance := 0 } ∧
    TableRow (.jumpImmediateIfNotDivideByZero address) 0x004C [] (some (.targetAddress, address)) false ∧
    Runs (.jumpImmediateIfNotDivideByZero address) s
      { writes := [(ipReg, if f 2 then s.ip + 8 else address)], advance := 0 }

/-! ### I/O family -/

/-- R261: the key code is read from a register and passed to the host as it is; Down gives 1 and Up gives 0. The answer
is a free value, drawn afresh by the model's own counter (log entry 5): the statement holds whatever it is. -/
def Obligations.KeyStateIsTheHostsAnswer : Prop :=
  ∀ (s : State) (target keycode : Reg),
    TableRow (.getKeyState target keycode) 0x0050 [(.target, target), (.keycode, keycode)] none true ∧
    ∃ t, RunsTo (.getKeyState target keycode) s
        { writes := [(target, if Config.keyDown s.draws (s.reg keycode) then 1 else 0)] } t ∧
      SameMemory s t ∧ t.draws = s.draws + 1 ∧ t.checkpoint = s.checkpoint ∧
      t.fbFirstVisible = s.fbFirstVisible ∧ t.debugOut = s.debugOut

/-- R262: the wall clock, a free value drawn afresh by the model's own counter (log entry 5), is split into its high and
low words, the low word written last. -/
def Obligations.PollTimeSplitsTheClock : Prop :=
  ∀ (s : State) (high low : Reg),
    TableRow (.pollTime high low) 0x0051 [(.high, high), (.low, low)] none true ∧
    ∃ t, RunsTo (.pollTime high low) s
        { writes := [(high, (Config.timeMs s.draws).extractLsb' 32 32),
                     (low, (Config.timeMs s.draws).extractLsb' 0 32)] } t ∧
      SameMemory s t ∧ t.draws = s.draws + 1 ∧ t.checkpoint = s.checkpoint ∧
      t.fbFirstVisible = s.fbFirstVisible ∧ t.debugOut = s.debugOut

/-- R263, R264: the swap toggles which framebuffer is visible and changes no byte; the address instruction gives the
start of the one that is not. -/
def Obligations.FramebuffersSwap : Prop :=
  ∀ (s : State) (target : Reg),
    TableRow .swapFramebuffers 0x0052 [] none true ∧
    (∃ t, RunsTo .swapFramebuffers s {} t ∧ SameMemory s t ∧ t.fbFirstVisible = !s.fbFirstVisible ∧
      t.draws = s.draws ∧ t.checkpoint = s.checkpoint ∧ t.debugOut = s.debugOut) ∧
    TableRow (.invisibleFramebufferAddress target) 0x0053 [(.target, target)] none true ∧
    (s.fbFirstVisible = true → Runs (.invisibleFramebufferAddress target) s
      { writes := [(target, BitVec.ofNat 32 s.cfg.framebuffer1Start)] }) ∧
    (s.fbFirstVisible = false → Runs (.invisibleFramebufferAddress target) s
      { writes := [(target, BitVec.ofNat 32 s.cfg.framebuffer0Start)] })

/-- R265: the cycle counter is read before the instruction's own cost is added, the low word written last. -/
def Obligations.CycleCountReadBeforeItsOwnCost : Prop :=
  ∀ (s : State) (high low : Reg),
    TableRow (.pollCycleCountHighLow high low) 0x0054 [(.high, high), (.low, low)] none true ∧
    Runs (.pollCycleCountHighLow high low) s
      { writes := [(high, s.cycles.extractLsb' 32 32), (low, s.cycles.extractLsb' 0 32)] }

/-! ### System and debug family -/

/-- R271, R358, R359: the halt sets the halted flag, keeps `ip` and every other register, and pays its cost; the halted
machine executes nothing more, and the host process ends exactly under the exit-on-halt policy. -/
def Obligations.HaltStopsTheMachine : Prop :=
  ∀ s : State, TableRow .haltAndCatchFire 0x0061 [] none false ∧
    ∃ t, exec .haltAndCatchFire s = .next t ∧
      t = { s with halted := true, cycles := s.cycles + BitVec.ofNat 64 (s.cfg.cost .haltAndCatchFire) } ∧
      step t = .next t ∧ t.hostTerminates = s.cfg.exitOnHalt ∧ (s.fault = none → t.status = .halted)

/-- R270, R273, R274, R278: NoOp only advances; the dumps and the breakpoint send their event, with `ip` not yet
advanced, and otherwise only advance. The list of events is the model's form of the side channel (log entry 9). -/
def Obligations.NoOpDumpsAndBreakpointOnlyAdvance : Prop :=
  ∀ s : State,
    TableRow .noOp 0x0060 [] none true ∧ Runs .noOp s {} ∧
    TableRow .dumpRegisters 0x0062 [] none true ∧ Emits .dumpRegisters s (.dumpRegisters s.regs) ∧
    TableRow .dumpMemory 0x0063 [] none true ∧ Emits .dumpMemory s (.dumpMemory s.mem) ∧
    TableRow .debugBreak 0x0067 [] none true ∧ Emits .debugBreak s (.breakpoint s.ip)

/-- R275, R276: an assertion on equal values only advances; on different values it faults under Strict and logs under
Lenient, as an event of the model's list (log entry 9). -/
def Obligations.RegisterAssertionsCompare : Prop :=
  ∀ (s : State) (expected actual : Reg) (immediate : Word),
    TableRow (.assertRegisterRegister expected actual) 0x0064 [(.expected, expected), (.actual, actual)] none
      true ∧
    CheckOutcome (.assertRegisterRegister expected actual) s (s.reg expected = s.reg actual)
      (.assertionFailed (s.reg expected) (s.reg actual)) (.assertionFailed (s.reg expected) (s.reg actual))
      (Runs (.assertRegisterRegister expected actual) s {}) ∧
    TableRow (.assertRegisterImmediate actual immediate) 0x0065 [(.actual, actual)]
      (some (.immediate, immediate)) true ∧
    CheckOutcome (.assertRegisterImmediate actual immediate) s (immediate = s.reg actual)
      (.assertionFailed immediate (s.reg actual)) (.assertionFailed immediate (s.reg actual))
      (Runs (.assertRegisterImmediate actual immediate) s {})

/-- R277: the pointer assertion reads the word first, so a bad pointer faults under both policies, then compares;
the log of a Lenient failure is an event of the model's list (log entry 9). -/
def Obligations.PointerAssertionReadsFirst : Prop :=
  ∀ (s : State) (pointer : Reg) (immediate : Word),
    TableRow (.assertPointerImmediate pointer immediate) 0x0066 [(.pointer, pointer)]
      (some (.immediate, immediate)) true ∧
    AccessOutcome (.assertPointerImmediate pointer immediate) s (s.reg pointer) 4
      (CheckOutcome (.assertPointerImmediate pointer immediate) s
        (immediate = s.wordAt (s.reg pointer).toNat)
        (.assertionFailed immediate (s.wordAt (s.reg pointer).toNat))
        (.assertionFailed immediate (s.wordAt (s.reg pointer).toNat))
        (Runs (.assertPointerImmediate pointer immediate) s {}))

/-- R279: a matching checkpoint advances the counter modulo 2^32; a mismatch faults under Strict, and under Lenient logs
(an event of the model's list, log entry 9) and leaves the counter. -/
def Obligations.CheckpointAdvancesOnAMatch : Prop :=
  ∀ (s : State) (immediate : Word),
    TableRow (.checkpoint immediate) 0x0068 [] (some (.immediate, immediate)) true ∧
    CheckOutcome (.checkpoint immediate) s (immediate = s.checkpoint)
      (.checkpointMismatch immediate s.checkpoint) (.checkpointMismatch immediate s.checkpoint)
      (∃ t, RunsTo (.checkpoint immediate) s {} t ∧ SameMemory s t ∧ t.checkpoint = s.checkpoint + 1 ∧
        t.fbFirstVisible = s.fbFirstVisible ∧ t.draws = s.draws ∧ t.debugOut = s.debugOut)

/-! ### Decoding and encoding -/

/-- R127: decoding an encoded well-formed instruction gives it back, for every configuration whose codes are distinct;
and encoding a decoded word gives the word back exactly when its padding is zero. -/
def Obligations.DecodeAndEncodeAgree : Prop :=
  (∀ (c : Codec) (i : Instr), c.Distinct → i.wf c = true → decode c (encode c i) = .ok i) ∧
  ∀ (c : Codec) (w : DWord) (i : Instr), decode c w = .ok i →
    (encode c i = w ↔ ∀ j, PaddingByte i.opcode j → wordByte w j = 0)

/-- R118, R119, R120, R133, R135: what decoding answers for every word: the opcode is checked first, then the registers
in declared order, then the padding. -/
def Obligations.DecodeChecksInOrder : Prop :=
  ∀ (c : Codec) (w : DWord) (code : Code), code = w.extractLsb' 48 16 →
    ((∀ op, c.code op ≠ code) → decode c w = .error (.unknownOpcode code)) ∧
    ∀ op, c.Distinct → c.code op = code →
      (∀ (k : Nat) (role : Role), op.roles[k]? = some role → c.reserved = .fault →
        253 ≤ (w.extractLsb' (40 - 8 * k) 8).toNat → (∀ j, j < k → (w.extractLsb' (40 - 8 * j) 8).toNat < 253) →
        decode c w = .error (.reservedRegisterOperand role (w.extractLsb' (40 - 8 * k) 8))) ∧
      ((c.reserved = .direct ∨ ∀ k, k < op.roles.length → (w.extractLsb' (40 - 8 * k) 8).toNat < 253) →
        (c.padding = .fault → (∃ j, PaddingByte op j ∧ w.extractLsb' (56 - 8 * j) 8 ≠ 0) →
          decode c w = .error (.paddingNotZero w)) ∧
        ((c.padding = .ignore ∨ ∀ j, PaddingByte op j → w.extractLsb' (56 - 8 * j) 8 = 0) →
          ∃ i, decode c w = .ok i ∧ i.opcode = op ∧
            i.regs = (List.range op.roles.length).map (fun k => w.extractLsb' (40 - 8 * k) 8) ∧
            i.extra = if op.extraKind.isSome then some (w.extractLsb' 0 32) else none))

/-- R124, R125: the encoder's errors, in order, and the word it gives for the operands of an instruction. -/
def Obligations.EncoderChecksItsCall : Prop :=
  ∀ (c : Codec) (op : Opcode) (regs : List Nat) (extra : Option Nat),
    (regs.length ≠ op.roles.length → encodeCall c op regs extra = .error (.operandArityMismatch op)) ∧
    (regs.length = op.roles.length →
      (op.extraKind.isSome = true → extra = none → encodeCall c op regs extra = .error (.missingOperand op)) ∧
      (op.extraKind = none → extra.isSome = true → encodeCall c op regs extra = .error (.unexpectedOperand op)) ∧
      (op.extraKind.isSome = extra.isSome →
        (∀ (k r : Nat), regs[k]? = some r → 255 < r → (∀ (j q : Nat), j < k → regs[j]? = some q → q ≤ 255) →
          encodeCall c op regs extra = .error (.registerOutOfRange r)) ∧
        ((∀ r ∈ regs, r ≤ 255) →
          (∀ x, extra = some x → 2 ^ 32 - 1 < x → encodeCall c op regs extra = .error (.operandArityMismatch op)) ∧
          ((∀ x, extra = some x → x ≤ 2 ^ 32 - 1) →
            ∃ i : Instr, i.opcode = op ∧ i.regs.map BitVec.toNat = regs ∧ i.extra.map BitVec.toNat = extra ∧
              encodeCall c op regs extra = .ok (encode c i)))))

/-- R143: the worked encodings decode to their instructions, under the default codes. -/
def Obligations.WorkedEncodingsDecode : Prop :=
  decode Codec.std 0x0000050000001234 = .ok (.moveRegisterImmediate 5 0x1234) ∧
  decode Codec.std 0x0010030102000000 = .ok (.addTargetLhsRhs 3 1 2) ∧
  decode Codec.std 0x0017040501020000 = .ok (.divmodTargetModLhsRhs 4 5 1 2) ∧
  decode Codec.std 0x00440700000C0800 = .ok (.jumpImmediateIfLessThan 7 0x000C0800) ∧
  decode Codec.std 0x00140101FFFFFFFF = .ok (.addTargetSourceImmediate 1 1 0xFFFFFFFF) ∧
  decode Codec.std 0x0061000000000000 = .ok .haltAndCatchFire ∧
  decode Codec.std 0x00FF000000000000 = .error (.unknownOpcode 0x00FF) ∧
  decode Codec.std 0x0002FD0100000000 = .error (.reservedRegisterOperand .target 253) ∧
  decode Codec.std 0x000005AB00001234 = .ok (.moveRegisterImmediate 5 0x1234)

/-- R139: the default table passes the validation of R114, and the largest bit budget is 64. -/
def Obligations.DefaultTableIsValid : Prop :=
  tableFault Codec.std = none ∧ Codec.std.Distinct ∧ (∀ op : Opcode, op.bitBudget ≤ 64) ∧
  Opcode.addTargetSourceImmediate.bitBudget = 64 ∧ Opcode.subtractTargetSourceImmediate.bitBudget = 64 ∧
  Opcode.multiplyHighLowLhsRhs.bitBudget = 48 ∧ Opcode.divmodTargetModLhsRhs.bitBudget = 48

/-! ### Registers, flags and memory -/

/-- R31: register read and write, with the failure above 255; no register is hard-wired. -/
def Obligations.RegistersHoldWhatIsWritten : Prop :=
  ∀ (s : State) (i v : Nat),
    (256 ≤ i → s.readIndex i = .error (.registerOutOfRange i) ∧ s.writeIndex i v = .error (.registerOutOfRange i)) ∧
    (i < 256 → ∃ t, s.writeIndex i v = .ok t ∧ t.readIndex i = .ok (BitVec.ofNat 32 v) ∧
      (∀ j, j ≠ i → t.readIndex j = s.readIndex j) ∧ t = { s with regs := t.regs })

/-- R40: a flag write sets its own bit and keeps every other bit of FLAGS; a flag read gives its bit. -/
def Obligations.FlagAccessorsKeepOtherBits : Prop :=
  ∀ (s : State) (f : Flag) (b : Bool),
    s.getFlag f = (s.reg flagsReg).getLsbD f.bitpos ∧ (s.setFlag f b).getFlag f = b ∧
    (∀ k, k ≠ f.bitpos → ((s.setFlag f b).reg flagsReg).getLsbD k = (s.reg flagsReg).getLsbD k) ∧
    (∀ q, q ≠ flagsReg → (s.setFlag f b).reg q = s.reg q) ∧
    Flag.zero.bitpos = 0 ∧ Flag.carry.bitpos = 1 ∧ Flag.divideByZero.bitpos = 2

/-- R78, R79: the checked memory accesses at every width, big-endian, alignment before bounds; a faulting write changes
no byte. -/
def Obligations.MemoryAccessesAreBigEndian : Prop :=
  ∀ (s : State) (a : Word) (w : Width) (v n : Nat), n = w.bytes →
    (a.toNat % n ≠ 0 →
      s.memRead a w = .error (.unalignedAccess a n) ∧ s.memWrite a w v = .error (.unalignedAccess a n)) ∧
    (a.toNat % n = 0 → memorySize < a.toNat + n →
      s.memRead a w = .error (.outOfBounds a n) ∧ s.memWrite a w v = .error (.outOfBounds a n)) ∧
    (a.toNat % n = 0 → a.toNat + n ≤ memorySize →
      s.memRead a w = .ok (∑ k ∈ Finset.range n, (s.mem.byte (a.toNat + k)).toNat * 2 ^ (8 * (n - 1 - k))) ∧
      ∃ t, s.memWrite a w v = .ok t ∧ t = { s with mem := t.mem } ∧
        (∀ k, k < n → (t.mem.byte (a.toNat + k)).toNat = v / 2 ^ (8 * (n - 1 - k)) % 256) ∧
        ∀ b, (b < a.toNat ∨ a.toNat + n ≤ b) → t.mem.byte b = s.mem.byte b)

/-- A read after a write of the same width at the same address gives the low bytes of the value written (R88). -/
def Obligations.ReadAfterWriteGivesTheValue : Prop :=
  ∀ (s t : State) (a : Word) (w : Width) (v : Nat), s.memWrite a w v = .ok t →
    t.memRead a w = .ok (v % 2 ^ (8 * w.bytes)) ∧
    ∀ (b : Word) (x : Width), (b.toNat + x.bytes ≤ a.toNat ∨ a.toNat + w.bytes ≤ b.toNat) →
      t.memRead b x = s.memRead b x

/-! ### The step -/

/-- R91, the instruction case: when the slot of `ip` holds, or memory there decodes to, an instruction, the step is
`exec` of it, at the state whose slot the lazy fill has filled if it was Empty. The step adds nothing around `exec`. -/
def Obligations.StepRunsTheDecodedInstruction : Prop :=
  ∀ (s : State) (i : Instr), RunsAlone s → Fetchable s.cfg s.ip →
    (s.icache.get (s.ip.toNat / 8) = .decoded i → step s = exec i s) ∧
    (s.icache.get (s.ip.toNat / 8) = .empty → decode s.cfg.codec (s.dwordAt s.ip.toNat) = .ok i →
      step s = exec i { s with icache := s.icache.put (s.ip.toNat / 8) (.decoded i) })

/-- R90, R91: the fetch faults in their order, and the fault of a slot that does not decode, when it is executed. -/
def Obligations.FetchFaultsInOrder : Prop :=
  ∀ s : State, RunsAlone s →
    (s.ip.toNat % 8 ≠ 0 → step s = .next { s with fault := some ⟨.unalignedAccess s.ip 8, s.ip⟩ }) ∧
    (s.ip.toNat % 8 = 0 → memorySize < s.ip.toNat + 8 →
      step s = .next { s with fault := some ⟨.outOfBounds s.ip 8, s.ip⟩ }) ∧
    (Accessible s.ip 8 → s.ip.toNat < s.cfg.entryPoint →
      step s = .next { s with fault := some ⟨.fetchOutsideCache s.ip, s.ip⟩ }) ∧
    (Fetchable s.cfg s.ip → ∀ e : DecodeError,
      (s.icache.get (s.ip.toNat / 8) = .undecodable e →
        step s = .next { s with fault := some ⟨decodeFault e, s.ip⟩ }) ∧
      (s.icache.get (s.ip.toNat / 8) = .empty → decode s.cfg.codec (s.dwordAt s.ip.toNat) = .error e →
        step s = .next { s with
          icache := s.icache.put (s.ip.toNat / 8) (.undecodable e)
          fault := some ⟨decodeFault e, s.ip⟩ }))

/-- R351: a halted or faulted machine stays as it is. -/
def Obligations.StoppedMachineStays : Prop :=
  ∀ s : State, (s.halted = true ∨ s.fault ≠ none) → step s = .next s

/-- Every instruction and every step answers a next state: the machine never refuses, and a fault is a next state with
the fault record (70_reset_and_hazards.md, the step function; log entry 7 is the model's choice of form). -/
def Obligations.EveryStepAnswersANextState : Prop :=
  (∀ (i : Instr) (s : State), ∃ t, exec i s = .next t) ∧ ∀ s : State, ∃ t, step s = .next t

/-- R300, R301: a step that faults writes nothing but the fault record, with the address of the faulting instruction, and
the lazy fill of its own Empty slot; and its kind is one that the table says a program can reach, codes 1 to 8. -/
def Obligations.FaultsArePrecise : Prop :=
  ∀ (s t : State) (r : FaultRecord), s.cfg.hostRegenerates = .bootOnly → s.fault = none → step s = .next t →
    t.fault = some r →
    r.ip = s.ip ∧ 1 ≤ r.kind.code ∧ r.kind.code ≤ 8 ∧ t = { s with fault := some r, icache := t.icache } ∧
    ∀ slot, t.icache.get slot = s.icache.get slot ∨
      (slot = s.ip.toNat / 8 ∧ s.icache.get slot = .empty ∧
        t.icache.get slot = decodeEntry s.cfg.codec (s.dwordAt s.ip.toNat))

/-- Every step keeps the invariant: canonical memory and cache, a cache of decode results that covers the program
region, an admitted configuration, and never both halted and faulted. -/
def Obligations.EveryStepKeepsTheInvariant : Prop :=
  ∀ s t : State, Inv s → step s = .next t → Inv t

/-- The reset state meets the invariant. -/
def Obligations.ResetMeetsTheInvariant : Prop := Inv State.reset

/-- R51: the parameters are fixed for a run. -/
def Obligations.ConfigurationIsFixed : Prop :=
  (∀ (i : Instr) (s t : State), exec i s = .next t → t.cfg = s.cfg) ∧
  ∀ s t : State, step s = .next t → t.cfg = s.cfg

/-- R97, R49: no instruction changes the instruction cache, a store included; and when the host regenerates at boot
only, no step changes a cache that the boot has generated. -/
def Obligations.ExecutionNeverChangesTheCache : Prop :=
  (∀ (i : Instr) (s t : State), exec i s = .next t → t.icache = s.icache) ∧
  ∀ s t : State, s.cfg.hostRegenerates = .bootOnly → CacheGenerated s → step s = .next t → t.icache = s.icache

/-- R46: only the halt sets the halted flag, and nothing clears it. -/
def Obligations.OnlyTheHaltHalts : Prop :=
  (∀ (i : Instr) (s t : State), exec i s = .next t → s.halted = false → t.halted = true →
    i = .haltAndCatchFire) ∧
  (∀ (i : Instr) (s t : State), exec i s = .next t → s.halted = true → t.halted = true) ∧
  ∀ s t : State, step s = .next t → s.halted = true → t.halted = true

/-- The flag writers of the table of R41, where no instruction names FLAGS as an operand: every instruction not listed
for a flag leaves it, and bits 31:3 are never changed (R36, R40). -/
def Obligations.OnlyListedInstructionsWriteFlags : Prop :=
  ∀ (i : Instr) (s t : State), s.cfg.codec.reserved = .fault → i.wf s.cfg.codec = true → exec i s = .next t →
    (∀ k, 3 ≤ k → t.flags.getLsbD k = s.flags.getLsbD k) ∧
    (i.opcode ≠ .divmodTargetModLhsRhs → t.flags.getLsbD 2 = s.flags.getLsbD 2) ∧
    (i.opcode ∉ [Opcode.addTargetLhsRhs, .addTargetSourceImmediate, .addWithCarryTargetLhsRhs, .subtractTargetLhsRhs,
        .subtractTargetSourceImmediate, .subtractWithCarryTargetLhsRhs, .multiplyHighLowLhsRhs,
        .leftShiftTargetLhsRhs, .rightShiftTargetLhsRhs] → t.flags.getLsbD 1 = s.flags.getLsbD 1) ∧
    (i.opcode ∉ [Opcode.addTargetLhsRhs, .addTargetSourceImmediate, .addWithCarryTargetLhsRhs, .subtractTargetLhsRhs,
        .subtractTargetSourceImmediate, .subtractWithCarryTargetLhsRhs, .multiplyHighLowLhsRhs,
        .divmodTargetModLhsRhs, .andTargetLhsRhs, .orTargetLhsRhs, .xorTargetLhsRhs, .notTargetSource,
        .leftShiftTargetLhsRhs, .rightShiftTargetLhsRhs, .compareTargetLhsRhs] →
      t.flags.getLsbD 0 = s.flags.getLsbD 0)

/-- Where no instruction names SP as an operand, only the stack, call and return instructions write it (R38). -/
def Obligations.OnlyStackInstructionsMoveTheStackPointer : Prop :=
  ∀ (i : Instr) (s t : State), s.cfg.codec.reserved = .fault → i.wf s.cfg.codec = true → exec i s = .next t →
    i.opcode ∉ [Opcode.pushRegister, .pushImmediate, .popRegister, .pop, .callAddress, .callRegister,
      .returnFromCall] → t.sp = s.sp

/-! ### The instruction cache, the boot and the reset -/

/-- R345: cache generation over a region: rejected regions change nothing, an accepted region holds the decode of
memory, every other slot of the program region is unchanged, and the defaults are the whole program region. -/
def Obligations.CacheGenerationCoversItsRegion : Prop :=
  ∀ (c : Config) (m : Memory) (ic : ICache) (start size : Nat),
    ((start < c.entryPoint ∨ start % 8 ≠ 0 ∨ size % 8 ≠ 0 ∨ memorySize < start + size) →
      generateCache c m ic ⟨some start, some size⟩ = .error (.invalidCacheRegion start size)) ∧
    (c.entryPoint ≤ start → start % 8 = 0 → size % 8 = 0 → start + size ≤ memorySize →
      ∃ ic', generateCache c m ic ⟨some start, some size⟩ = .ok ic' ∧
        ∀ slot, c.entryPoint ≤ 8 * slot → 8 * slot < memorySize →
          ic'.get slot =
            if start ≤ 8 * slot ∧ 8 * slot < start + size then decodeEntry c.codec (m.dword (8 * slot))
            else ic.get slot) ∧
    generateCache c m ic ⟨none, none⟩ =
      generateCache c m ic ⟨some c.entryPoint, some (memorySize - c.entryPoint)⟩ ∧
    (start ≤ memorySize → generateCache c m ic ⟨some start, none⟩ =
      generateCache c m ic ⟨some start, some (memorySize - start)⟩)

/-- A regeneration by the host writes only the cache; one with a rejected region stops the run with the current `ip`
and writes only the fault record (R305, R316). -/
def Obligations.HostRegenerationWritesOnlyTheCache : Prop :=
  ∀ (s : State) (call : RegenerateCall),
    (∀ ic, generateCache s.cfg s.mem s.icache call = .ok ic → s.regenerate call = { s with icache := ic }) ∧
    (∀ k, generateCache s.cfg s.mem s.icache call = .error k →
      s.regenerate call = { s with fault := some ⟨k, s.ip⟩ } ∧ k.code = 12)

/-- R52, R342, R343, R344: what the boot leaves, for every configuration, every INIT_REGS, every INIT_MEMORY and every
ROM that fits. -/
def Obligations.BootLeavesTheResetValues : Prop :=
  ∀ (c : Config) (init : Vector Word 256) (m : Memory) (rom : List Byte),
    c.admitted = true → c.codec.Distinct → c.entryPoint + rom.length ≤ memorySize → rom.length % 4 = 0 →
    ∃ t, boot c init m rom = .next t ∧ t.cfg = c ∧ t.ip.toNat = c.entryPoint ∧ t.sp.toNat = c.stackStart ∧
      (∀ q : Reg, q.toNat < 254 → t.reg q = init[q.toNat]'q.isLt) ∧ t.cycles = 0 ∧ t.checkpoint = 0 ∧
      t.halted = false ∧ t.fault = none ∧ t.fbFirstVisible = c.firstFbVisibleAtReset ∧
      (∀ (k : Nat) (h : k < rom.length), t.mem.byte (c.entryPoint + k) = rom[k]) ∧
      (∀ a, (a < c.entryPoint ∨ c.entryPoint + rom.length ≤ a) → t.mem.byte a = m.byte a) ∧
      ∀ slot, c.entryPoint ≤ 8 * slot → 8 * slot < memorySize →
        t.icache.get slot = decodeEntry c.codec (t.dwordAt (8 * slot))

/-- R343, R305: the startup faults, recorded at the entry point with no cycle counted, on a machine that never runs; and
an inadmissible configuration is refused (R11). -/
def Obligations.StartupFaultsStopTheMachine : Prop :=
  ∀ (c : Config) (init : Vector Word 256) (m : Memory) (rom : List Byte),
    (c.admitted = false → boot c init m rom = .refused .configurationNotAdmitted) ∧
    (c.admitted = true → ∀ k : Fault,
      ((∃ op, ¬ c.codec.Distinct ∧ tableFault c.codec = some k ∧ k = .malformedOpcodeTable op .duplicateCode) ∨
        (c.codec.Distinct ∧ memorySize < c.entryPoint + rom.length ∧ k = .fileTooBig rom.length) ∨
        (c.codec.Distinct ∧ c.entryPoint + rom.length ≤ memorySize ∧ rom.length % 4 ≠ 0 ∧
          k = .fileSizeNotDivisible rom.length)) →
      ∃ t, boot c init m rom = .next t ∧ t.fault = some ⟨k, BitVec.ofNat 32 c.entryPoint⟩ ∧ t.cycles = 0 ∧
        step t = .next t) ∧
    (c.admitted = true → ¬ c.codec.Distinct →
      ∃ op, tableFault c.codec = some (.malformedOpcodeTable op .duplicateCode))

/-- The values of the reset state under the configuration of log entry 2: the model's choice of sizes, of INIT_REGS
(entry 3) and of INIT_MEMORY (entry 4); it is the boot of an empty ROM (entry 11). -/
def Obligations.ResetIsTheBootOfAnEmptyRom : Prop :=
  boot Config.std resetInitRegs [] [] = .next State.reset ∧ State.reset.ip = 0x000C0800 ∧
  State.reset.sp = 0x00040800 ∧ State.reset.cycles = 0 ∧ State.reset.checkpoint = 0 ∧
  State.reset.halted = false ∧ State.reset.fault = none ∧ State.reset.fbFirstVisible = true

/-- R45, R359: the exit-on-halt policy changes no core state: with the other policy every step gives the same state. -/
def Obligations.ExitOnHaltChangesNoCoreState : Prop :=
  ∀ (s t : State) (b : Bool), step s = .next t →
    step { s with cfg := { s.cfg with exitOnHalt := b } } =
      .next { t with cfg := { t.cfg with exitOnHalt := b } }
end

