-- ==== Sys2Proof/Laws/PerInstr.lean ====
section
/-! SUPPORT. Statements about every instruction as syntax, proved constructor by constructor. -/

namespace Sys2Proof.Laws

/-- The operands of an instruction have the shape its definition declares: as many register fields as roles, an extra
word exactly when the definition has one, and nothing besides (R117, R122). -/
def OperandShape.Statement (i : Instr) : Prop :=
  i.regs.length = i.opcode.roles.length ∧ i.extra.isSome = i.opcode.extraKind.isSome ∧
    i.opcode.assemble (fun k => i.regs[k]?.getD 0) (i.extra.getD 0) = i

theorem OperandShape.moveRegisterImmediate (register : Reg) (immediate : Word) :
    OperandShape.Statement (.moveRegisterImmediate register immediate) := ⟨rfl, rfl, rfl⟩
theorem OperandShape.moveRegisterAddress (register : Reg) (address : Word) :
    OperandShape.Statement (.moveRegisterAddress register address) := ⟨rfl, rfl, rfl⟩
theorem OperandShape.moveTargetSource (target source : Reg) :
    OperandShape.Statement (.moveTargetSource target source) := ⟨rfl, rfl, rfl⟩
theorem OperandShape.moveAddressRegister (register : Reg) (address : Word) :
    OperandShape.Statement (.moveAddressRegister register address) := ⟨rfl, rfl, rfl⟩
theorem OperandShape.moveTargetPointer (target pointer : Reg) :
    OperandShape.Statement (.moveTargetPointer target pointer) := ⟨rfl, rfl, rfl⟩
theorem OperandShape.movePointerSource (pointer source : Reg) :
    OperandShape.Statement (.movePointerSource pointer source) := ⟨rfl, rfl, rfl⟩
theorem OperandShape.moveByteRegisterAddress (register : Reg) (address : Word) :
    OperandShape.Statement (.moveByteRegisterAddress register address) := ⟨rfl, rfl, rfl⟩
theorem OperandShape.moveByteAddressRegister (register : Reg) (address : Word) :
    OperandShape.Statement (.moveByteAddressRegister register address) := ⟨rfl, rfl, rfl⟩
theorem OperandShape.moveByteTargetPointer (target pointer : Reg) :
    OperandShape.Statement (.moveByteTargetPointer target pointer) := ⟨rfl, rfl, rfl⟩
theorem OperandShape.moveBytePointerSource (pointer source : Reg) :
    OperandShape.Statement (.moveBytePointerSource pointer source) := ⟨rfl, rfl, rfl⟩
theorem OperandShape.moveHalfwordRegisterAddress (register : Reg) (address : Word) :
    OperandShape.Statement (.moveHalfwordRegisterAddress register address) := ⟨rfl, rfl, rfl⟩
theorem OperandShape.moveHalfwordAddressRegister (register : Reg) (address : Word) :
    OperandShape.Statement (.moveHalfwordAddressRegister register address) := ⟨rfl, rfl, rfl⟩
theorem OperandShape.moveHalfwordTargetPointer (target pointer : Reg) :
    OperandShape.Statement (.moveHalfwordTargetPointer target pointer) := ⟨rfl, rfl, rfl⟩
theorem OperandShape.moveHalfwordPointerSource (pointer source : Reg) :
    OperandShape.Statement (.moveHalfwordPointerSource pointer source) := ⟨rfl, rfl, rfl⟩
theorem OperandShape.addTargetLhsRhs (target lhs rhs : Reg) :
    OperandShape.Statement (.addTargetLhsRhs target lhs rhs) := ⟨rfl, rfl, rfl⟩
theorem OperandShape.addWithCarryTargetLhsRhs (target lhs rhs : Reg) :
    OperandShape.Statement (.addWithCarryTargetLhsRhs target lhs rhs) := ⟨rfl, rfl, rfl⟩
theorem OperandShape.subtractTargetLhsRhs (target lhs rhs : Reg) :
    OperandShape.Statement (.subtractTargetLhsRhs target lhs rhs) := ⟨rfl, rfl, rfl⟩
theorem OperandShape.subtractWithCarryTargetLhsRhs (target lhs rhs : Reg) :
    OperandShape.Statement (.subtractWithCarryTargetLhsRhs target lhs rhs) := ⟨rfl, rfl, rfl⟩
theorem OperandShape.addTargetSourceImmediate (target source : Reg) (immediate : Word) :
    OperandShape.Statement (.addTargetSourceImmediate target source immediate) := ⟨rfl, rfl, rfl⟩
theorem OperandShape.subtractTargetSourceImmediate (target source : Reg) (immediate : Word) :
    OperandShape.Statement (.subtractTargetSourceImmediate target source immediate) := ⟨rfl, rfl, rfl⟩
theorem OperandShape.multiplyHighLowLhsRhs (high low lhs rhs : Reg) :
    OperandShape.Statement (.multiplyHighLowLhsRhs high low lhs rhs) := ⟨rfl, rfl, rfl⟩
theorem OperandShape.divmodTargetModLhsRhs (result remainder lhs rhs : Reg) :
    OperandShape.Statement (.divmodTargetModLhsRhs result remainder lhs rhs) := ⟨rfl, rfl, rfl⟩
theorem OperandShape.andTargetLhsRhs (target lhs rhs : Reg) :
    OperandShape.Statement (.andTargetLhsRhs target lhs rhs) := ⟨rfl, rfl, rfl⟩
theorem OperandShape.orTargetLhsRhs (target lhs rhs : Reg) :
    OperandShape.Statement (.orTargetLhsRhs target lhs rhs) := ⟨rfl, rfl, rfl⟩
theorem OperandShape.xorTargetLhsRhs (target lhs rhs : Reg) :
    OperandShape.Statement (.xorTargetLhsRhs target lhs rhs) := ⟨rfl, rfl, rfl⟩
theorem OperandShape.notTargetSource (target source : Reg) :
    OperandShape.Statement (.notTargetSource target source) := ⟨rfl, rfl, rfl⟩
theorem OperandShape.leftShiftTargetLhsRhs (target lhs rhs : Reg) :
    OperandShape.Statement (.leftShiftTargetLhsRhs target lhs rhs) := ⟨rfl, rfl, rfl⟩
theorem OperandShape.rightShiftTargetLhsRhs (target lhs rhs : Reg) :
    OperandShape.Statement (.rightShiftTargetLhsRhs target lhs rhs) := ⟨rfl, rfl, rfl⟩
theorem OperandShape.compareTargetLhsRhs (target lhs rhs : Reg) :
    OperandShape.Statement (.compareTargetLhsRhs target lhs rhs) := ⟨rfl, rfl, rfl⟩
theorem OperandShape.boolCompareEquals (target lhs rhs : Reg) :
    OperandShape.Statement (.boolCompareEquals target lhs rhs) := ⟨rfl, rfl, rfl⟩
theorem OperandShape.boolCompareNotEquals (target lhs rhs : Reg) :
    OperandShape.Statement (.boolCompareNotEquals target lhs rhs) := ⟨rfl, rfl, rfl⟩
theorem OperandShape.boolCompareGreater (target lhs rhs : Reg) :
    OperandShape.Statement (.boolCompareGreater target lhs rhs) := ⟨rfl, rfl, rfl⟩
theorem OperandShape.boolCompareGreaterOrEquals (target lhs rhs : Reg) :
    OperandShape.Statement (.boolCompareGreaterOrEquals target lhs rhs) := ⟨rfl, rfl, rfl⟩
theorem OperandShape.boolCompareLess (target lhs rhs : Reg) :
    OperandShape.Statement (.boolCompareLess target lhs rhs) := ⟨rfl, rfl, rfl⟩
theorem OperandShape.boolCompareLessOrEquals (target lhs rhs : Reg) :
    OperandShape.Statement (.boolCompareLessOrEquals target lhs rhs) := ⟨rfl, rfl, rfl⟩
theorem OperandShape.pushRegister (register : Reg) :
    OperandShape.Statement (.pushRegister register) := ⟨rfl, rfl, rfl⟩
theorem OperandShape.pushImmediate (immediate : Word) :
    OperandShape.Statement (.pushImmediate immediate) := ⟨rfl, rfl, rfl⟩
theorem OperandShape.popRegister (register : Reg) :
    OperandShape.Statement (.popRegister register) := ⟨rfl, rfl, rfl⟩
theorem OperandShape.pop :
    OperandShape.Statement (.pop) := ⟨rfl, rfl, rfl⟩
theorem OperandShape.callAddress (address : Word) :
    OperandShape.Statement (.callAddress address) := ⟨rfl, rfl, rfl⟩
theorem OperandShape.callRegister (register : Reg) :
    OperandShape.Statement (.callRegister register) := ⟨rfl, rfl, rfl⟩
theorem OperandShape.returnFromCall :
    OperandShape.Statement (.returnFromCall) := ⟨rfl, rfl, rfl⟩
theorem OperandShape.jumpImmediate (address : Word) :
    OperandShape.Statement (.jumpImmediate address) := ⟨rfl, rfl, rfl⟩
theorem OperandShape.jumpRegister (register : Reg) :
    OperandShape.Statement (.jumpRegister register) := ⟨rfl, rfl, rfl⟩
theorem OperandShape.jumpImmediateIfEqual (comparison : Reg) (address : Word) :
    OperandShape.Statement (.jumpImmediateIfEqual comparison address) := ⟨rfl, rfl, rfl⟩
theorem OperandShape.jumpImmediateIfGreaterThan (comparison : Reg) (address : Word) :
    OperandShape.Statement (.jumpImmediateIfGreaterThan comparison address) := ⟨rfl, rfl, rfl⟩
theorem OperandShape.jumpImmediateIfLessThan (comparison : Reg) (address : Word) :
    OperandShape.Statement (.jumpImmediateIfLessThan comparison address) := ⟨rfl, rfl, rfl⟩
theorem OperandShape.jumpImmediateIfGreaterThanOrEqual (comparison : Reg) (address : Word) :
    OperandShape.Statement (.jumpImmediateIfGreaterThanOrEqual comparison address) := ⟨rfl, rfl, rfl⟩
theorem OperandShape.jumpImmediateIfLessThanOrEqual (comparison : Reg) (address : Word) :
    OperandShape.Statement (.jumpImmediateIfLessThanOrEqual comparison address) := ⟨rfl, rfl, rfl⟩
theorem OperandShape.jumpImmediateIfZero (address : Word) :
    OperandShape.Statement (.jumpImmediateIfZero address) := ⟨rfl, rfl, rfl⟩
theorem OperandShape.jumpImmediateIfNotZero (address : Word) :
    OperandShape.Statement (.jumpImmediateIfNotZero address) := ⟨rfl, rfl, rfl⟩
theorem OperandShape.jumpImmediateIfCarry (address : Word) :
    OperandShape.Statement (.jumpImmediateIfCarry address) := ⟨rfl, rfl, rfl⟩
theorem OperandShape.jumpImmediateIfNotCarry (address : Word) :
    OperandShape.Statement (.jumpImmediateIfNotCarry address) := ⟨rfl, rfl, rfl⟩
theorem OperandShape.jumpImmediateIfDivideByZero (address : Word) :
    OperandShape.Statement (.jumpImmediateIfDivideByZero address) := ⟨rfl, rfl, rfl⟩
theorem OperandShape.jumpImmediateIfNotDivideByZero (address : Word) :
    OperandShape.Statement (.jumpImmediateIfNotDivideByZero address) := ⟨rfl, rfl, rfl⟩
theorem OperandShape.getKeyState (target keycode : Reg) :
    OperandShape.Statement (.getKeyState target keycode) := ⟨rfl, rfl, rfl⟩
theorem OperandShape.pollTime (high low : Reg) :
    OperandShape.Statement (.pollTime high low) := ⟨rfl, rfl, rfl⟩
theorem OperandShape.swapFramebuffers :
    OperandShape.Statement (.swapFramebuffers) := ⟨rfl, rfl, rfl⟩
theorem OperandShape.invisibleFramebufferAddress (target : Reg) :
    OperandShape.Statement (.invisibleFramebufferAddress target) := ⟨rfl, rfl, rfl⟩
theorem OperandShape.pollCycleCountHighLow (high low : Reg) :
    OperandShape.Statement (.pollCycleCountHighLow high low) := ⟨rfl, rfl, rfl⟩
theorem OperandShape.noOp :
    OperandShape.Statement (.noOp) := ⟨rfl, rfl, rfl⟩
theorem OperandShape.haltAndCatchFire :
    OperandShape.Statement (.haltAndCatchFire) := ⟨rfl, rfl, rfl⟩
theorem OperandShape.dumpRegisters :
    OperandShape.Statement (.dumpRegisters) := ⟨rfl, rfl, rfl⟩
theorem OperandShape.dumpMemory :
    OperandShape.Statement (.dumpMemory) := ⟨rfl, rfl, rfl⟩
theorem OperandShape.assertRegisterRegister (expected actual : Reg) :
    OperandShape.Statement (.assertRegisterRegister expected actual) := ⟨rfl, rfl, rfl⟩
theorem OperandShape.assertRegisterImmediate (actual : Reg) (immediate : Word) :
    OperandShape.Statement (.assertRegisterImmediate actual immediate) := ⟨rfl, rfl, rfl⟩
theorem OperandShape.assertPointerImmediate (pointer : Reg) (immediate : Word) :
    OperandShape.Statement (.assertPointerImmediate pointer immediate) := ⟨rfl, rfl, rfl⟩
theorem OperandShape.debugBreak :
    OperandShape.Statement (.debugBreak) := ⟨rfl, rfl, rfl⟩
theorem OperandShape.checkpoint (immediate : Word) :
    OperandShape.Statement (.checkpoint immediate) := ⟨rfl, rfl, rfl⟩

end Sys2Proof.Laws
end

