-- ==== Sys2Proof/Laws/Decode.lean ====
section
/-! SUPPORT. The laws of the codec: the fields of an encoded word, the lookup of a code, and everything decoding can
answer. -/

namespace Sys2Proof

/-! ### Definitions and their instructions -/

@[simp] theorem Opcode.opcode_assemble (op : Opcode) (f : Nat → Reg) (x : Word) : (op.assemble f x).opcode = op := by
  cases op <;> rfl

theorem Opcode.regs_assemble (op : Opcode) (f : Nat → Reg) (x : Word) :
    (op.assemble f x).regs = (List.range op.roles.length).map f := by cases op <;> rfl

theorem Opcode.extra_assemble (op : Opcode) (f : Nat → Reg) (x : Word) :
    (op.assemble f x).extra = if op.extraKind.isSome then some x else none := by cases op <;> rfl

/-- An instruction depends on its own fields only. -/
theorem Opcode.assemble_congr (op : Opcode) (f g : Nat → Reg) (x y : Word)
    (h : ∀ k, k < op.roles.length → f k = g k) (hx : op.extraKind.isSome = true → x = y) :
    op.assemble f x = op.assemble g y := by
  cases op <;> simp [Opcode.roles, Opcode.extraKind] at h hx <;> simp [Opcode.assemble, *]

/-- The shape of every instruction, from the lemmas of Laws/PerInstr.lean. -/
theorem Instr.shape (i : Instr) : Laws.OperandShape.Statement i := by cases i <;> exact ⟨rfl, rfl, rfl⟩

/-- The formats of R130: at most four register fields, and at most two beside an extra word. -/
theorem Opcode.format_le (op : Opcode) :
    op.roles.length ≤ 4 ∧ (op.extraKind.isSome = true → op.roles.length ≤ 2) := by
  cases op <;> decide

theorem Opcode.mem_all (op : Opcode) : op ∈ Opcode.all := by cases op <;> decide

theorem Opcode.all_getElem (op : Opcode) : Opcode.all[op.index.val]? = some op := by cases op <;> rfl

/-- Every index is some definition's. -/
theorem Opcode.exists_index (k : Fin 69) : ∃ op : Opcode, op.index = k := by
  have h : ∀ k : Fin 69, (Opcode.all[k.val]'k.isLt).index = k := by decide
  exact ⟨_, h k⟩

/-! ### The lookup of a code -/

theorem Codec.byCode_some (c : Codec) (code : Code) (op : Opcode) (h : c.byCode code = some op) : c.code op = code := by
  simpa using List.find?_some h

theorem Codec.byCode_eq_none (c : Codec) (code : Code) : c.byCode code = none ↔ ∀ op, c.code op ≠ code := by
  unfold Codec.byCode
  rw [List.find?_eq_none]
  constructor
  · intro h op hop
    exact h op op.mem_all (by simpa using hop)
  · intro h op _
    simpa using h op

/-- Distinct codes name one definition each. -/
theorem Codec.code_injective (c : Codec) (h : c.Distinct) (op op' : Opcode) (he : c.code op = c.code op') :
    op = op' := by
  have hl : c.codes.toList.length = 69 := by simp
  have hi : op.index.val = op'.index.val := by
    apply (List.Nodup.getElem_inj_iff h (hi := by rw [hl]; exact op.index.isLt)
      (hj := by rw [hl]; exact op'.index.isLt)).mp
    simpa [Codec.code] using he
  have h1 := op.all_getElem
  rw [hi, op'.all_getElem] at h1
  exact (Option.some.inj h1).symm

theorem Codec.byCode_code (c : Codec) (h : c.Distinct) (op : Opcode) : c.byCode (c.code op) = some op := by
  cases hb : c.byCode (c.code op) with
  | none => exact absurd rfl ((c.byCode_eq_none _).mp hb op)
  | some op' => rw [c.code_injective h op' op (c.byCode_some _ _ hb)]

/-! ### The fields of an encoded word -/

theorem getLsbD_placeRegs (k : Nat) (regs : List Reg) (i : Nat) (h : k + regs.length ≤ 6) (hi : i < 64) :
    (placeRegs k regs).getLsbD i =
      (decide (48 - 8 * (k + regs.length) ≤ i) && decide (i < 48 - 8 * k) &&
        (regs[(47 - i) / 8 - k]?.getD 0).getLsbD (i % 8)) := by
  induction regs generalizing k with
  | nil =>
    simp only [placeRegs, List.length_nil, Nat.add_zero, BitVec.ofNat_eq_ofNat, BitVec.getLsbD_zero]
    by_cases h1 : i < 48 - 8 * k
    · simp [show ¬ (48 - 8 * k ≤ i) by omega]
    · simp [h1]
  | cons r rs ih =>
    rw [List.length_cons] at h
    rw [placeRegs, BitVec.getLsbD_or, ih (k + 1) (by omega), BitVec.getLsbD_shiftLeft, BitVec.getLsbD_setWidth,
      List.length_cons]
    by_cases h1 : 40 - 8 * k ≤ i
    · by_cases h2 : i < 48 - 8 * k
      · have e1 : (47 - i) / 8 - k = 0 := by omega
        have e2 : i - (40 - 8 * k) = i % 8 := by omega
        rw [e1, e2]
        have e3 : (48 - 8 * (k + (rs.length + 1)) ≤ i) := by omega
        simp [hi, h2, e3, show ¬ i < 40 - 8 * k by omega, show ¬ (i < 48 - 8 * (k + 1)) by omega,
          show i % 8 < 64 by omega]
      · have e : r.getLsbD (i - (40 - 8 * k)) = false := BitVec.getLsbD_of_ge _ _ (by omega)
        simp [h2, e, show ¬ (i < 48 - 8 * (k + 1)) by omega]
    · have e1 : (47 - i) / 8 - k = (47 - i) / 8 - (k + 1) + 1 := by omega
      rw [e1, List.getElem?_cons_succ]
      have e2 : k + (rs.length + 1) = k + 1 + rs.length := by omega
      have e3 : i < 48 - 8 * k := by omega
      have e4 : i < 48 - 8 * (k + 1) := by omega
      simp [hi, show i < 40 - 8 * k by omega, e2, e3, e4]

/-- Every bit of an encoded word. -/
theorem getLsbD_encodeFields (code : Code) (regs : List Reg) (extra : Option Word) (i : Nat)
    (h : regs.length ≤ 6) (hi : i < 64) :
    (encodeFields code regs extra).getLsbD i =
      ((decide (48 ≤ i) && code.getLsbD (i - 48)) ||
        (decide (48 - 8 * regs.length ≤ i) && decide (i < 48) &&
          (regs[(47 - i) / 8]?.getD 0).getLsbD (i % 8)) ||
        (extra.getD 0).getLsbD i) := by
  unfold encodeFields
  rw [BitVec.getLsbD_or, BitVec.getLsbD_or, getLsbD_placeRegs 0 regs i (by omega) hi, BitVec.getLsbD_shiftLeft,
    BitVec.getLsbD_setWidth, BitVec.getLsbD_setWidth]
  simp only [hi, decide_true, Bool.true_and, Nat.zero_add, Nat.mul_zero, Nat.sub_zero]
  congr 2
  by_cases h1 : i < 48
  · simp [h1]
  · simp [h1, show 48 ≤ i by omega, show i - 48 < 64 by omega]

/-- Two 64-bit words with the same bits below 64 are equal. -/
theorem DWord.ext {v w : DWord} (h : ∀ i, i < 64 → v.getLsbD i = w.getLsbD i) : v = w :=
  BitVec.eq_of_getLsbD_eq fun i hi => h i hi

theorem getLsbD_extra_ge (x : Option Word) (i : Nat) (h : 32 ≤ i) : (x.getD 0).getLsbD i = false :=
  BitVec.getLsbD_of_ge _ _ h

theorem getLsbD_code_lt (code : Code) (i : Nat) (h : ¬ 48 ≤ i) :
    (decide (48 ≤ i) && code.getLsbD (i - 48)) = false := by simp [h]

@[simp] theorem opcodeField_encodeFields (code : Code) (regs : List Reg) (extra : Option Word)
    (h : regs.length ≤ 6) : opcodeField (encodeFields code regs extra) = code := by
  apply BitVec.eq_of_getLsbD_eq
  intro i hi
  unfold opcodeField
  rw [BitVec.getLsbD_extractLsb', getLsbD_encodeFields code regs extra (48 + i) h (by omega),
    getLsbD_extra_ge _ _ (by omega)]
  simp [hi]

theorem regField_encodeFields (code : Code) (regs : List Reg) (extra : Option Word) (k : Nat)
    (h : regs.length ≤ 6) (hk : k < regs.length) (hx : extra.isSome = true → regs.length ≤ 2) :
    regField (encodeFields code regs extra) k = regs[k] := by
  apply BitVec.eq_of_getLsbD_eq
  intro i hi
  have hextra : (extra.getD 0).getLsbD (40 - 8 * k + i) = false := by
    cases extra with
    | none => simp
    | some x => exact getLsbD_extra_ge _ _ (by have := hx rfl; omega)
  unfold regField
  rw [BitVec.getLsbD_extractLsb', getLsbD_encodeFields code regs extra _ h (by omega), hextra,
    getLsbD_code_lt _ _ (by omega), show (47 - (40 - 8 * k + i)) / 8 = k by omega,
    show (40 - 8 * k + i) % 8 = i by omega, List.getElem?_eq_getElem hk]
  simp [hi, show 48 - 8 * regs.length ≤ 40 - 8 * k + i by omega, show 40 - 8 * k + i < 48 by omega]

theorem extraField_encodeFields (code : Code) (regs : List Reg) (x : Word) (h : regs.length ≤ 2) :
    extraField (encodeFields code regs (some x)) = x := by
  apply BitVec.eq_of_getLsbD_eq
  intro i hi
  unfold extraField
  rw [BitVec.getLsbD_extractLsb', getLsbD_encodeFields code regs _ _ (by omega) (by omega),
    getLsbD_code_lt _ _ (by omega)]
  simp [hi, show ¬ (48 - 8 * regs.length ≤ i) by omega]

/-- A byte of an encoded word past its register fields, before its extra word, is zero (R126). -/
theorem wordByte_encodeFields (code : Code) (regs : List Reg) (extra : Option Word) (j : Nat)
    (h : regs.length ≤ 6) (hj : 2 + regs.length ≤ j) (hj' : j < if extra.isSome then 4 else 8) :
    wordByte (encodeFields code regs extra) j = 0 := by
  apply BitVec.eq_of_getLsbD_eq
  intro i hi
  have hj8 : j < 8 := by split at hj' <;> omega
  have hextra : (extra.getD 0).getLsbD (56 - 8 * j + i) = false := by
    cases extra with
    | none => simp
    | some x => exact getLsbD_extra_ge _ _ (by simp at hj'; omega)
  change _ = (0#8).getLsbD i
  unfold wordByte
  rw [BitVec.getLsbD_extractLsb', getLsbD_encodeFields code regs extra _ h (by omega), hextra,
    getLsbD_code_lt _ _ (by omega)]
  simp [show ¬ (48 - 8 * regs.length ≤ 56 - 8 * j + i) by omega]

/-! ### The checks of the decoder -/

theorem firstReserved_eq_none (f : Nat → Reg) (k : Nat) (roles : List Role) :
    firstReserved f k roles = none ↔ ∀ j, j < roles.length → Reg.reserved (f (k + j)) = false := by
  induction roles generalizing k with
  | nil => simp [firstReserved]
  | cons r rs ih =>
    unfold firstReserved
    by_cases h : Reg.reserved (f k) = true
    · simp only [h, if_true]
      constructor
      · intro h1; cases h1
      · intro h1; have := h1 0 (by simp); simp [h] at this
    · simp only [h, if_false, Bool.false_eq_true]
      rw [ih]
      constructor
      · intro h1 j hj
        cases j with
        | zero => simpa using h
        | succ j => rw [show k + (j + 1) = k + 1 + j by omega]; exact h1 j (by simpa using hj)
      · intro h1 j hj
        rw [show k + 1 + j = k + (j + 1) by omega]
        exact h1 (j + 1) (by simpa using hj)

theorem firstReserved_eq_some (f : Nat → Reg) (k : Nat) (roles : List Role) (j : Nat) (role : Role)
    (hr : roles[j]? = some role) (hj : Reg.reserved (f (k + j)) = true)
    (hb : ∀ l, l < j → Reg.reserved (f (k + l)) = false) :
    firstReserved f k roles = some (role, f (k + j)) := by
  induction roles generalizing k j with
  | nil => simp at hr
  | cons r rs ih =>
    unfold firstReserved
    cases j with
    | zero =>
      rw [Nat.add_zero] at hj
      simp only [List.getElem?_cons_zero, Option.some.injEq] at hr
      rw [if_pos hj, hr, Nat.add_zero]
    | succ j =>
      have h0 := hb 0 (by omega)
      rw [Nat.add_zero] at h0
      simp only [h0, Bool.false_eq_true, if_false]
      rw [show k + (j + 1) = k + 1 + j by omega]
      refine ih (k + 1) j (by simpa using hr) (by rwa [show k + 1 + j = k + (j + 1) by omega]) fun l hl => ?_
      rw [show k + 1 + l = k + (l + 1) by omega]
      exact hb (l + 1) (by omega)

theorem mem_paddingBytes (op : Opcode) (j : Nat) :
    j ∈ op.paddingBytes ↔ 2 + op.roles.length ≤ j ∧ j < if op.extraKind.isSome then 4 else 8 := by
  have h := op.format_le
  unfold Opcode.paddingBytes
  simp only [List.mem_range'_1]
  split
  · next hx => have := h.2 hx; omega
  · omega

theorem reserved_eq_false (r : Reg) : Reg.reserved r = false ↔ r.toNat < 253 := by
  simp [Reg.reserved]

theorem reserved_eq_true (r : Reg) : Reg.reserved r = true ↔ 253 ≤ r.toNat := by
  simp [Reg.reserved]

/-- Everything decoding can answer. -/
theorem decode_cases (c : Codec) (w : DWord) :
    ((∀ op, c.code op ≠ opcodeField w) ∧ decode c w = .error (.unknownOpcode (opcodeField w))) ∨
    ∃ op, c.byCode (opcodeField w) = some op ∧ c.code op = opcodeField w ∧
      ((∃ role value, c.reservedOperand op w = some (role, value) ∧
          decode c w = .error (.reservedRegisterOperand role value)) ∨
        (c.reservedOperand op w = none ∧
          ((c.paddingFails op w = true ∧ decode c w = .error (.paddingNotZero w)) ∨
            (c.paddingFails op w = false ∧ decode c w = .ok (op.assemble (regField w) (extraField w)))))) := by
  cases hb : c.byCode (opcodeField w) with
  | none =>
    refine .inl ⟨(c.byCode_eq_none _).mp hb, ?_⟩
    unfold decode; rw [hb]
  | some op =>
    refine .inr ⟨op, rfl, c.byCode_some _ _ hb, ?_⟩
    cases hr : c.reservedOperand op w with
    | some p =>
      obtain ⟨role, value⟩ := p
      refine .inl ⟨role, value, rfl, ?_⟩
      unfold decode; rw [hb]; simp only [hr]
    | none =>
      refine .inr ⟨rfl, ?_⟩
      cases hp : c.paddingFails op w with
      | true => refine .inl ⟨rfl, ?_⟩; unfold decode; rw [hb]; simp only [hr, hp, if_true]
      | false =>
        refine .inr ⟨rfl, ?_⟩; unfold decode; rw [hb]; simp only [hr, hp, Bool.false_eq_true, if_false]

end Sys2Proof
end

