-- ==== Sys2Proof/Laws/Sparse.lean ====
section
/-! SUPPORT. The laws of sparse tables: reading after writing, and the canonical form kept by every write. -/

namespace Sys2Proof.Machine

variable {α : Type}

theorem sparseGet_erase (d : α) (l : List (Nat × α)) (i j : Nat) :
    sparseGet d (sparseErase l i) j = if j = i then d else sparseGet d l j := by
  induction l with
  | nil => simp [sparseErase, sparseGet]
  | cons c l ih =>
    obtain ⟨k, v⟩ := c
    by_cases hk : k = i
    · have : sparseErase ((k, v) :: l) i = sparseErase l i := by simp [sparseErase, hk]
      rw [this, ih]
      subst hk
      by_cases hj : j = k <;> simp [sparseGet, hj]
    · have : sparseErase ((k, v) :: l) i = (k, v) :: sparseErase l i := by simp [sparseErase, hk]
      rw [this, sparseGet, sparseGet, ih]
      by_cases hj : j = k
      · subst hj; simp [hk]
      · simp [hj]

theorem sparseGet_insert (d : α) (l : List (Nat × α)) (i j : Nat) (v : α) (h : ∀ c ∈ l, c.1 ≠ i) :
    sparseGet d (sparseInsert i v l) j = if j = i then v else sparseGet d l j := by
  induction l with
  | nil => simp [sparseInsert, sparseGet]
  | cons c l ih =>
    obtain ⟨k, w⟩ := c
    have hk : k ≠ i := h (k, w) List.mem_cons_self
    have hl : ∀ c ∈ l, c.1 ≠ i := fun c hc => h c (List.mem_cons_of_mem _ hc)
    by_cases hik : i < k
    · simp [sparseInsert, hik, sparseGet]
    · simp only [sparseInsert, hik, if_false, sparseGet, ih hl]
      by_cases hj : j = k
      · subst hj; simp [hk]
      · simp [hj]

theorem ne_of_mem_sparseErase (l : List (Nat × α)) (i : Nat) : ∀ c ∈ sparseErase l i, c.1 ≠ i := by
  intro c hc
  simpa using (List.mem_filter.mp hc).2

variable [DecidableEq α]

/-- Read after write, at every index and for every table. -/
@[simp] theorem sparseGet_put (d : α) (l : List (Nat × α)) (i j : Nat) (v : α) :
    sparseGet d (sparsePut d l i v) j = if j = i then v else sparseGet d l j := by
  unfold sparsePut
  split
  · next h => rw [sparseGet_erase, h]
  · rw [sparseGet_insert _ _ _ _ _ (ne_of_mem_sparseErase l i), sparseGet_erase]
    by_cases hj : j = i <;> simp [hj]

theorem sparseWf_iff (d : α) (bound : Nat) (l : List (Nat × α)) :
    sparseWf d bound l = true ↔ l.Pairwise (fun a b => a.1 < b.1) ∧ ∀ c ∈ l, c.1 < bound ∧ c.2 ≠ d := by
  simp [sparseWf]

omit [DecidableEq α] in
theorem mem_sparseInsert (i : Nat) (v : α) (l : List (Nat × α)) (c : Nat × α) :
    c ∈ sparseInsert i v l ↔ c = (i, v) ∨ c ∈ l := by
  induction l with
  | nil => simp [sparseInsert]
  | cons e l ih =>
    obtain ⟨k, w⟩ := e
    by_cases h : i < k
    · simp [sparseInsert, h]
    · simp only [sparseInsert, h, if_false, List.mem_cons, ih]
      tauto

omit [DecidableEq α] in
theorem pairwise_sparseInsert (i : Nat) (v : α) (l : List (Nat × α)) (h : ∀ c ∈ l, c.1 ≠ i)
    (hl : l.Pairwise fun a b => a.1 < b.1) : (sparseInsert i v l).Pairwise fun a b => a.1 < b.1 := by
  induction l with
  | nil => simp [sparseInsert]
  | cons e l ih =>
    obtain ⟨k, w⟩ := e
    obtain ⟨hk, hp⟩ := List.pairwise_cons.mp hl
    have hne : k ≠ i := h (k, w) List.mem_cons_self
    by_cases hik : i < k
    · simp only [sparseInsert, hik, if_true]
      refine List.pairwise_cons.mpr ⟨fun c hc => ?_, hl⟩
      rcases List.mem_cons.mp hc with rfl | hc
      · exact hik
      · exact hik.trans (hk c hc)
    · simp only [sparseInsert, hik, if_false]
      refine List.pairwise_cons.mpr ⟨fun c hc => ?_, ih (fun c hc => h c (List.mem_cons_of_mem _ hc)) hp⟩
      rcases (mem_sparseInsert i v l c).mp hc with rfl | hc
      · change k < i; omega
      · exact hk c hc

/-- Every write below the bound keeps the canonical form. -/
theorem sparseWf_put (d : α) (bound : Nat) (l : List (Nat × α)) (i : Nat) (v : α) (h : sparseWf d bound l = true)
    (hi : i < bound) : sparseWf d bound (sparsePut d l i v) = true := by
  rw [sparseWf_iff] at h ⊢
  obtain ⟨hp, hm⟩ := h
  have hpe : (sparseErase l i).Pairwise fun a b => a.1 < b.1 := hp.filter _
  have hme : ∀ c ∈ sparseErase l i, c ∈ l := fun c hc => (List.mem_filter.mp hc).1
  unfold sparsePut
  split
  · exact ⟨hpe, fun c hc => hm c (hme c hc)⟩
  · next hv =>
    refine ⟨pairwise_sparseInsert i v _ (ne_of_mem_sparseErase l i) hpe, fun c hc => ?_⟩
    rcases (mem_sparseInsert i v _ c).mp hc with rfl | hc
    · exact ⟨hi, hv⟩
    · exact hm c (hme c hc)

omit [DecidableEq α] in
/-- An index that is not listed has the default value. -/
theorem sparseGet_eq_default_of_not_mem (d : α) (l : List (Nat × α)) (i : Nat) (h : ∀ c ∈ l, c.1 ≠ i) :
    sparseGet d l i = d := by
  induction l with
  | nil => rfl
  | cons e l ih =>
    obtain ⟨k, w⟩ := e
    have hk : k ≠ i := h (k, w) List.mem_cons_self
    rw [sparseGet, if_neg (Ne.symm hk)]
    exact ih fun c hc => h c (List.mem_cons_of_mem _ hc)

end Sys2Proof.Machine
end

