-- ==== Sys2Proof/Laws/Memory.lean ====
section
/-! SUPPORT. The laws of memory: read after write, byte order, and the canonical form kept by every write. -/

namespace Sys2Proof.Machine

@[simp] theorem Memory.byte_setByte (m : Memory) (a c : Nat) (b : Byte) :
    (m.setByte a b).byte c = if c = a then b else m.byte c := by
  unfold Memory.setByte Memory.byte
  exact sparseGet_put _ m a c b

/-- One byte after a write of consecutive bytes. -/
theorem Memory.byte_setBytes (m : Memory) (a : Nat) (bs : List Byte) (c : Nat) :
    (m.setBytes a bs).byte c = if a ≤ c then bs[c - a]?.getD (m.byte c) else m.byte c := by
  induction bs generalizing m a with
  | nil => simp [Memory.setBytes]
  | cons b bs ih =>
    rw [Memory.setBytes, ih, Memory.byte_setByte]
    rcases Nat.lt_trichotomy c a with h | h | h
    · simp [show ¬ a + 1 ≤ c by omega, show ¬ a ≤ c by omega, show c ≠ a by omega]
    · subst h; simp
    · rw [if_pos (show a + 1 ≤ c by omega), if_pos (show a ≤ c by omega), if_neg (show c ≠ a by omega)]
      rw [show c - a = (c - (a + 1)) + 1 by omega]
      simp

/-- A byte outside a write is unchanged. -/
theorem Memory.byte_setBytes_outside (m : Memory) (a : Nat) (bs : List Byte) (c : Nat)
    (h : c < a ∨ a + bs.length ≤ c) : (m.setBytes a bs).byte c = m.byte c := by
  rw [Memory.byte_setBytes]
  split
  · rw [List.getElem?_eq_none (by omega)]; rfl
  · rfl

/-- A byte inside a write is the byte written. -/
theorem Memory.byte_setBytes_inside (m : Memory) (a : Nat) (bs : List Byte) (k : Nat) (h : k < bs.length) :
    (m.setBytes a bs).byte (a + k) = bs[k] := by
  rw [Memory.byte_setBytes, if_pos (Nat.le_add_right a k), Nat.add_sub_cancel_left, List.getElem?_eq_getElem h]
  rfl

theorem Memory.wf_setByte (m : Memory) (a : Nat) (b : Byte) (h : m.wf = true) (ha : a < memorySize) :
    (m.setByte a b).wf = true := sparseWf_put _ _ _ _ _ h ha

theorem Memory.wf_setBytes (m : Memory) (a : Nat) (bs : List Byte) (h : m.wf = true)
    (ha : a + bs.length ≤ memorySize) : (m.setBytes a bs).wf = true := by
  induction bs generalizing m a with
  | nil => exact h
  | cons b bs ih =>
    rw [List.length_cons] at ha
    exact ih _ _ (Memory.wf_setByte m a b h (by omega)) (by omega)

theorem Memory.wf_nil : Memory.wf [] = true := rfl

/-! ### Byte order -/

@[simp] theorem length_beBytes (n v : Nat) : (beBytes n v).length = n := by simp [beBytes]

theorem getElem_beBytes (n v k : Nat) (h : k < (beBytes n v).length) :
    (beBytes n v)[k] = BitVec.ofNat 8 (v / 2 ^ (8 * (n - 1 - k))) := by simp [beBytes]

theorem beValue_append (bs : List Byte) (b : Byte) : beValue (bs ++ [b]) = beValue bs * 256 + b.toNat := by
  simp [beValue]

theorem beValue_lt (bs : List Byte) : beValue bs < 256 ^ bs.length := by
  induction bs using List.reverseRecOn with
  | nil => simp [beValue]
  | append_singleton bs b ih =>
    rw [beValue_append, List.length_append, List.length_singleton, Nat.pow_succ]
    have := b.isLt
    omega

theorem beBytes_succ (n v : Nat) : beBytes (n + 1) v = beBytes n (v / 256) ++ [BitVec.ofNat 8 v] := by
  unfold beBytes
  rw [List.range_succ, List.map_append]
  congr 1
  · refine List.map_congr_left fun k hk => ?_
    have hk := List.mem_range.mp hk
    rw [show 8 * (n + 1 - 1 - k) = 8 + 8 * (n - 1 - k) by omega, Nat.pow_add, ← Nat.div_div_eq_div_mul]
  · simp

/-- Writing a value big-endian and reading it back gives it modulo the width. -/
theorem beValue_beBytes (n v : Nat) : beValue (beBytes n v) = v % 256 ^ n := by
  induction n generalizing v with
  | zero => simp [beBytes, beValue, Nat.mod_one]
  | succ n ih =>
    have h : v % 256 ^ (n + 1) = v % 256 + 256 * (v / 256 % 256 ^ n) := by
      rw [show 256 ^ (n + 1) = 256 * 256 ^ n by rw [Nat.pow_succ, Nat.mul_comm], Nat.mod_mul]
    rw [beBytes_succ, beValue_append, ih, BitVec.toNat_ofNat, h]
    omega

/-- The bytes that a write of consecutive bytes leaves there. -/
theorem Memory.bytes_setBytes (m : Memory) (a : Nat) (bs : List Byte) :
    (m.setBytes a bs).bytes a bs.length = bs := by
  refine List.ext_getElem (by simp [Memory.bytes]) fun k h₁ h₂ => ?_
  simp only [Memory.bytes, List.getElem_map, List.getElem_range]
  exact Memory.byte_setBytes_inside m a bs k h₂

end Sys2Proof.Machine
end

