-- ==== Sys2Proof/Laws/State.lean ====
section
/-! SUPPORT. One lemma per field per update of the state, each true by rfl, and what a register holds after a register
write. -/

namespace Sys2Proof.Machine

/-! ### The normal form: every register access is `reg`, every register write is `setReg` -/

@[simp] theorem State.ip_def (s : State) : s.ip = s.reg ipReg := rfl
@[simp] theorem State.sp_def (s : State) : s.sp = s.reg spReg := rfl
@[simp] theorem State.flags_def (s : State) : s.flags = s.reg flagsReg := rfl
@[simp] theorem State.setIp_def (s : State) (v : Word) : s.setIp v = s.setReg ipReg v := rfl
@[simp] theorem State.setSp_def (s : State) (v : Word) : s.setSp v = s.setReg spReg v := rfl
@[simp] theorem State.setFlags_def (s : State) (v : Word) : s.setFlags v = s.setReg flagsReg v := rfl
@[simp] theorem State.setOpnd_def (s : State) (r : Reg) (v : Word) : s.setOpnd r v = s.setReg r v := rfl
@[simp] theorem State.setPair_def (s : State) (a b : Reg) (v w : Word) :
    s.setPair a b v w = (s.setReg a v).setReg b w := rfl
@[simp] theorem State.setFlag_def (s : State) (f : Flag) (b : Bool) :
    s.setFlag f b = s.setReg flagsReg (f.put b (s.reg flagsReg)) := rfl
@[simp] theorem State.nextIp_def (s : State) : s.nextIp = s.reg ipReg + 8#32 := rfl
@[simp] theorem State.popAddress_def (s : State) : s.popAddress = s.reg spReg - 4#32 := rfl

/-! ### What a register holds after a register write -/

@[simp] theorem State.reg_setReg (s : State) (r q : Reg) (v : Word) :
    (s.setReg r v).reg q = if q = r then v else s.reg q := by
  unfold State.setReg State.reg
  simp only [Vector.getElem_set, BitVec.toNat_inj, eq_comm]

theorem State.reg_congr (s t : State) (q : Reg) (h : t.regs = s.regs) : t.reg q = s.reg q := by
  unfold State.reg
  simp only [h]

@[simp] theorem flagsReg_ne_ipReg : (flagsReg = ipReg) = False := by decide
@[simp] theorem ipReg_ne_flagsReg : (ipReg = flagsReg) = False := by decide
@[simp] theorem spReg_ne_ipReg : (spReg = ipReg) = False := by decide
@[simp] theorem ipReg_ne_spReg : (ipReg = spReg) = False := by decide
@[simp] theorem spReg_ne_flagsReg : (spReg = flagsReg) = False := by decide
@[simp] theorem flagsReg_ne_spReg : (flagsReg = spReg) = False := by decide

/-! ### A register write -/

@[simp] theorem State.cfg_setReg (s : State) (r : Reg) (v : Word) : (s.setReg r v).cfg = s.cfg := rfl
@[simp] theorem State.mem_setReg (s : State) (r : Reg) (v : Word) : (s.setReg r v).mem = s.mem := rfl
@[simp] theorem State.icache_setReg (s : State) (r : Reg) (v : Word) : (s.setReg r v).icache = s.icache := rfl
@[simp] theorem State.cycles_setReg (s : State) (r : Reg) (v : Word) : (s.setReg r v).cycles = s.cycles := rfl
@[simp] theorem State.checkpoint_setReg (s : State) (r : Reg) (v : Word) :
    (s.setReg r v).checkpoint = s.checkpoint := rfl
@[simp] theorem State.halted_setReg (s : State) (r : Reg) (v : Word) : (s.setReg r v).halted = s.halted := rfl
@[simp] theorem State.fault_setReg (s : State) (r : Reg) (v : Word) : (s.setReg r v).fault = s.fault := rfl
@[simp] theorem State.fbFirstVisible_setReg (s : State) (r : Reg) (v : Word) :
    (s.setReg r v).fbFirstVisible = s.fbFirstVisible := rfl
@[simp] theorem State.draws_setReg (s : State) (r : Reg) (v : Word) : (s.setReg r v).draws = s.draws := rfl
@[simp] theorem State.debugOut_setReg (s : State) (r : Reg) (v : Word) : (s.setReg r v).debugOut = s.debugOut := rfl

/-! ### A debug event -/

@[simp] theorem State.cfg_emit (s : State) (e : DebugEvent) : (s.emit e).cfg = s.cfg := rfl
@[simp] theorem State.regs_emit (s : State) (e : DebugEvent) : (s.emit e).regs = s.regs := rfl
@[simp] theorem State.mem_emit (s : State) (e : DebugEvent) : (s.emit e).mem = s.mem := rfl
@[simp] theorem State.icache_emit (s : State) (e : DebugEvent) : (s.emit e).icache = s.icache := rfl
@[simp] theorem State.cycles_emit (s : State) (e : DebugEvent) : (s.emit e).cycles = s.cycles := rfl
@[simp] theorem State.checkpoint_emit (s : State) (e : DebugEvent) : (s.emit e).checkpoint = s.checkpoint := rfl
@[simp] theorem State.halted_emit (s : State) (e : DebugEvent) : (s.emit e).halted = s.halted := rfl
@[simp] theorem State.fault_emit (s : State) (e : DebugEvent) : (s.emit e).fault = s.fault := rfl
@[simp] theorem State.fbFirstVisible_emit (s : State) (e : DebugEvent) :
    (s.emit e).fbFirstVisible = s.fbFirstVisible := rfl
@[simp] theorem State.draws_emit (s : State) (e : DebugEvent) : (s.emit e).draws = s.draws := rfl
@[simp] theorem State.debugOut_emit (s : State) (e : DebugEvent) : (s.emit e).debugOut = e :: s.debugOut := rfl
@[simp] theorem State.reg_emit (s : State) (e : DebugEvent) (q : Reg) : (s.emit e).reg q = s.reg q := rfl

/-! ### Fault entry -/

@[simp] theorem State.cfg_raise (s : State) (k : Fault) : (s.raise k).cfg = s.cfg := rfl
@[simp] theorem State.regs_raise (s : State) (k : Fault) : (s.raise k).regs = s.regs := rfl
@[simp] theorem State.mem_raise (s : State) (k : Fault) : (s.raise k).mem = s.mem := rfl
@[simp] theorem State.icache_raise (s : State) (k : Fault) : (s.raise k).icache = s.icache := rfl
@[simp] theorem State.cycles_raise (s : State) (k : Fault) : (s.raise k).cycles = s.cycles := rfl
@[simp] theorem State.checkpoint_raise (s : State) (k : Fault) : (s.raise k).checkpoint = s.checkpoint := rfl
@[simp] theorem State.halted_raise (s : State) (k : Fault) : (s.raise k).halted = s.halted := rfl
@[simp] theorem State.fault_raise (s : State) (k : Fault) : (s.raise k).fault = some ⟨k, s.reg ipReg⟩ := rfl
@[simp] theorem State.fbFirstVisible_raise (s : State) (k : Fault) :
    (s.raise k).fbFirstVisible = s.fbFirstVisible := rfl
@[simp] theorem State.draws_raise (s : State) (k : Fault) : (s.raise k).draws = s.draws := rfl
@[simp] theorem State.debugOut_raise (s : State) (k : Fault) : (s.raise k).debugOut = s.debugOut := rfl
@[simp] theorem State.reg_raise (s : State) (k : Fault) (q : Reg) : (s.raise k).reg q = s.reg q := rfl

/-! ### The cycle cost -/

@[simp] theorem State.cfg_addCost (s : State) (op : Opcode) : (s.addCost op).cfg = s.cfg := rfl
@[simp] theorem State.regs_addCost (s : State) (op : Opcode) : (s.addCost op).regs = s.regs := rfl
@[simp] theorem State.mem_addCost (s : State) (op : Opcode) : (s.addCost op).mem = s.mem := rfl
@[simp] theorem State.icache_addCost (s : State) (op : Opcode) : (s.addCost op).icache = s.icache := rfl
@[simp] theorem State.cycles_addCost (s : State) (op : Opcode) :
    (s.addCost op).cycles = s.cycles + BitVec.ofNat 64 (s.cfg.cost op) := rfl
@[simp] theorem State.checkpoint_addCost (s : State) (op : Opcode) : (s.addCost op).checkpoint = s.checkpoint := rfl
@[simp] theorem State.halted_addCost (s : State) (op : Opcode) : (s.addCost op).halted = s.halted := rfl
@[simp] theorem State.fault_addCost (s : State) (op : Opcode) : (s.addCost op).fault = s.fault := rfl
@[simp] theorem State.fbFirstVisible_addCost (s : State) (op : Opcode) :
    (s.addCost op).fbFirstVisible = s.fbFirstVisible := rfl
@[simp] theorem State.draws_addCost (s : State) (op : Opcode) : (s.addCost op).draws = s.draws := rfl
@[simp] theorem State.debugOut_addCost (s : State) (op : Opcode) : (s.addCost op).debugOut = s.debugOut := rfl
@[simp] theorem State.reg_addCost (s : State) (op : Opcode) (q : Reg) : (s.addCost op).reg q = s.reg q := rfl

/-! ### The lazy fill -/

@[simp] theorem State.cfg_fillSlot (s : State) : (s.fillSlot).cfg = s.cfg := rfl
@[simp] theorem State.regs_fillSlot (s : State) : (s.fillSlot).regs = s.regs := rfl
@[simp] theorem State.mem_fillSlot (s : State) : (s.fillSlot).mem = s.mem := rfl
@[simp] theorem State.cycles_fillSlot (s : State) : (s.fillSlot).cycles = s.cycles := rfl
@[simp] theorem State.checkpoint_fillSlot (s : State) : (s.fillSlot).checkpoint = s.checkpoint := rfl
@[simp] theorem State.halted_fillSlot (s : State) : (s.fillSlot).halted = s.halted := rfl
@[simp] theorem State.fault_fillSlot (s : State) : (s.fillSlot).fault = s.fault := rfl
@[simp] theorem State.fbFirstVisible_fillSlot (s : State) : (s.fillSlot).fbFirstVisible = s.fbFirstVisible := rfl
@[simp] theorem State.draws_fillSlot (s : State) : (s.fillSlot).draws = s.draws := rfl
@[simp] theorem State.debugOut_fillSlot (s : State) : (s.fillSlot).debugOut = s.debugOut := rfl
@[simp] theorem State.reg_fillSlot (s : State) (q : Reg) : (s.fillSlot).reg q = s.reg q := rfl

@[simp] theorem State.reg_with_mem (s : State) (x : Memory) (q : Reg) : { s with mem := x }.reg q = s.reg q := rfl
@[simp] theorem State.reg_with_icache (s : State) (x : ICache) (q : Reg) :
    { s with icache := x }.reg q = s.reg q := rfl
@[simp] theorem State.reg_with_checkpoint (s : State) (x : Word) (q : Reg) :
    { s with checkpoint := x }.reg q = s.reg q := rfl
@[simp] theorem State.reg_with_halted (s : State) (x : Bool) (q : Reg) : { s with halted := x }.reg q = s.reg q := rfl
@[simp] theorem State.reg_with_fbFirstVisible (s : State) (x : Bool) (q : Reg) :
    { s with fbFirstVisible := x }.reg q = s.reg q := rfl
@[simp] theorem State.reg_with_draws (s : State) (x : Nat) (q : Reg) : { s with draws := x }.reg q = s.reg q := rfl
@[simp] theorem State.reg_with_fault (s : State) (x : Option FaultRecord) (q : Reg) :
    { s with fault := x }.reg q = s.reg q := rfl

/-! ### The ip advance -/

@[simp] theorem State.cfg_advance (s : State) (op : Opcode) : (s.advance op).cfg = s.cfg := by
  unfold State.advance; split <;> rfl
@[simp] theorem State.mem_advance (s : State) (op : Opcode) : (s.advance op).mem = s.mem := by
  unfold State.advance; split <;> rfl
@[simp] theorem State.icache_advance (s : State) (op : Opcode) : (s.advance op).icache = s.icache := by
  unfold State.advance; split <;> rfl
@[simp] theorem State.cycles_advance (s : State) (op : Opcode) : (s.advance op).cycles = s.cycles := by
  unfold State.advance; split <;> rfl
@[simp] theorem State.checkpoint_advance (s : State) (op : Opcode) : (s.advance op).checkpoint = s.checkpoint := by
  unfold State.advance; split <;> rfl
@[simp] theorem State.halted_advance (s : State) (op : Opcode) : (s.advance op).halted = s.halted := by
  unfold State.advance; split <;> rfl
@[simp] theorem State.fault_advance (s : State) (op : Opcode) : (s.advance op).fault = s.fault := by
  unfold State.advance; split <;> rfl
@[simp] theorem State.fbFirstVisible_advance (s : State) (op : Opcode) :
    (s.advance op).fbFirstVisible = s.fbFirstVisible := by
  unfold State.advance; split <;> rfl
@[simp] theorem State.draws_advance (s : State) (op : Opcode) : (s.advance op).draws = s.draws := by
  unfold State.advance; split <;> rfl
@[simp] theorem State.debugOut_advance (s : State) (op : Opcode) : (s.advance op).debugOut = s.debugOut := by
  unfold State.advance; split <;> rfl

@[simp] theorem State.reg_advance (s : State) (op : Opcode) (q : Reg) :
    (s.advance op).reg q = if q = ipReg ∧ op.increment = true then s.reg ipReg + 8#32 else s.reg q := by
  unfold State.advance
  by_cases h : op.increment = true <;> by_cases hq : q = ipReg <;> simp [h, hq]

end Sys2Proof.Machine
end

