-- ==== Sys2Proof/Laws/Ops.lean ====
section
/-! SUPPORT. For each shared operation of Machine/Ops.lean, one lemma that says everything it can answer. -/

namespace Sys2Proof.Machine

/-! ### Flags -/

theorem Flag.getLsbD_put (f : Flag) (b : Bool) (w : Word) (k : Nat) :
    (f.put b w).getLsbD k = if k = f.bitpos then b else w.getLsbD k := by
  by_cases hk : k < 32
  · unfold Flag.put
    rw [BitVec.getLsbD_or, BitVec.getLsbD_and, BitVec.getLsbD_not, BitVec.getLsbD_shiftLeft]
    by_cases h : k = f.bitpos
    · subst h
      cases f <;> cases b <;> simp [Flag.bitpos]
    · have h1 : ¬ (k - f.bitpos = 0 ∧ ¬ k < f.bitpos) := by omega
      have h0 : (1#32 <<< f.bitpos).getLsbD k = false := by
        rw [BitVec.getLsbD_shiftLeft, BitVec.getLsbD_one]
        simp only [Bool.and_eq_false_imp, decide_eq_false_iff_not]
        simp
        omega
      rw [BitVec.getLsbD_shiftLeft] at h0
      rw [h0]
      cases b <;> simp [hk, h]
      omega
  · have : k ≠ f.bitpos := by cases f <;> simp [Flag.bitpos] <;> omega
    rw [BitVec.getLsbD_of_ge _ k (by omega), BitVec.getLsbD_of_ge _ k (by omega), if_neg this]

theorem State.getFlag_eq (s : State) (f : Flag) : s.getFlag f = (s.reg flagsReg).getLsbD f.bitpos := by
  have h : ∀ w : Word, ∀ k, decide ((w >>> k) &&& 1#32 = 1#32) = w.getLsbD k := by
    intro w k
    have : (w >>> k) &&& 1#32 = if w.getLsbD k then 1#32 else 0#32 := by
      ext j hj
      simp only [BitVec.getElem_and, BitVec.getElem_ushiftRight, BitVec.getElem_one]
      by_cases h0 : j = 0
      · subst h0; by_cases hw : w.getLsbD k = true <;> simp [hw]
      · by_cases hw : w.getLsbD k = true <;> simp [hw, h0]
    rw [this]
    by_cases hw : w.getLsbD k = true <;> simp [hw]
  exact h _ _

/-! ### The checked memory accesses -/

theorem accessFault_eq_none (a : Word) (n : Nat) : accessFault a n = none ↔ Accessible a n := by
  unfold accessFault Accessible
  split
  · simp; omega
  · split <;> simp <;> omega

theorem accessFault_unaligned (a : Word) (n : Nat) (h : a.toNat % n ≠ 0) :
    accessFault a n = some (.unalignedAccess a n) := by simp [accessFault, h]

theorem accessFault_outOfBounds (a : Word) (n : Nat) (h : a.toNat % n = 0) (hb : memorySize < a.toNat + n) :
    accessFault a n = some (.outOfBounds a n) := by simp [accessFault, h, hb]

/-- A fault of an access is one of the two kinds. -/
theorem accessFault_eq_some (a : Word) (n : Nat) (k : Fault) (h : accessFault a n = some k) :
    (k = .unalignedAccess a n ∧ a.toNat % n ≠ 0) ∨
      (k = .outOfBounds a n ∧ a.toNat % n = 0 ∧ memorySize < a.toNat + n) := by
  unfold accessFault at h
  split at h
  · next h1 => left; exact ⟨by simpa using h.symm, h1⟩
  · next h1 =>
    split at h
    · next h2 => right; exact ⟨by simpa using h.symm, by simpa using h1, h2⟩
    · cases h

theorem State.memRead_ok (s : State) (a : Word) (w : Width) (h : Accessible a w.bytes) :
    s.memRead a w = .ok (beValue (s.mem.bytes a.toNat w.bytes)) := by
  unfold State.memRead; rw [(accessFault_eq_none a w.bytes).mpr h]

theorem State.memRead_error (s : State) (a : Word) (w : Width) (k : Fault) (h : accessFault a w.bytes = some k) :
    s.memRead a w = .error k := by unfold State.memRead; rw [h]

theorem State.memWrite_ok (s : State) (a : Word) (w : Width) (v : Nat) (h : Accessible a w.bytes) :
    s.memWrite a w v = .ok { s with mem := s.mem.setBytes a.toNat (beBytes w.bytes v) } := by
  unfold State.memWrite; rw [(accessFault_eq_none a w.bytes).mpr h]

theorem State.memWrite_error (s : State) (a : Word) (w : Width) (v : Nat) (k : Fault)
    (h : accessFault a w.bytes = some k) : s.memWrite a w v = .error k := by unfold State.memWrite; rw [h]

/-- Everything a checked write can answer. -/
theorem State.memWrite_cases (s : State) (a : Word) (w : Width) (v : Nat) :
    (Accessible a w.bytes ∧ s.memWrite a w v = .ok { s with mem := s.mem.setBytes a.toNat (beBytes w.bytes v) }) ∨
      ∃ k, accessFault a w.bytes = some k ∧ s.memWrite a w v = .error k := by
  cases h : accessFault a w.bytes with
  | none => exact .inl ⟨(accessFault_eq_none _ _).mp h, s.memWrite_ok a w v ((accessFault_eq_none _ _).mp h)⟩
  | some k => exact .inr ⟨k, rfl, s.memWrite_error a w v k h⟩

/-- Everything a checked read can answer. -/
theorem State.memRead_cases (s : State) (a : Word) (w : Width) :
    (Accessible a w.bytes ∧ s.memRead a w = .ok (beValue (s.mem.bytes a.toNat w.bytes))) ∨
      ∃ k, accessFault a w.bytes = some k ∧ s.memRead a w = .error k := by
  cases h : accessFault a w.bytes with
  | none => exact .inl ⟨(accessFault_eq_none _ _).mp h, s.memRead_ok a w ((accessFault_eq_none _ _).mp h)⟩
  | some k => exact .inr ⟨k, rfl, s.memRead_error a w k h⟩

/-- A read of the bytes a write has just stored. -/
theorem Memory.stored_setBytes (m : Memory) (a n : Nat) (v : Word) :
    (∀ k, k < n → (m.setBytes a (beBytes n v.toNat)).byte (a + k) = v.extractLsb' (8 * (n - 1 - k)) 8) ∧
      ∀ b, (b < a ∨ a + n ≤ b) → (m.setBytes a (beBytes n v.toNat)).byte b = m.byte b := by
  constructor
  · intro k hk
    rw [Memory.byte_setBytes_inside _ _ _ _ (by simpa using hk), getElem_beBytes]
    apply BitVec.eq_of_toNat_eq
    simp [Nat.shiftRight_eq_div_pow]
  · intro b hb
    exact Memory.byte_setBytes_outside _ _ _ _ (by simpa using hb)

/-! ### Values of byte lists -/

theorem beValue_one (a : Byte) : BitVec.ofNat 32 (beValue [a]) = a.setWidth 32 := by
  apply BitVec.eq_of_toNat_eq; simp [beValue]

theorem beValue_cons_append {n : Nat} (x : BitVec n) (b : Byte) :
    (x ++ b).toNat = x.toNat * 256 + b.toNat := by
  rw [BitVec.toNat_append, ← Nat.shiftLeft_add_eq_or_of_lt b.isLt, Nat.shiftLeft_eq]

theorem beValue_two (a b : Byte) : beValue [a, b] = (a ++ b).toNat := by
  rw [beValue_cons_append]; simp [beValue]

theorem beValue_four (a b c d : Byte) : beValue [a, b, c, d] = (a ++ b ++ c ++ d).toNat := by
  simp only [beValue_cons_append]; simp [beValue]

theorem Memory.bytes_one (m : Memory) (a : Nat) : m.bytes a 1 = [m.byte a] := rfl
theorem Memory.bytes_two (m : Memory) (a : Nat) : m.bytes a 2 = [m.byte a, m.byte (a + 1)] := rfl
theorem Memory.bytes_four (m : Memory) (a : Nat) :
    m.bytes a 4 = [m.byte a, m.byte (a + 1), m.byte (a + 2), m.byte (a + 3)] := rfl

/-- The value a load of each width gives. -/
theorem State.load_byte (s : State) (a : Nat) :
    BitVec.ofNat 32 (beValue (s.mem.bytes a Width.byte.bytes)) = (s.mem.byte a).setWidth 32 := beValue_one _
theorem State.load_half (s : State) (a : Nat) :
    BitVec.ofNat 32 (beValue (s.mem.bytes a Width.half.bytes)) = (s.halfAt a).setWidth 32 := by
  change BitVec.ofNat 32 (beValue (s.mem.bytes a 2)) = _
  rw [Memory.bytes_two, beValue_two]
  apply BitVec.eq_of_toNat_eq; simp [State.halfAt]
theorem State.load_word (s : State) (a : Nat) :
    BitVec.ofNat 32 (beValue (s.mem.bytes a Width.word.bytes)) = s.wordAt a := by
  change BitVec.ofNat 32 (beValue (s.mem.bytes a 4)) = _
  rw [Memory.bytes_four, beValue_four, BitVec.ofNat_toNat]
  rfl
/-- The word read where a word has just been stored. -/
theorem State.wordAt_setBytes (s : State) (m : Memory) (a : Nat) (v : Word)
    (h : s.mem = m.setBytes a (beBytes 4 v.toNat)) : s.wordAt a = v := by
  have hb := m.bytes_setBytes a (beBytes 4 v.toNat)
  rw [length_beBytes] at hb
  rw [← State.load_word]
  change BitVec.ofNat 32 (beValue (s.mem.bytes a 4)) = v
  rw [h, hb, beValue_beBytes]
  apply BitVec.eq_of_toNat_eq
  have := v.isLt
  rw [BitVec.toNat_ofNat]
  omega
/-- The word the fetch reads. -/
theorem State.dword_eq (s : State) (a : Nat) : s.mem.dword a = s.dwordAt a := by
  unfold Memory.dword
  change BitVec.ofNat 64 (beValue [s.mem.byte a, s.mem.byte (a + 1), s.mem.byte (a + 2), s.mem.byte (a + 3),
    s.mem.byte (a + 4), s.mem.byte (a + 5), s.mem.byte (a + 6), s.mem.byte (a + 7)]) = _
  apply BitVec.eq_of_toNat_eq
  have h4 : s.dwordAt a = s.wordAt a ++ s.wordAt (a + 4) := rfl
  have hl := (s.wordAt (a + 4)).isLt
  rw [h4, BitVec.toNat_append, ← Nat.shiftLeft_add_eq_or_of_lt hl, Nat.shiftLeft_eq]
  have h8 : ∀ b : Byte, b.toNat < 256 := fun b => b.isLt
  have e1 : (s.wordAt a).toNat = ((((s.mem.byte a).toNat * 256 + (s.mem.byte (a + 1)).toNat) * 256 +
      (s.mem.byte (a + 2)).toNat) * 256 + (s.mem.byte (a + 3)).toNat) := by
    simp only [State.wordAt, beValue_cons_append]
  have e2 : (s.wordAt (a + 4)).toNat = ((((s.mem.byte (a + 4)).toNat * 256 + (s.mem.byte (a + 5)).toNat) * 256 +
      (s.mem.byte (a + 6)).toNat) * 256 + (s.mem.byte (a + 7)).toNat) := by
    simp only [State.wordAt, beValue_cons_append]
  rw [e1, e2, BitVec.toNat_ofNat]
  simp only [beValue, List.foldl_cons, List.foldl_nil]
  have := h8 (s.mem.byte a); have := h8 (s.mem.byte (a + 1)); have := h8 (s.mem.byte (a + 2))
  have := h8 (s.mem.byte (a + 3)); have := h8 (s.mem.byte (a + 4)); have := h8 (s.mem.byte (a + 5))
  have := h8 (s.mem.byte (a + 6)); have := h8 (s.mem.byte (a + 7))
  omega

/-! ### Stack primitives -/

theorem admitted_layout (c : Config) (h : c.admitted = true) :
    c.stackEnd ≤ memorySize ∧ c.entryPoint % 8 = 0 ∧ c.entryPoint = c.stackEnd ∧ c.stackStart ≤ c.stackEnd := by
  simp only [Config.admitted, Config.layoutFits, Bool.and_eq_true, decide_eq_true_eq] at h
  refine ⟨h.1.1.1.1.1.1.1, h.1.1.1.1.1.1.2, rfl, Nat.le_add_right _ _⟩

theorem Config.stackFault_eq_none (c : Config) (a : Word) : Config.stackFault c a = none ↔ InStack c a := by
  unfold Config.stackFault InStack
  split
  · simp; omega
  · split <;> simp <;> omega

theorem Config.stackFault_unaligned (c : Config) (a : Word) (h : a.toNat % 4 ≠ 0) :
    Config.stackFault c a = some (.unalignedAccess a 4) := by simp [Config.stackFault, h]

theorem Config.stackFault_outOfBounds (c : Config) (a : Word) (h : a.toNat % 4 = 0)
    (hb : a.toNat < c.stackStart ∨ c.stackEnd < a.toNat + 4) :
    Config.stackFault c a = some (.outOfBounds a 4) := by simp [Config.stackFault, h, hb]

/-- A fault of a stack access is one of the two kinds. -/
theorem Config.stackFault_eq_some (c : Config) (a : Word) (k : Fault) (h : Config.stackFault c a = some k) :
    k = .unalignedAccess a 4 ∨ k = .outOfBounds a 4 := by
  unfold Config.stackFault at h
  split at h
  · left; simpa using h.symm
  · split at h
    · right; simpa using h.symm
    · cases h

/-- A stack access of an admitted configuration is a memory access inside memory. -/
theorem InStack.accessible {c : Config} {a : Word} (hc : c.admitted = true) (h : InStack c a) : Accessible a 4 :=
  ⟨h.1, by have := h.2.2; have := (admitted_layout c hc).1; omega⟩

/-- Everything a push can answer. -/
theorem State.push32_cases (s : State) (v : Word) :
    (InStack s.cfg s.sp ∧ Accessible s.sp 4 ∧
      s.push32 v = .ok ({ s with mem := s.mem.setBytes s.sp.toNat (beBytes 4 v.toNat) }.setReg spReg (s.sp + 4))) ∨
      ∃ k, (Config.stackFault s.cfg s.sp = some k ∨
        (Config.stackFault s.cfg s.sp = none ∧ accessFault s.sp 4 = some k)) ∧ s.push32 v = .error k := by
  cases hs : Config.stackFault s.cfg s.sp with
  | some k => exact .inr ⟨k, .inl rfl, by unfold State.push32; rw [hs]⟩
  | none =>
    rcases s.memWrite_cases s.sp .word v.toNat with ⟨ha, hw⟩ | ⟨k, ha, hw⟩
    · exact .inl ⟨(Config.stackFault_eq_none _ _).mp hs, ha, by unfold State.push32; rw [hs, hw]; rfl⟩
    · exact .inr ⟨k, .inr ⟨rfl, ha⟩, by unfold State.push32; rw [hs, hw]⟩

/-- Everything a pop can answer. -/
theorem State.pop32_cases (s : State) :
    (InStack s.cfg (s.sp - 4) ∧ Accessible (s.sp - 4) 4 ∧
      s.pop32 = .ok (s.wordAt (s.sp - 4).toNat, s.setReg spReg (s.sp - 4))) ∨
      ∃ k, (Config.stackFault s.cfg (s.sp - 4) = some k ∨
        (Config.stackFault s.cfg (s.sp - 4) = none ∧ accessFault (s.sp - 4) 4 = some k)) ∧ s.pop32 = .error k := by
  have hp : s.popAddress = s.sp - 4 := rfl
  cases hs : Config.stackFault s.cfg (s.sp - 4) with
  | some k => exact .inr ⟨k, .inl rfl, by unfold State.pop32; rw [hp, hs]⟩
  | none =>
    rcases s.memRead_cases (s.sp - 4) .word with ⟨ha, hw⟩ | ⟨k, ha, hw⟩
    · exact .inl ⟨(Config.stackFault_eq_none _ _).mp hs, ha, by
        unfold State.pop32; rw [hp, hs, hw]; simp only [State.load_word, State.setSp_def]⟩
    · exact .inr ⟨k, .inr ⟨rfl, ha⟩, by unfold State.pop32; rw [hp, hs, hw]⟩

/-- A push inside the stack region of an admitted configuration. -/
theorem State.push32_ok (s : State) (v : Word) (hc : s.cfg.admitted = true) (h : InStack s.cfg s.sp) :
    s.push32 v = .ok ({ s with mem := s.mem.setBytes s.sp.toNat (beBytes 4 v.toNat) }.setReg spReg (s.sp + 4)) := by
  rcases s.push32_cases v with ⟨-, -, h1⟩ | ⟨k, h1 | ⟨-, h1⟩, -⟩
  · exact h1
  · rw [(Config.stackFault_eq_none _ _).mpr h] at h1; cases h1
  · rw [(accessFault_eq_none _ _).mpr (h.accessible hc)] at h1; cases h1

theorem State.push32_error (s : State) (v : Word) (k : Fault) (h : Config.stackFault s.cfg s.sp = some k) :
    s.push32 v = .error k := by unfold State.push32; rw [h]

/-- A pop inside the stack region of an admitted configuration. -/
theorem State.pop32_ok (s : State) (hc : s.cfg.admitted = true) (h : InStack s.cfg (s.sp - 4)) :
    s.pop32 = .ok (s.wordAt (s.sp - 4).toNat, s.setReg spReg (s.sp - 4)) := by
  rcases s.pop32_cases with ⟨-, -, h1⟩ | ⟨k, h1 | ⟨-, h1⟩, -⟩
  · exact h1
  · rw [(Config.stackFault_eq_none _ _).mpr h] at h1; cases h1
  · rw [(accessFault_eq_none _ _).mpr (h.accessible hc)] at h1; cases h1

theorem State.pop32_error (s : State) (k : Fault) (h : Config.stackFault s.cfg (s.sp - 4) = some k) :
    s.pop32 = .error k := by
  have hp : s.popAddress = s.sp - 4 := rfl
  unfold State.pop32; rw [hp, h]

/-! ### The end of an instruction -/

@[simp] theorem finish_normal (op : Opcode) (s t : State) :
    finish op s (.normal t) = .next ((t.advance op).addCost op) := rfl
@[simp] theorem finish_halted (op : Opcode) (s t : State) :
    finish op s (.halted t) = .next ({ t with halted := true }.addCost op) := rfl
@[simp] theorem finish_error (op : Opcode) (s : State) (k : Fault) :
    finish op s (.error k) = .next { s with fault := some ⟨k, s.ip⟩ } := rfl

end Sys2Proof.Machine
end

