-- ==== Sys2Proof/Laws/Cache.lean ====
section
/-! SUPPORT. The laws of the instruction cache and its generation. -/

namespace Sys2Proof.Machine

@[simp] theorem ICache.get_put (ic : ICache) (i j : Nat) (e : CacheEntry) :
    (ic.put i e).get j = if j = i then e else ic.get j := by
  unfold ICache.put ICache.get
  exact sparseGet_put _ ic.entries i j e

theorem ICache.wf_put (ic : ICache) (i : Nat) (e : CacheEntry) (h : ic.wf = true) (hi : i < memorySize / 8) :
    (ic.put i e).wf = true := sparseWf_put _ _ _ _ _ h hi

theorem ICache.wf_base (e : CacheEntry) : (ICache.mk e []).wf = true := rfl

/-- Decoding never leaves a slot Empty. -/
theorem decodeEntry_ne_empty (c : Codec) (w : DWord) : decodeEntry c w ≠ .empty := by
  unfold decodeEntry; split <;> simp

/-! ### Generation of a range of slots -/

theorem ICache.generateSlots_succ (c : Codec) (m : Memory) (lo n : Nat) (ic : ICache) :
    ICache.generateSlots c m lo (n + 1) ic =
      (ICache.generateSlots c m lo n ic).put (lo + n) (slotEntry c m (lo + n)) := by
  simp [ICache.generateSlots, List.range_succ]

/-- Every slot after a generation of a range. -/
theorem ICache.get_generateSlots (c : Codec) (m : Memory) (lo n : Nat) (ic : ICache) (slot : Nat) :
    (ICache.generateSlots c m lo n ic).get slot =
      if lo ≤ slot ∧ slot < lo + n then slotEntry c m slot else ic.get slot := by
  induction n with
  | zero => rw [if_neg (by omega)]; rfl
  | succ n ih =>
    rw [ICache.generateSlots_succ, ICache.get_put, ih]
    by_cases h : slot = lo + n
    · subst h; simp
    · rw [if_neg h]
      congr 1
      apply propext
      omega

theorem ICache.wf_generateSlots (c : Codec) (m : Memory) (lo n : Nat) (ic : ICache) (h : ic.wf = true)
    (hn : lo + n ≤ memorySize / 8) : (ICache.generateSlots c m lo n ic).wf = true := by
  induction n with
  | zero => exact h
  | succ n ih =>
    rw [ICache.generateSlots_succ]
    exact ICache.wf_put _ _ _ (ih (by omega)) (by omega)

/-! ### Generation of the whole program region -/

/-- The word at a slot with no listed byte is the blank word. -/
theorem Memory.dword_unlisted (m : Memory) (a : Nat) (h : ∀ c ∈ m, c.1 < a ∨ a + 8 ≤ c.1) :
    m.dword a = Memory.dword [] 0 := by
  have hb : ∀ k, k < 8 → m.byte (a + k) = Memory.blank := fun k hk =>
    sparseGet_eq_default_of_not_mem _ _ _ fun c hc => by have := h c hc; omega
  have : m.bytes a 8 = Memory.bytes [] 0 8 :=
    List.map_congr_left fun k hk => by rw [hb k (List.mem_range.mp hk)]; rfl
  unfold Memory.dword
  rw [this]

theorem ICache.get_generateFold (c : Codec) (m l : Memory) (lo : Nat) (ic : ICache) (slot : Nat) :
    (l.foldl (fun ic cell =>
      if lo ≤ cell.1 / 8 ∧ cell.1 < memorySize then ic.put (cell.1 / 8) (slotEntry c m (cell.1 / 8)) else ic)
      ic).get slot =
      if ∃ cell ∈ l, lo ≤ cell.1 / 8 ∧ cell.1 < memorySize ∧ cell.1 / 8 = slot then slotEntry c m slot
      else ic.get slot := by
  induction l generalizing ic with
  | nil => simp
  | cons x l ih =>
    rw [List.foldl_cons, ih]
    by_cases h : ∃ cell ∈ l, lo ≤ cell.1 / 8 ∧ cell.1 < memorySize ∧ cell.1 / 8 = slot
    · rw [if_pos h, if_pos]
      obtain ⟨y, hy, h⟩ := h
      exact ⟨y, List.mem_cons_of_mem _ hy, h⟩
    · rw [if_neg h]
      by_cases hx : lo ≤ x.1 / 8 ∧ x.1 < memorySize
      · rw [if_pos hx, ICache.get_put]
        by_cases hs : slot = x.1 / 8
        · rw [if_pos hs, if_pos ⟨x, List.mem_cons_self, hx.1, hx.2, hs.symm⟩, hs]
        · rw [if_neg hs, if_neg]
          rintro ⟨y, hy, h1⟩
          rcases List.mem_cons.mp hy with rfl | hy
          · exact hs h1.2.2.symm
          · exact h ⟨y, hy, h1⟩
      · rw [if_neg hx, if_neg]
        rintro ⟨y, hy, h1⟩
        rcases List.mem_cons.mp hy with rfl | hy
        · exact hx ⟨h1.1, h1.2.1⟩
        · exact h ⟨y, hy, h1⟩

/-- Every slot of the generated region after a generation of the whole program region. -/
theorem ICache.get_generateAll (c : Codec) (m : Memory) (lo slot : Nat) (hlo : lo ≤ slot)
    (h : 8 * slot < memorySize) : (ICache.generateAll c m lo).get slot = slotEntry c m slot := by
  unfold ICache.generateAll
  rw [ICache.get_generateFold]
  split
  · rfl
  · next hn =>
    change decodeEntry c (Memory.dword [] 0) = decodeEntry c (m.dword (8 * slot))
    rw [m.dword_unlisted (8 * slot)]
    intro cell hc
    by_contra hcon
    refine hn ⟨cell, hc, ?_, ?_, ?_⟩
    · omega
    · have : memorySize = 16777216 := rfl
      omega
    · omega

/-- Every slot, inside the region or not, after a generation of the whole program region, holds a decode. -/
theorem ICache.get_generateAll_decoded (c : Codec) (m : Memory) (lo slot : Nat) :
    ∃ w, (ICache.generateAll c m lo).get slot = decodeEntry c w := by
  unfold ICache.generateAll
  rw [ICache.get_generateFold]
  split
  · exact ⟨_, rfl⟩
  · exact ⟨_, rfl⟩

theorem ICache.wf_generateFold (c : Codec) (m l : Memory) (lo : Nat) (ic : ICache) (h : ic.wf = true) :
    (l.foldl (fun ic cell =>
      if lo ≤ cell.1 / 8 ∧ cell.1 < memorySize then ic.put (cell.1 / 8) (slotEntry c m (cell.1 / 8)) else ic)
      ic).wf = true := by
  induction l generalizing ic with
  | nil => exact h
  | cons x l ih =>
    refine ih _ ?_
    simp only
    split
    · next hx =>
      refine ICache.wf_put _ _ _ h ?_
      have : memorySize = 16777216 := rfl
      omega
    · exact h

theorem ICache.wf_generateAll (c : Codec) (m : Memory) (lo : Nat) : (ICache.generateAll c m lo).wf = true :=
  ICache.wf_generateFold c m m lo _ (ICache.wf_base _)

/-! ### The host's regeneration -/

/-- Everything a generation can answer. -/
theorem generateCache_cases (c : Config) (m : Memory) (ic : ICache) (call : RegenerateCall) (start size : Nat)
    (hstart : start = call.start.getD c.entryPoint) (hsize : size = call.size.getD (memorySize - start)) :
    ((start < c.entryPoint ∨ start % 8 ≠ 0 ∨ size % 8 ≠ 0 ∨ memorySize < start + size) ∧
      generateCache c m ic call = .error (.invalidCacheRegion start size)) ∨
    (c.entryPoint ≤ start ∧ start % 8 = 0 ∧ size % 8 = 0 ∧ start + size ≤ memorySize ∧
      ((start = c.entryPoint ∧ start + size = memorySize ∧
          generateCache c m ic call = .ok (ICache.generateAll c.codec m (start / 8))) ∨
        (¬ (start = c.entryPoint ∧ start + size = memorySize) ∧
          generateCache c m ic call = .ok (ic.generateSlots c.codec m (start / 8) (size / 8))))) := by
  subst hstart
  subst hsize
  unfold generateCache
  simp only
  split
  · next h =>
    left
    refine ⟨?_, rfl⟩
    simp only [regionRejected, Bool.or_eq_true, decide_eq_true_eq] at h
    tauto
  · next h =>
    right
    simp only [regionRejected, Bool.or_eq_true, decide_eq_true_eq, not_or, not_lt, not_not] at h
    obtain ⟨⟨⟨h1, h2⟩, h3⟩, h4⟩ := h
    refine ⟨h1, h2, h3, h4, ?_⟩
    split
    · next h => exact .inl ⟨h.1, h.2, rfl⟩
    · next h => exact .inr ⟨h, rfl⟩

/-- Everything a regeneration by the host can do to the state. -/
theorem State.regenerate_cases (s : State) (call : RegenerateCall) :
    (∃ ic, generateCache s.cfg s.mem s.icache call = .ok ic ∧ s.regenerate call = { s with icache := ic }) ∨
      ∃ k, generateCache s.cfg s.mem s.icache call = .error k ∧
        s.regenerate call = { s with fault := some ⟨k, s.ip⟩ } := by
  cases h : generateCache s.cfg s.mem s.icache call with
  | ok ic => exact .inl ⟨ic, rfl, by unfold State.regenerate; rw [h]⟩
  | error k => exact .inr ⟨k, rfl, by unfold State.regenerate; rw [h]; rfl⟩

end Sys2Proof.Machine
end

