-- ==== Sys2Proof/Laws/Operands.lean ====
section
/-! SUPPORT. For each shared shape of Machine/Operands.lean, one lemma that says what it answers, in the terms of
Safety.lean. -/

namespace Sys2Proof.Machine

/-- A result that completes with an effect on the register file, in the terms of `RunsTo`. -/
def CompletesTo (res : Result) (op : Opcode) (s : State) (e : Effect) (t : State) : Prop :=
  res = .next t ∧ RegsAfter s t e ∧ CostPaid op s t ∧ SameControl s t

/-- A result that completes and changes registers and the cycle counter only, in the terms of `Runs`. -/
def Completes (res : Result) (op : Opcode) (s : State) (e : Effect) : Prop :=
  ∃ t, CompletesTo res op s e t ∧ SameMemory s t ∧ SameRest s t

theorem runsTo_iff (i : Instr) (s : State) (e : Effect) (t : State) :
    RunsTo i s e t ↔ CompletesTo (exec i s) i.opcode s e t := Iff.rfl

theorem runs_iff (i : Instr) (s : State) (e : Effect) : Runs i s e ↔ Completes (exec i s) i.opcode s e := Iff.rfl

@[simp] theorem written_nil (s : State) (q : Reg) : written s [] q = s.reg q := rfl
@[simp] theorem written_one (s : State) (r q : Reg) (v : Word) :
    written s [(r, v)] q = if q = r then v else s.reg q := rfl
@[simp] theorem written_two (s : State) (r r' q : Reg) (v v' : Word) :
    written s [(r, v), (r', v')] q = if q = r' then v' else if q = r then v else s.reg q := rfl

/-- FLAGS after no flag was set. -/
theorem FlagsAfter.refl (w : Word) (ws : List (Reg × Word)) (a : Word) :
    FlagsAfter w w { writes := ws, advance := a } := ⟨rfl, rfl, rfl, fun _ _ => rfl⟩

/-- FLAGS after Zero was set. -/
theorem FlagsAfter.zero (w : Word) (ws : List (Reg × Word)) (z : Bool) (a : Word) :
    FlagsAfter w (Flag.zero.put z w) { writes := ws, zero := some z, advance := a } := by
  refine ⟨?_, ?_, ?_, fun k hk => ?_⟩ <;> rw [Flag.getLsbD_put]
  · rfl
  · rfl
  · rfl
  · rw [if_neg (by change k ≠ 0; omega)]

/-- FLAGS after Zero and Carry were set. -/
theorem FlagsAfter.zeroCarry (w : Word) (ws : List (Reg × Word)) (z c : Bool) (a : Word) :
    FlagsAfter w (Flag.carry.put c (Flag.zero.put z w))
      { writes := ws, zero := some z, carry := some c, advance := a } := by
  refine ⟨?_, ?_, ?_, fun k hk => ?_⟩ <;> rw [Flag.getLsbD_put, Flag.getLsbD_put]
  · rfl
  · rfl
  · rfl
  · rw [if_neg (by change k ≠ 1; omega), if_neg (by change k ≠ 0; omega)]

/-- FLAGS after Zero and DivideByZero were set. -/
theorem FlagsAfter.zeroDivide (w : Word) (ws : List (Reg × Word)) (z d : Bool) (a : Word) :
    FlagsAfter w (Flag.divideByZero.put d (Flag.zero.put z w))
      { writes := ws, zero := some z, divideByZero := some d, advance := a } := by
  refine ⟨?_, ?_, ?_, fun k hk => ?_⟩ <;> rw [Flag.getLsbD_put, Flag.getLsbD_put]
  · rfl
  · rfl
  · rfl
  · rw [if_neg (by change k ≠ 2; omega), if_neg (by change k ≠ 0; omega)]

/-- The end of an instruction turns what its writes left into what the effect says. -/
theorem completesTo_finish (op : Opcode) (s u : State) (e : Effect)
    (hadvance : e.advance = if op.increment then 8 else 0)
    (hregs : ∀ q, q ≠ flagsReg → u.reg q = written s e.writes q)
    (hflags : FlagsAfter (written s e.writes flagsReg) (u.reg flagsReg) e)
    (hcycles : u.cycles = s.cycles) (hcontrol : SameControl s u) :
    CompletesTo (finish op s (.normal u)) op s e ((u.advance op).addCost op) := by
  obtain ⟨hc, hi, hh, hf⟩ := hcontrol
  refine ⟨rfl, ⟨fun q h1 h2 => ?_, ?_, ?_⟩, ?_, ⟨?_, ?_, ?_, ?_⟩⟩
  · simp [h2, hregs q h1]
  · simpa using hflags
  · have hip := hregs ipReg (by decide)
    by_cases h : op.increment = true <;> simp [h, hadvance, hip]
  · simp [CostPaid, hcycles, hc]
  all_goals simp [*]

theorem completes_finish (op : Opcode) (s u : State) (e : Effect)
    (hadvance : e.advance = if op.increment then 8 else 0)
    (hregs : ∀ q, q ≠ flagsReg → u.reg q = written s e.writes q)
    (hflags : FlagsAfter (written s e.writes flagsReg) (u.reg flagsReg) e)
    (hcycles : u.cycles = s.cycles) (hcontrol : SameControl s u) (hmem : u.mem = s.mem) (hrest : SameRest s u) :
    Completes (finish op s (.normal u)) op s e := by
  refine ⟨_, completesTo_finish op s u e hadvance hregs hflags hcycles hcontrol, fun a => ?_, ?_⟩
  · simp [hmem]
  · obtain ⟨h1, h2, h3, h4⟩ := hrest
    exact ⟨by simpa using h1, by simpa using h2, by simpa using h3, by simpa using h4⟩

/-- What a value write answers. -/
theorem writeValue_completes (op : Opcode) (r : Reg) (v : Word) (s : State) (h : op.increment = true) :
    Completes (writeValue op r v s) op s { writes := [(r, v)] } := by
  refine completes_finish op s _ _ (by simp [h]) (fun q _ => by simp) ?_ rfl ⟨rfl, rfl, rfl, rfl⟩ rfl
    ⟨rfl, rfl, rfl, rfl⟩
  simpa using FlagsAfter.refl _ _ _

/-- What a write with Zero answers. -/
theorem writeZ_completes (op : Opcode) (r : Reg) (v : Word) (z : Bool) (s : State) (h : op.increment = true) :
    Completes (writeZ op r v z s) op s { writes := [(r, v)], zero := some z } := by
  refine completes_finish op s _ _ (by simp [h]) (fun q hq => by simp [hq]) ?_ rfl ⟨rfl, rfl, rfl, rfl⟩ rfl
    ⟨rfl, rfl, rfl, rfl⟩
  simpa using FlagsAfter.zero _ _ _ _

/-- What a write with Zero and Carry answers. -/
theorem writeZC_completes (op : Opcode) (r : Reg) (x : ZC) (s : State) (h : op.increment = true) :
    Completes (writeZC op r x s) op s
      { writes := [(r, x.value)], zero := some x.zero, carry := some x.carry } := by
  refine completes_finish op s _ _ (by simp [h]) (fun q hq => by simp [hq]) ?_ rfl ⟨rfl, rfl, rfl, rfl⟩ rfl
    ⟨rfl, rfl, rfl, rfl⟩
  simpa using FlagsAfter.zeroCarry _ _ _ _ _

/-- What a write of two registers answers. -/
theorem setPair_completes (op : Opcode) (a b : Reg) (v w : Word) (s : State) (h : op.increment = true) :
    Completes (finish op s (.normal (s.setPair a b v w))) op s { writes := [(a, v), (b, w)] } := by
  refine completes_finish op s _ _ (by simp [h]) (fun q _ => by simp) ?_ rfl ⟨rfl, rfl, rfl, rfl⟩ rfl
    ⟨rfl, rfl, rfl, rfl⟩
  simpa using FlagsAfter.refl _ _ _

/-- A jump as one write of `ip`. -/
theorem jumpIf_eq (op : Opcode) (b : Bool) (a : Word) (s : State) :
    jumpIf op b a s = finish op s (.normal (s.setIp (if b then a else s.ip + 8))) := by cases b <;> rfl

/-- What a jump answers. -/
theorem jumpIf_completes (op : Opcode) (b : Bool) (a : Word) (s : State) (h : op.increment = false) :
    Completes (jumpIf op b a s) op s { writes := [(ipReg, if b then a else s.ip + 8)], advance := 0 } := by
  rw [jumpIf_eq]
  refine completes_finish op s _ _ (by simp [h]) (fun q _ => by cases b <;> simp) ?_ rfl ⟨rfl, rfl, rfl, rfl⟩ rfl
    ⟨rfl, rfl, rfl, rfl⟩
  cases b <;> simpa using FlagsAfter.refl _ _ _

/-- What an instruction with no write at all answers. -/
theorem advance_completes (op : Opcode) (s : State) (h : op.increment = true) :
    Completes (finish op s (.normal s)) op s {} := by
  refine completes_finish op s _ _ (by simp [h]) (fun q _ => rfl) ?_ rfl ⟨rfl, rfl, rfl, rfl⟩ rfl
    ⟨rfl, rfl, rfl, rfl⟩
  simpa using FlagsAfter.refl _ _ _

/-- What a load answers at an accessible address. -/
theorem load_completes (op : Opcode) (w : Width) (r : Reg) (a : Word) (s : State) (h : op.increment = true)
    (ha : Accessible a w.bytes) :
    Completes (load op w r a s) op s
      { writes := [(r, BitVec.ofNat 32 (beValue (s.mem.bytes a.toNat w.bytes)))] } := by
  unfold load
  rw [s.memRead_ok a w ha]
  exact writeValue_completes op r _ s h

/-- What a load answers where the access faults. -/
theorem load_error (op : Opcode) (w : Width) (r : Reg) (a : Word) (s : State) (k : Fault)
    (ha : accessFault a w.bytes = some k) : load op w r a s = .next { s with fault := some ⟨k, s.ip⟩ } := by
  unfold load
  rw [s.memRead_error a w k ha]
  rfl

/-- What a store answers at an accessible address. -/
theorem store_completes (op : Opcode) (w : Width) (a v : Word) (s : State) (h : op.increment = true)
    (ha : Accessible a w.bytes) :
    ∃ t, CompletesTo (store op w a v s) op s {} t ∧ Stored s t a.toNat w.bytes v ∧ SameRest s t := by
  unfold store
  rw [s.memWrite_ok a w _ ha]
  refine ⟨_, completesTo_finish op s _ _ (by simp [h]) (fun q _ => rfl) (by exact FlagsAfter.refl _ _ _) rfl
    ⟨rfl, rfl, rfl, rfl⟩, ?_, ?_⟩
  · have := s.mem.stored_setBytes a.toNat w.bytes v
    exact ⟨fun k hk => by simpa using this.1 k hk, fun b hb => by simpa using this.2 b hb⟩
  · exact ⟨by simp, by simp, by simp, by simp⟩

/-- What a store answers where the access faults. -/
theorem store_error (op : Opcode) (w : Width) (a v : Word) (s : State) (k : Fault)
    (ha : accessFault a w.bytes = some k) : store op w a v s = .next { s with fault := some ⟨k, s.ip⟩ } := by
  unfold store
  rw [s.memWrite_error a w _ k ha]
  rfl

/-- What a push answers inside the stack region. -/
theorem pushThen_ok (op : Opcode) (v : Word) (after : State → State) (s : State) (hc : s.cfg.admitted = true)
    (h : InStack s.cfg s.sp) :
    pushThen op v after s = finish op s (.normal (after
      ({ s with mem := s.mem.setBytes s.sp.toNat (beBytes 4 v.toNat) }.setReg spReg (s.sp + 4)))) := by
  unfold pushThen
  rw [s.push32_ok v hc h]

/-- What a push answers where the stack access faults. -/
theorem pushThen_error (op : Opcode) (v : Word) (after : State → State) (s : State) (k : Fault)
    (h : Config.stackFault s.cfg s.sp = some k) :
    pushThen op v after s = .next { s with fault := some ⟨k, s.ip⟩ } := by
  unfold pushThen
  rw [s.push32_error v k h]
  rfl

/-- What a pop answers inside the stack region. -/
theorem popThen_ok (op : Opcode) (after : Word → State → State) (s : State) (hc : s.cfg.admitted = true)
    (h : InStack s.cfg (s.sp - 4)) :
    popThen op after s = finish op s (.normal (after (s.wordAt (s.sp - 4).toNat) (s.setReg spReg (s.sp - 4)))) := by
  unfold popThen
  rw [s.pop32_ok hc h]

/-- What a pop answers where the stack access faults. -/
theorem popThen_error (op : Opcode) (after : Word → State → State) (s : State) (k : Fault)
    (h : Config.stackFault s.cfg (s.sp - 4) = some k) :
    popThen op after s = .next { s with fault := some ⟨k, s.ip⟩ } := by
  unfold popThen
  rw [s.pop32_error k h]
  rfl

end Sys2Proof.Machine
end

