-- ==== Sys2Proof/Laws/Exec.lean ====
section
/-! SUPPORT. Everything an instruction can answer: it ends with `finish`, and its effects leave the control state alone
and memory in canonical form. -/

namespace Sys2Proof.Machine

/-- What the effects of an instruction leave: the control state and the cycle counter as they were, and memory as it was
or with one write inside memory. -/
structure EffectsKeep (s u : State) : Prop where
  control : SameControl s u
  cycles : u.cycles = s.cycles
  memory : u.mem = s.mem ∨ ∃ a bs, a + bs.length ≤ memorySize ∧ u.mem = s.mem.setBytes a bs

/-- How the effects of an instruction can end: a state, the halt, or a fault of execution. -/
def EndsWell (i : Instr) (s : State) : ExecResult → Prop
  | .normal u => EffectsKeep s u
  | .halted u => i = .haltAndCatchFire ∧ u = s
  | .error k => 4 ≤ k.code ∧ k.code ≤ 8

theorem EffectsKeep.refl (s : State) : EffectsKeep s s := ⟨⟨rfl, rfl, rfl, rfl⟩, rfl, .inl rfl⟩

theorem EffectsKeep.setReg {s u : State} (h : EffectsKeep s u) (r : Reg) (v : Word) : EffectsKeep s (u.setReg r v) :=
  ⟨h.control, h.cycles, h.memory⟩

theorem EffectsKeep.wf {s u : State} (h : EffectsKeep s u) (hw : s.mem.wf = true) : u.mem.wf = true := by
  rcases h.memory with h | ⟨a, bs, hb, h⟩
  · rw [h]; exact hw
  · rw [h]; exact Memory.wf_setBytes _ _ _ hw hb

theorem accessFault_code (a : Word) (n : Nat) (k : Fault) (h : accessFault a n = some k) : 4 ≤ k.code ∧ k.code ≤ 8 := by
  rcases accessFault_eq_some a n k h with ⟨rfl, -⟩ | ⟨rfl, -⟩ <;> simp [Fault.code]

theorem stackFault_code (c : Config) (a : Word) (k : Fault) (h : Config.stackFault c a = some k) :
    4 ≤ k.code ∧ k.code ≤ 8 := by
  rcases Config.stackFault_eq_some c a k h with rfl | rfl <;> simp [Fault.code]

/-! ### The shared shapes -/

/-- An effect that only writes registers, whatever it writes. -/
theorem registers_end (i : Instr) (op : Opcode) (s u : State) (h : EffectsKeep s u) :
    ∃ r, finish op s (.normal u) = finish op s r ∧ EndsWell i s r := ⟨.normal u, rfl, h⟩

theorem load_end (i : Instr) (op : Opcode) (w : Width) (r : Reg) (a : Word) (s : State) :
    ∃ x, load op w r a s = finish op s x ∧ EndsWell i s x := by
  unfold load
  rcases s.memRead_cases a w with ⟨-, h⟩ | ⟨k, hk, h⟩ <;> rw [h]
  · exact ⟨_, rfl, (EffectsKeep.refl s).setReg _ _⟩
  · exact ⟨_, rfl, accessFault_code _ _ _ hk⟩

theorem store_end (i : Instr) (op : Opcode) (w : Width) (a v : Word) (s : State) :
    ∃ x, store op w a v s = finish op s x ∧ EndsWell i s x := by
  unfold store
  rcases s.memWrite_cases a w v.toNat with ⟨ha, h⟩ | ⟨k, hk, h⟩ <;> rw [h]
  · exact ⟨_, rfl, ⟨rfl, rfl, rfl, rfl⟩, rfl, .inr ⟨_, _, by rw [length_beBytes]; exact ha.2, rfl⟩⟩
  · exact ⟨_, rfl, accessFault_code _ _ _ hk⟩

theorem pushThen_end (i : Instr) (op : Opcode) (v : Word) (after : State → State) (s : State)
    (hafter : ∀ u, EffectsKeep s u → EffectsKeep s (after u)) :
    ∃ x, pushThen op v after s = finish op s x ∧ EndsWell i s x := by
  unfold pushThen
  rcases s.push32_cases v with ⟨-, ha, h⟩ | ⟨k, hk, h⟩ <;> rw [h]
  · exact ⟨_, rfl, hafter _ ⟨⟨rfl, rfl, rfl, rfl⟩, rfl, .inr ⟨_, _, by rw [length_beBytes]; exact ha.2, rfl⟩⟩⟩
  · refine ⟨_, rfl, ?_⟩
    rcases hk with hk | ⟨-, hk⟩
    · exact stackFault_code _ _ _ hk
    · exact accessFault_code _ _ _ hk

theorem popThen_end (i : Instr) (op : Opcode) (after : Word → State → State) (s : State)
    (hafter : ∀ v u, EffectsKeep s u → EffectsKeep s (after v u)) :
    ∃ x, popThen op after s = finish op s x ∧ EndsWell i s x := by
  unfold popThen
  rcases s.pop32_cases with ⟨-, -, h⟩ | ⟨k, hk, h⟩ <;> rw [h]
  · exact ⟨_, rfl, hafter _ _ ((EffectsKeep.refl s).setReg _ _)⟩
  · refine ⟨_, rfl, ?_⟩
    rcases hk with hk | ⟨-, hk⟩
    · exact stackFault_code _ _ _ hk
    · exact accessFault_code _ _ _ hk

theorem assertEqual_end (i : Instr) (op : Opcode) (a b : Word) (s : State) :
    ∃ x, assertEqual op a b s = finish op s x ∧ EndsWell i s x := by
  unfold assertEqual
  split
  · exact ⟨_, rfl, EffectsKeep.refl s⟩
  · split
    · exact ⟨_, rfl, by simp [EndsWell, Fault.code]⟩
    · exact ⟨_, rfl, ⟨rfl, rfl, rfl, rfl⟩, rfl, .inl rfl⟩

/-- Everything an instruction can answer. -/
theorem exec_end (i : Instr) (s : State) : ∃ x, exec i s = finish i.opcode s x ∧ EndsWell i s x := by
  have keep : EffectsKeep s s := EffectsKeep.refl s
  cases i
  case moveRegisterAddress | moveTargetPointer | moveByteRegisterAddress | moveByteTargetPointer |
      moveHalfwordRegisterAddress | moveHalfwordTargetPointer => exact load_end _ _ _ _ _ s
  case moveAddressRegister | movePointerSource | moveByteAddressRegister | moveBytePointerSource |
      moveHalfwordAddressRegister | moveHalfwordPointerSource => exact store_end _ _ _ _ _ s
  case pushRegister | pushImmediate => exact pushThen_end _ _ _ _ s fun u h => h
  case callAddress | callRegister => exact pushThen_end _ _ _ _ s fun u h => h.setReg _ _
  case popRegister => exact popThen_end _ _ _ s fun v u h => h.setReg _ _
  case pop => exact popThen_end _ _ _ s fun v u h => h
  case returnFromCall => exact popThen_end _ _ _ s fun v u h => h.setReg _ _
  case assertRegisterRegister | assertRegisterImmediate => exact assertEqual_end _ _ _ _ s
  case assertPointerImmediate p x =>
    change ∃ y, execAssertPointerImmediate p x s = _ ∧ _
    unfold execAssertPointerImmediate
    rcases s.memRead_cases (s.opnd p) .word with ⟨-, h⟩ | ⟨k, hk, h⟩ <;> rw [h]
    · exact assertEqual_end _ _ _ _ s
    · exact ⟨_, rfl, accessFault_code _ _ _ hk⟩
  case checkpoint x =>
    change ∃ y, execCheckpoint x s = _ ∧ _
    unfold execCheckpoint
    split
    · exact ⟨_, rfl, ⟨rfl, rfl, rfl, rfl⟩, rfl, .inl rfl⟩
    · split
      · exact ⟨_, rfl, by simp [EndsWell, Fault.code]⟩
      · exact ⟨_, rfl, ⟨rfl, rfl, rfl, rfl⟩, rfl, .inl rfl⟩
  case jumpImmediateIfEqual | jumpImmediateIfGreaterThan | jumpImmediateIfLessThan |
      jumpImmediateIfGreaterThanOrEqual | jumpImmediateIfLessThanOrEqual | jumpImmediateIfZero |
      jumpImmediateIfNotZero | jumpImmediateIfCarry | jumpImmediateIfNotCarry | jumpImmediateIfDivideByZero |
      jumpImmediateIfNotDivideByZero =>
    exact ⟨.normal _, jumpIf_eq _ _ _ s, ⟨rfl, rfl, rfl, rfl⟩, rfl, .inl rfl⟩
  case haltAndCatchFire => exact ⟨.halted s, rfl, rfl, rfl⟩
  all_goals exact ⟨.normal _, rfl, ⟨rfl, rfl, rfl, rfl⟩, rfl, .inl rfl⟩

/-- What an instruction can answer, as a next state. -/
theorem exec_cases (i : Instr) (s : State) :
    (∃ u, EffectsKeep s u ∧ exec i s = .next ((u.advance i.opcode).addCost i.opcode)) ∨
    (i = .haltAndCatchFire ∧ exec i s = .next ({ s with halted := true }.addCost .haltAndCatchFire)) ∨
    ∃ k, 4 ≤ k.code ∧ k.code ≤ 8 ∧ exec i s = .next { s with fault := some ⟨k, s.ip⟩ } := by
  obtain ⟨x, hx, hw⟩ := exec_end i s
  cases x with
  | normal u => exact .inl ⟨u, hw, hx⟩
  | halted u =>
    obtain ⟨rfl, rfl⟩ := hw
    exact .inr (.inl ⟨rfl, rfl⟩)
  | error k => exact .inr (.inr ⟨k, hw.1, hw.2, hx⟩)

end Sys2Proof.Machine
end

