-- ==== Sys2Proof/Laws/Step.lean ====
section
/-! SUPPORT. Everything the host can do between two steps, everything a fetch can answer, and everything a step can
answer. -/

namespace Sys2Proof.Machine

/-! ### Between two steps -/

/-- The invariants a generation keeps: a cache in canonical form whose program region is decoded. -/
structure CacheSound (c : Config) (ic : ICache) : Prop where
  wf : ic.wf = true
  decoded : ∀ slot, ic.get slot = .empty ∨ ∃ w, ic.get slot = decodeEntry c.codec w
  generated : ∀ slot, c.entryPoint ≤ 8 * slot → 8 * slot < memorySize → ic.get slot ≠ .empty

theorem CacheSound.generate {c : Config} {m : Memory} {ic ic' : ICache} {call : RegenerateCall}
    (h : CacheSound c ic) (he : generateCache c m ic call = .ok ic') : CacheSound c ic' := by
  rcases generateCache_cases c m ic call _ _ rfl rfl with ⟨-, h1⟩ | ⟨h1, h2, h3, h4, ⟨h5, h6, h7⟩ | ⟨-, h7⟩⟩
  · rw [h1] at he; cases he
  · rw [h7] at he
    cases he
    refine ⟨ICache.wf_generateAll _ _ _, fun slot => .inr (ICache.get_generateAll_decoded _ _ _ _),
      fun slot _ _ => ?_⟩
    obtain ⟨w, hw⟩ := ICache.get_generateAll_decoded c.codec m ((call.start.getD c.entryPoint) / 8) slot
    rw [hw]
    exact decodeEntry_ne_empty _ _
  · rw [h7] at he
    cases he
    refine ⟨ICache.wf_generateSlots _ _ _ _ _ h.wf (by omega), fun slot => ?_, fun slot ha hb => ?_⟩
    · rw [ICache.get_generateSlots]
      split
      · exact .inr ⟨_, rfl⟩
      · exact h.decoded slot
    · rw [ICache.get_generateSlots]
      split
      · exact decodeEntry_ne_empty _ _
      · exact h.generated slot ha hb

/-- Everything a list of regenerations can do: change the cache, or stop the run. -/
theorem State.regenerateEach_cases (s : State) (calls : List RegenerateCall) (hf : s.fault = none) :
    ∃ ic, (CacheSound s.cfg s.icache → CacheSound s.cfg ic) ∧
      (s.regenerateEach calls = { s with icache := ic } ∨
        ∃ k, k.code = 12 ∧ s.regenerateEach calls = { s with icache := ic, fault := some ⟨k, s.ip⟩ }) := by
  induction calls generalizing s with
  | nil => exact ⟨s.icache, id, .inl rfl⟩
  | cons call calls ih =>
    rcases s.regenerate_cases call with ⟨ic, he, h⟩ | ⟨k, he, h⟩
    · obtain ⟨ic', hs, h'⟩ := ih { s with icache := ic } hf
      refine ⟨ic', fun hc => hs (hc.generate he), ?_⟩
      have e : s.regenerateEach (call :: calls) = { s with icache := ic }.regenerateEach calls := by
        rw [State.regenerateEach, h]
        exact if_neg (by simp [hf])
      rw [e]
      exact h'
    · refine ⟨s.icache, id, .inr ⟨k, ?_, ?_⟩⟩
      · rcases generateCache_cases s.cfg s.mem s.icache call _ _ rfl rfl with ⟨-, h1⟩ | ⟨-, -, -, -, h1 | h1⟩
        · rw [h1] at he; cases he; rfl
        · rw [h1.2.2] at he; cases he
        · rw [h1.2] at he; cases he
      · unfold State.regenerateEach
        rw [h]
        rfl

/-- Everything the host can do between two steps. -/
theorem State.betweenSteps_cases (s : State) (hf : s.fault = none) :
    ∃ ic n, (CacheSound s.cfg s.icache → CacheSound s.cfg ic) ∧
      (s.cfg.hostRegenerates = .bootOnly → s.betweenSteps = s) ∧
      (s.betweenSteps = { s with icache := ic, draws := n } ∨
        ∃ k, k.code = 12 ∧ s.betweenSteps = { s with icache := ic, draws := n, fault := some ⟨k, s.ip⟩ }) := by
  cases hr : s.cfg.hostRegenerates with
  | bootOnly =>
    have h : s.betweenSteps = s := by unfold State.betweenSteps; rw [hr]
    exact ⟨s.icache, s.draws, id, fun _ => h, .inl h⟩
  | betweenSteps =>
    obtain ⟨ic, hs, h⟩ := { s with draws := s.draws + 1 }.regenerateEach_cases (Config.hostRegenerations s.draws) hf
    have hb : s.betweenSteps = { s with draws := s.draws + 1 }.regenerateEach (Config.hostRegenerations s.draws) := by
      unfold State.betweenSteps; rw [hr]
    refine ⟨ic, s.draws + 1, hs, (fun h => by cases h), ?_⟩
    rw [hb]
    exact h

/-! ### Fetch -/

theorem fetchFault_eq_none (c : Config) (a : Word) : fetchFault c a = none ↔ Fetchable c a := by
  unfold fetchFault Fetchable
  cases h : accessFault a Width.instruction.bytes with
  | some k =>
    have : ¬ Accessible a 8 := fun h' => by
      rw [show accessFault a Width.instruction.bytes = none from (accessFault_eq_none a 8).mpr h'] at h; cases h
    simp [this]
  | none =>
    have : Accessible a 8 := (accessFault_eq_none a 8).mp h
    simp only [this, true_and]
    split <;> simp <;> omega

theorem fetchFault_code (c : Config) (a : Word) (k : Fault) (h : fetchFault c a = some k) :
    1 ≤ k.code ∧ k.code ≤ 8 := by
  unfold fetchFault at h
  split at h
  · next h1 =>
    cases h
    have := accessFault_code _ _ _ h1
    omega
  · split at h
    · cases h; simp [Fault.code]
    · cases h

theorem decodeFault_code (e : DecodeError) : 1 ≤ (decodeFault e).code ∧ (decodeFault e).code ≤ 8 := by
  cases e <;> simp [decodeFault, Fault.code]

/-- Everything a fetch can answer: it changes the state by the lazy fill of an Empty slot only. -/
theorem State.fetch_cases (s : State) :
    (s.fetch.1 = s ∨ (Fetchable s.cfg s.ip ∧ s.icache.get (slotOf s.ip) = .empty ∧ s.fetch.1 = s.fillSlot)) ∧
      ∀ k, s.fetch.2 = .error k → 1 ≤ k.code ∧ k.code ≤ 8 := by
  unfold State.fetch
  cases hf : fetchFault s.cfg s.ip with
  | some k => exact ⟨.inl rfl, fun k' h => by cases h; exact fetchFault_code _ _ _ hf⟩
  | none =>
    have hok := (fetchFault_eq_none _ _).mp hf
    cases he : s.icache.get (slotOf s.ip) with
    | decoded i => exact ⟨.inl rfl, fun k' h => by cases h⟩
    | undecodable e => exact ⟨.inl rfl, fun k' h => by cases h; exact decodeFault_code e⟩
    | empty =>
      cases hd : decode s.cfg.codec (s.mem.dword s.ip.toNat) with
      | ok i => exact ⟨.inr ⟨hok, rfl, rfl⟩, fun k' h => by cases h⟩
      | error e => exact ⟨.inr ⟨hok, rfl, rfl⟩, fun k' h => by cases h; exact decodeFault_code e⟩

theorem CacheSound.fillSlot {s : State} (h : CacheSound s.cfg s.icache) (hf : Fetchable s.cfg s.ip) :
    CacheSound s.cfg s.fillSlot.icache := by
  have hb : slotOf s.ip < memorySize / 8 := by
    have h2 : s.ip.toNat + 8 ≤ memorySize := hf.1.2
    unfold slotOf; omega
  refine ⟨ICache.wf_put _ _ _ h.wf hb, fun slot => ?_, fun slot ha hb => ?_⟩
  · change (s.icache.put _ _).get slot = _ ∨ ∃ w, (s.icache.put _ _).get slot = _
    rw [ICache.get_put]
    split
    · exact .inr ⟨_, rfl⟩
    · exact h.decoded slot
  · change (s.icache.put _ _).get slot ≠ _
    rw [ICache.get_put]
    split
    · exact decodeEntry_ne_empty _ _
    · exact h.generated slot ha hb

/-! ### The step -/

/-- Everything a step can answer: the state as it is, the stop of the run by a rejected regeneration, the fault of a
fetch, or what the fetched instruction answers. `u` is the state the host leaves between two steps. -/
theorem step_cases (s : State) :
    (s.stopped = true ∧ step s = .next s) ∨
    (s.stopped = false ∧
      ((s.betweenSteps.stopped = true ∧ step s = .next s.betweenSteps) ∨
        (s.betweenSteps.stopped = false ∧
          ((∃ k, 1 ≤ k.code ∧ k.code ≤ 8 ∧ s.betweenSteps.fetch.2 = .error k ∧
              step s = .next (s.betweenSteps.fetch.1.raise k)) ∨
            ∃ i, s.betweenSteps.fetch.2 = .ok i ∧ step s = exec i s.betweenSteps.fetch.1)))) := by
  unfold step executeNextInstruction
  cases h : s.stopped with
  | true => exact .inl ⟨rfl, rfl⟩
  | false =>
    refine .inr ⟨rfl, ?_⟩
    cases h2 : s.betweenSteps.stopped with
    | true => exact .inl ⟨rfl, rfl⟩
    | false =>
      refine .inr ⟨rfl, ?_⟩
      simp only [Bool.false_eq_true, if_false]
      unfold fetchExecute
      obtain ⟨-, hk⟩ := s.betweenSteps.fetch_cases
      cases hf : s.betweenSteps.fetch with
      | mk t r =>
        rw [hf] at hk
        cases r with
        | error k => exact .inl ⟨k, (hk k rfl).1, (hk k rfl).2, rfl, rfl⟩
        | ok i => exact .inr ⟨i, rfl, rfl⟩

end Sys2Proof.Machine
end

