-- ==== Sys2Proof/Laws/Boot.lean ====
section
/-! SUPPORT. The laws of the boot: the reset registers and the validation of the opcode table. -/

namespace Sys2Proof.Machine

theorem State.ip_created (c : Config) (init : Vector Word 256) (m : Memory) :
    (State.created c init m).ip = BitVec.ofNat 32 c.entryPoint := by
  simp [State.ip, State.reg, State.created, resetRegs, ipReg]

theorem State.sp_created (c : Config) (init : Vector Word 256) (m : Memory) :
    (State.created c init m).sp = BitVec.ofNat 32 c.stackStart := by
  simp [State.sp, State.reg, State.created, resetRegs, spReg]

theorem State.reg_created (c : Config) (init : Vector Word 256) (m : Memory) (q : Reg) (hq : q.toNat < 254) :
    (State.created c init m).reg q = init[q.toNat]'q.isLt := by
  unfold State.reg State.created resetRegs
  simp only [Vector.getElem_set]
  rw [if_neg (by omega), if_neg (by omega)]

/-- No definition of R130 uses more than 64 bits. -/
theorem bitBudget_le (op : Opcode) : op.bitBudget ≤ 8 * instructionWidth := by cases op <;> decide

/-- The only fault of a definition is a code that an earlier one has. -/
theorem definitionFault_eq (c : Codec) (op : Opcode) :
    definitionFault c op =
      if c.byCode (c.code op) = some op then none else some (.malformedOpcodeTable op .duplicateCode) := by
  unfold definitionFault
  have := bitBudget_le op
  by_cases h : c.byCode (c.code op) = some op
  · rw [if_neg (by simpa using h), if_neg (by omega), if_pos h]
  · rw [if_pos h, if_neg h]

theorem tableFault_eq_none (c : Codec) (h : c.Distinct) : tableFault c = none := by
  unfold tableFault
  rw [List.findSome?_eq_none_iff]
  intro op _
  rw [definitionFault_eq, if_pos (c.byCode_code h op)]

end Sys2Proof.Machine
end

