-- ==== Sys2Proof/Laws/Flags.lean ====
section
/-! SUPPORT. For each flag computation of Machine/Flags.lean, what it gives in the terms of the statements. -/

namespace Sys2Proof.Machine

theorem unitOf_eq (b : Bool) : unitOf b = b.toNat := by cases b <;> rfl

/-- The sum with a carry in. -/
theorem addZC_eq (a b : Word) (c : Bool) :
    addZC a b c = ⟨a + b + BitVec.ofNat 32 c.toNat, decide (a + b + BitVec.ofNat 32 c.toNat = 0),
      decide (2 ^ 32 ≤ a.toNat + b.toNat + c.toNat)⟩ := by
  have hv : BitVec.ofNat 32 (a.toNat + b.toNat + c.toNat) = a + b + BitVec.ofNat 32 c.toNat := by
    apply BitVec.eq_of_toNat_eq; simp
  unfold addZC
  rw [unitOf_eq, ← hv]
  simp only [ZC.mk.injEq, true_and, and_true]
  congr 1
  apply propext
  rw [← BitVec.toNat_inj, BitVec.toNat_ofNat]
  rfl

/-- The sum without a carry in. -/
theorem addZC_false (a b : Word) :
    addZC a b false = ⟨a + b, decide (a + b = 0), decide (2 ^ 32 ≤ a.toNat + b.toNat)⟩ := by
  rw [addZC_eq]; simp

/-- The difference with a borrow in. -/
theorem subZC_eq (a b : Word) (c : Bool) :
    subZC a b c = ⟨a - b - BitVec.ofNat 32 c.toNat, decide (a - b - BitVec.ofNat 32 c.toNat = 0),
      decide (a.toNat < b.toNat + c.toNat)⟩ := by
  have hc : c.toNat < 2 := by cases c <;> decide
  have hv : BitVec.ofInt 32 ((a.toNat : Int) - b.toNat - c.toNat) = a - b - BitVec.ofNat 32 c.toNat := by
    apply BitVec.eq_of_toNat_eq
    simp only [BitVec.toNat_ofInt, BitVec.toNat_sub, BitVec.toNat_ofNat]
    have ha := a.isLt
    have hb := b.isLt
    omega
  unfold subZC
  rw [unitOf_eq, ← hv]
  simp only [ZC.mk.injEq, true_and]
  refine ⟨?_, ?_⟩
  · congr 1
    apply propext
    rw [← BitVec.toNat_inj, BitVec.toNat_ofInt]
    simp only [BitVec.ofNat_eq_ofNat, BitVec.toNat_ofNat]
    omega
  · congr 1; apply propext; omega

/-- The difference without a borrow in. -/
theorem subZC_false (a b : Word) : subZC a b false = ⟨a - b, decide (a = b), decide (a.toNat < b.toNat)⟩ := by
  have h : a - b = 0#32 ↔ a = b := by
    rw [← BitVec.toNat_inj, ← BitVec.toNat_inj]
    simp only [BitVec.toNat_sub, BitVec.toNat_ofNat]
    have ha := a.isLt
    have hb := b.isLt
    omega
  rw [subZC_eq]
  simp [h]

/-- The exact product fits 64 bits. -/
theorem product_eq (a b : Word) : (a.setWidth 64 * b.setWidth 64).toNat = product a b := by
  have h : a.toNat * b.toNat < 2 ^ 64 :=
    calc a.toNat * b.toNat < 2 ^ 32 * 2 ^ 32 := Nat.mul_lt_mul'' a.isLt b.isLt
      _ = 2 ^ 64 := by norm_num
  have ha := a.isLt
  have hb := b.isLt
  rw [BitVec.toNat_mul, BitVec.toNat_setWidth, BitVec.toNat_setWidth,
    Nat.mod_eq_of_lt (show a.toNat < 2 ^ 64 by omega), Nat.mod_eq_of_lt (show b.toNat < 2 ^ 64 by omega),
    Nat.mod_eq_of_lt h]
  rfl

/-- The halves of a 64-bit value. -/
theorem hi32_toNat (v : DWord) : hi32 v.toNat = v.extractLsb' 32 32 := by
  apply BitVec.eq_of_toNat_eq
  have := v.isLt
  simp [hi32, Nat.shiftRight_eq_div_pow]

theorem lo32_toNat (v : DWord) : lo32 v.toNat = v.extractLsb' 0 32 := by
  apply BitVec.eq_of_toNat_eq
  simp [lo32]

/-- The quotient and the remainder are the ones that the division law fixes. -/
theorem divmod_eq (a b q r : Word) (h : a.toNat = q.toNat * b.toNat + r.toNat) (hr : r.toNat < b.toNat) :
    divmod a b = (q, r) := by
  have hb : b ≠ 0 := by rintro rfl; simp at hr
  have hq : a.toNat / b.toNat = q.toNat := by
    rw [h, Nat.mul_comm, Nat.mul_add_div (by omega), Nat.div_eq_of_lt hr, Nat.add_zero]
  have hm : a.toNat % b.toNat = r.toNat := by
    rw [h, Nat.mul_comm, Nat.mul_add_mod, Nat.mod_eq_of_lt hr]
  unfold divmod
  rw [if_neg hb, hq, hm]
  simp

/-! ### Shifts -/

theorem find_range_getD (p : Nat → Bool) (n m : Nat) :
    ((List.range n).find? p).getD n < m ↔ n < m ∨ ∃ k, k < m ∧ k < n ∧ p k = true := by
  cases h : (List.range n).find? p with
  | none =>
    rw [List.find?_eq_none] at h
    simp only [Option.getD_none]
    constructor
    · exact .inl
    · rintro (h1 | ⟨k, -, h2, h3⟩)
      · exact h1
      · exact absurd h3 (h k (List.mem_range.mpr h2))
  | some k =>
    rw [List.find?_range_eq_some] at h
    simp only [Option.getD_some]
    have hk : k < n := List.mem_range.mp h.2.1
    constructor
    · intro h1; exact .inr ⟨k, h1, hk, h.1⟩
    · rintro (h1 | ⟨j, h1, -, h3⟩)
      · omega
      · by_contra hcon
        have := h.2.2 j (by omega)
        simp [h3] at this

theorem any_bit_iff (a : Word) : (∃ k, k < 32 ∧ a.getLsbD k = true) ↔ a ≠ 0 := by
  constructor
  · rintro ⟨k, -, hk⟩ rfl
    simp at hk
  · intro h
    by_contra hcon
    apply h
    apply BitVec.eq_of_getLsbD_eq
    intro i hi
    change a.getLsbD i = (0#32).getLsbD i
    rw [BitVec.getLsbD_zero]
    by_contra h1
    exact hcon ⟨i, hi, by simpa using h1⟩

/-- The logical shift left: Carry when a 1 bit was shifted out. -/
theorem shiftLeftZC_eq (a n : Word) :
    shiftLeftZC a n = ⟨a <<< n.toNat, decide (a <<< n.toNat = 0),
      (List.range 32).any fun k => decide (32 ≤ k + n.toNat) && a.getLsbD k⟩ := by
  unfold shiftLeftZC
  split
  · next h =>
    have h0 : a <<< n.toNat = 0 := BitVec.shiftLeft_eq_zero (by omega)
    rw [h0]
    simp only [ZC.mk.injEq, decide_true, true_and]
    rw [Bool.eq_iff_iff, decide_eq_true_iff, ← any_bit_iff, List.any_eq_true]
    simp only [List.mem_range, Bool.and_eq_true, decide_eq_true_iff]
    exact ⟨fun ⟨k, h1, h2⟩ => ⟨k, h1, by omega, h2⟩, fun ⟨k, h1, _, h2⟩ => ⟨k, h1, h2⟩⟩
  · next h =>
    have hv : BitVec.ofNat 32 (a.toNat * 2 ^ n.toNat) = a <<< n.toNat := by
      apply BitVec.eq_of_toNat_eq
      simp [Nat.shiftLeft_eq]
    rw [hv]
    simp only [ZC.mk.injEq, true_and]
    rw [Bool.eq_iff_iff, decide_eq_true_iff, List.any_eq_true]
    simp only [List.mem_range, Bool.and_eq_true, decide_eq_true_iff]
    unfold clz
    rw [find_range_getD]
    constructor
    · rintro (h1 | ⟨k, h1, h2, h3⟩)
      · exact absurd h1 h
      · exact ⟨31 - k, by omega, by omega, h3⟩
    · rintro ⟨k, h1, h2, h3⟩
      exact .inr ⟨31 - k, by omega, by omega, by rwa [show 31 - (31 - k) = k by omega]⟩

/-- The logical shift right: Carry when a 1 bit was shifted out. -/
theorem shiftRightZC_eq (a n : Word) :
    shiftRightZC a n = ⟨a >>> n.toNat, decide (a >>> n.toNat = 0),
      (List.range 32).any fun k => decide (k < n.toNat) && a.getLsbD k⟩ := by
  unfold shiftRightZC
  split
  · next h =>
    have h0 : a >>> n.toNat = 0 := BitVec.ushiftRight_eq_zero (by omega)
    rw [h0]
    simp only [ZC.mk.injEq, decide_true, true_and]
    rw [Bool.eq_iff_iff, decide_eq_true_iff, ← any_bit_iff, List.any_eq_true]
    simp only [List.mem_range, Bool.and_eq_true, decide_eq_true_iff]
    exact ⟨fun ⟨k, h1, h2⟩ => ⟨k, h1, by omega, h2⟩, fun ⟨k, h1, _, h2⟩ => ⟨k, h1, h2⟩⟩
  · next h =>
    have hv : BitVec.ofNat 32 (a.toNat / 2 ^ n.toNat) = a >>> n.toNat := by
      apply BitVec.eq_of_toNat_eq
      have := a.isLt
      have := Nat.div_le_self a.toNat (2 ^ n.toNat)
      rw [BitVec.toNat_ofNat, BitVec.toNat_ushiftRight, Nat.shiftRight_eq_div_pow, Nat.mod_eq_of_lt (by omega)]
    rw [hv]
    simp only [ZC.mk.injEq, true_and]
    rw [Bool.eq_iff_iff, decide_eq_true_iff, List.any_eq_true]
    simp only [List.mem_range, Bool.and_eq_true, decide_eq_true_iff]
    unfold ctz
    rw [find_range_getD]
    constructor
    · rintro (h1 | ⟨k, h1, h2, h3⟩)
      · exact absurd h1 h
      · exact ⟨k, h2, h1, h3⟩
    · rintro ⟨k, h1, h2, h3⟩
      exact .inr ⟨k, h2, h1, h3⟩

end Sys2Proof.Machine
end

