-- ==== Sys2Proof/Tests/Slice0.lean ====
section
/-! SUPPORT. Tests: the encoding of every row of the opcode table, the checks of well-formedness on ill-formed terms,
single steps from the vectors of spec/95_test_vectors.md (V<n>, W<n>), and one witness for the hypotheses of each
statement. Expected values are those of the spec's tables, or computed by hand from the rule named. -/

namespace Sys2Proof.Machine.Tests

open Sys2Proof Sys2Proof.Machine

/-! ### Words

The word of each row is its `encoding` string of spec/opcode_table.source.json with register fields 03, 81, 4D, FC in
order of their letters, extra word 8BADF00D and padding 0. -/

/-- The word decodes to the instruction, and the instruction encodes to the word. -/
abbrev Reads (w : DWord) (i : Instr) : Prop := decode Codec.std w = .ok i ∧ encode Codec.std i = w

theorem test_word_moveRegisterImmediate :
    Reads 0x000003008BADF00D (.moveRegisterImmediate 0x03 0x8BADF00D) := by decide
theorem test_word_moveRegisterAddress : Reads 0x000103008BADF00D (.moveRegisterAddress 0x03 0x8BADF00D) := by decide
theorem test_word_moveTargetSource : Reads 0x0002038100000000 (.moveTargetSource 0x03 0x81) := by decide
theorem test_word_moveAddressRegister : Reads 0x000303008BADF00D (.moveAddressRegister 0x03 0x8BADF00D) := by decide
theorem test_word_moveTargetPointer : Reads 0x0004038100000000 (.moveTargetPointer 0x03 0x81) := by decide
theorem test_word_movePointerSource : Reads 0x0005038100000000 (.movePointerSource 0x03 0x81) := by decide
theorem test_word_moveByteRegisterAddress :
    Reads 0x000603008BADF00D (.moveByteRegisterAddress 0x03 0x8BADF00D) := by decide
theorem test_word_moveByteAddressRegister :
    Reads 0x000703008BADF00D (.moveByteAddressRegister 0x03 0x8BADF00D) := by decide
theorem test_word_moveByteTargetPointer : Reads 0x0008038100000000 (.moveByteTargetPointer 0x03 0x81) := by decide
theorem test_word_moveBytePointerSource : Reads 0x0009038100000000 (.moveBytePointerSource 0x03 0x81) := by decide
theorem test_word_moveHalfwordRegisterAddress :
    Reads 0x000A03008BADF00D (.moveHalfwordRegisterAddress 0x03 0x8BADF00D) := by decide
theorem test_word_moveHalfwordAddressRegister :
    Reads 0x000B03008BADF00D (.moveHalfwordAddressRegister 0x03 0x8BADF00D) := by decide
theorem test_word_moveHalfwordTargetPointer :
    Reads 0x000C038100000000 (.moveHalfwordTargetPointer 0x03 0x81) := by decide
theorem test_word_moveHalfwordPointerSource :
    Reads 0x000D038100000000 (.moveHalfwordPointerSource 0x03 0x81) := by decide
theorem test_word_addTargetLhsRhs : Reads 0x001003814D000000 (.addTargetLhsRhs 0x03 0x81 0x4D) := by decide
theorem test_word_addWithCarryTargetLhsRhs :
    Reads 0x001103814D000000 (.addWithCarryTargetLhsRhs 0x03 0x81 0x4D) := by decide
theorem test_word_subtractTargetLhsRhs : Reads 0x001203814D000000 (.subtractTargetLhsRhs 0x03 0x81 0x4D) := by decide
theorem test_word_subtractWithCarryTargetLhsRhs :
    Reads 0x001303814D000000 (.subtractWithCarryTargetLhsRhs 0x03 0x81 0x4D) := by decide
theorem test_word_addTargetSourceImmediate :
    Reads 0x001403818BADF00D (.addTargetSourceImmediate 0x03 0x81 0x8BADF00D) := by decide
theorem test_word_subtractTargetSourceImmediate :
    Reads 0x001503818BADF00D (.subtractTargetSourceImmediate 0x03 0x81 0x8BADF00D) := by decide
theorem test_word_multiplyHighLowLhsRhs :
    Reads 0x001603814DFC0000 (.multiplyHighLowLhsRhs 0x03 0x81 0x4D 0xFC) := by decide
theorem test_word_divmodTargetModLhsRhs :
    Reads 0x001703814DFC0000 (.divmodTargetModLhsRhs 0x03 0x81 0x4D 0xFC) := by decide
theorem test_word_andTargetLhsRhs : Reads 0x002003814D000000 (.andTargetLhsRhs 0x03 0x81 0x4D) := by decide
theorem test_word_orTargetLhsRhs : Reads 0x002103814D000000 (.orTargetLhsRhs 0x03 0x81 0x4D) := by decide
theorem test_word_xorTargetLhsRhs : Reads 0x002203814D000000 (.xorTargetLhsRhs 0x03 0x81 0x4D) := by decide
theorem test_word_notTargetSource : Reads 0x0023038100000000 (.notTargetSource 0x03 0x81) := by decide
theorem test_word_leftShiftTargetLhsRhs :
    Reads 0x002403814D000000 (.leftShiftTargetLhsRhs 0x03 0x81 0x4D) := by decide
theorem test_word_rightShiftTargetLhsRhs :
    Reads 0x002503814D000000 (.rightShiftTargetLhsRhs 0x03 0x81 0x4D) := by decide
theorem test_word_compareTargetLhsRhs : Reads 0x002603814D000000 (.compareTargetLhsRhs 0x03 0x81 0x4D) := by decide
theorem test_word_boolCompareEquals : Reads 0x002703814D000000 (.boolCompareEquals 0x03 0x81 0x4D) := by decide
theorem test_word_boolCompareNotEquals : Reads 0x002803814D000000 (.boolCompareNotEquals 0x03 0x81 0x4D) := by decide
theorem test_word_boolCompareGreater : Reads 0x002903814D000000 (.boolCompareGreater 0x03 0x81 0x4D) := by decide
theorem test_word_boolCompareGreaterOrEquals :
    Reads 0x002A03814D000000 (.boolCompareGreaterOrEquals 0x03 0x81 0x4D) := by decide
theorem test_word_boolCompareLess : Reads 0x002B03814D000000 (.boolCompareLess 0x03 0x81 0x4D) := by decide
theorem test_word_boolCompareLessOrEquals :
    Reads 0x002C03814D000000 (.boolCompareLessOrEquals 0x03 0x81 0x4D) := by decide
theorem test_word_pushRegister : Reads 0x0030030000000000 (.pushRegister 0x03) := by decide
theorem test_word_pushImmediate : Reads 0x003100008BADF00D (.pushImmediate 0x8BADF00D) := by decide
theorem test_word_popRegister : Reads 0x0032030000000000 (.popRegister 0x03) := by decide
theorem test_word_pop : Reads 0x0033000000000000 .pop := by decide
theorem test_word_callAddress : Reads 0x003400008BADF00D (.callAddress 0x8BADF00D) := by decide
theorem test_word_callRegister : Reads 0x0035030000000000 (.callRegister 0x03) := by decide
theorem test_word_returnFromCall : Reads 0x0036000000000000 .returnFromCall := by decide
theorem test_word_jumpImmediate : Reads 0x004000008BADF00D (.jumpImmediate 0x8BADF00D) := by decide
theorem test_word_jumpRegister : Reads 0x0041030000000000 (.jumpRegister 0x03) := by decide
theorem test_word_jumpImmediateIfEqual : Reads 0x004203008BADF00D (.jumpImmediateIfEqual 0x03 0x8BADF00D) := by decide
theorem test_word_jumpImmediateIfGreaterThan :
    Reads 0x004303008BADF00D (.jumpImmediateIfGreaterThan 0x03 0x8BADF00D) := by decide
theorem test_word_jumpImmediateIfLessThan :
    Reads 0x004403008BADF00D (.jumpImmediateIfLessThan 0x03 0x8BADF00D) := by decide
theorem test_word_jumpImmediateIfGreaterThanOrEqual :
    Reads 0x004503008BADF00D (.jumpImmediateIfGreaterThanOrEqual 0x03 0x8BADF00D) := by decide
theorem test_word_jumpImmediateIfLessThanOrEqual :
    Reads 0x004603008BADF00D (.jumpImmediateIfLessThanOrEqual 0x03 0x8BADF00D) := by decide
theorem test_word_jumpImmediateIfZero : Reads 0x004700008BADF00D (.jumpImmediateIfZero 0x8BADF00D) := by decide
theorem test_word_jumpImmediateIfNotZero : Reads 0x004800008BADF00D (.jumpImmediateIfNotZero 0x8BADF00D) := by decide
theorem test_word_jumpImmediateIfCarry : Reads 0x004900008BADF00D (.jumpImmediateIfCarry 0x8BADF00D) := by decide
theorem test_word_jumpImmediateIfNotCarry :
    Reads 0x004A00008BADF00D (.jumpImmediateIfNotCarry 0x8BADF00D) := by decide
theorem test_word_jumpImmediateIfDivideByZero :
    Reads 0x004B00008BADF00D (.jumpImmediateIfDivideByZero 0x8BADF00D) := by decide
theorem test_word_jumpImmediateIfNotDivideByZero :
    Reads 0x004C00008BADF00D (.jumpImmediateIfNotDivideByZero 0x8BADF00D) := by decide
theorem test_word_getKeyState : Reads 0x0050038100000000 (.getKeyState 0x03 0x81) := by decide
theorem test_word_pollTime : Reads 0x0051038100000000 (.pollTime 0x03 0x81) := by decide
theorem test_word_swapFramebuffers : Reads 0x0052000000000000 .swapFramebuffers := by decide
theorem test_word_invisibleFramebufferAddress :
    Reads 0x0053030000000000 (.invisibleFramebufferAddress 0x03) := by decide
theorem test_word_pollCycleCountHighLow : Reads 0x0054038100000000 (.pollCycleCountHighLow 0x03 0x81) := by decide
theorem test_word_noOp : Reads 0x0060000000000000 .noOp := by decide
theorem test_word_haltAndCatchFire : Reads 0x0061000000000000 .haltAndCatchFire := by decide
theorem test_word_dumpRegisters : Reads 0x0062000000000000 .dumpRegisters := by decide
theorem test_word_dumpMemory : Reads 0x0063000000000000 .dumpMemory := by decide
theorem test_word_assertRegisterRegister : Reads 0x0064038100000000 (.assertRegisterRegister 0x03 0x81) := by decide
theorem test_word_assertRegisterImmediate :
    Reads 0x006503008BADF00D (.assertRegisterImmediate 0x03 0x8BADF00D) := by decide
theorem test_word_assertPointerImmediate :
    Reads 0x006603008BADF00D (.assertPointerImmediate 0x03 0x8BADF00D) := by decide
theorem test_word_debugBreak : Reads 0x0067000000000000 .debugBreak := by decide
theorem test_word_checkpoint : Reads 0x006800008BADF00D (.checkpoint 0x8BADF00D) := by decide

/-- W1, V1: bytes in memory order, lowest address first. -/
theorem test_bytes_v1 : encodeBytes Codec.std (.moveRegisterImmediate 5 0x1234) = [0, 0, 5, 0, 0, 0, 0x12, 0x34] := by
  decide

theorem test_table_word : decodeTableWord 64 0x0010030102000000 = some (.addTargetLhsRhs 3 1 2) := by decide

/-! ### Decode and encode errors (V3 to V22) -/

/-- The default codes under the given policies. -/
def codec (reserved : ReservedPolicy) (padding : PaddingPolicy) : Codec :=
  { Codec.std with reserved := reserved, padding := padding }

theorem test_v3 : decode (codec .fault .fault) 0x000005AB00001234 = .error (.paddingNotZero 0x000005AB00001234) := by
  decide
theorem test_v5 : decode Codec.std 0xFFFF000000000000 = .error (.unknownOpcode 0xFFFF) := by decide
theorem test_v6 : decode Codec.std 0x000E000000000000 = .error (.unknownOpcode 0x000E) := by decide
theorem test_v8 : decode Codec.std 0x000201FF00000000 = .error (.reservedRegisterOperand .source 255) := by decide
theorem test_v9 : decode Codec.std 0x0002FEFF00000000 = .error (.reservedRegisterOperand .target 254) := by decide
theorem test_v10 : decode (codec .direct .ignore) 0x0002FD0100000000 = .ok (.moveTargetSource 253 1) := by decide
theorem test_v11 : decode (codec .fault .fault) 0x00FFFD00000000FF = .error (.unknownOpcode 0x00FF) := by decide
theorem test_v12 :
    decode (codec .fault .fault) 0x0002FD01000000FF = .error (.reservedRegisterOperand .target 253) := by decide
theorem test_v14 : decode Codec.std 0x00610000000C0818 = .ok .haltAndCatchFire := by decide
theorem test_v16 : decode Codec.std 0x0000FC0000000000 = .ok (.moveRegisterImmediate 252 0) := by decide
theorem test_v17 :
    encodeCall Codec.std .addTargetLhsRhs [3, 1] none = .error (.operandArityMismatch .addTargetLhsRhs) := by decide
theorem test_v18 :
    encodeCall Codec.std .moveRegisterImmediate [5] none = .error (.missingOperand .moveRegisterImmediate) := by decide
theorem test_v19 : encodeCall Codec.std .noOp [] (some 1) = .error (.unexpectedOperand .noOp) := by decide
theorem test_v20 : encodeCall Codec.std .pushRegister [256] none = .error (.registerOutOfRange 256) := by decide
theorem test_v21 :
    encodeCall Codec.std .pushImmediate [] (some 0x100000000) = .error (.operandArityMismatch .pushImmediate) := by
  decide
theorem test_v22 : encodeCall Codec.std .returnFromCall [] none = .ok 0x0036000000000000 := by decide
/-- R77: a slice shorter than the width. -/
theorem test_short_slice : decodeBytes Codec.std [0, 0x61] = .error (.alignmentOrSize 8 2) := by decide

/-! ### Ill-formed terms are refused -/

theorem test_wf_flags_operand : Instr.wf Codec.std (.popRegister 253) = false := by decide
theorem test_wf_second_operand : Instr.wf Codec.std (.moveTargetSource 252 255) = false := by decide
theorem test_wf_direct : Instr.wf (codec .direct .ignore) (.popRegister 253) = true := by decide
/-- The default codes with the code of MoveRegisterAddress given to MoveRegisterImmediate as well. -/
def duplicateCodec : Codec := { Codec.std with codes := Codec.std.codes.set 0 1 }
theorem test_wf_duplicate_code : ¬ duplicateCodec.Distinct := by decide
/-- R114 (a): the second of the two definitions in table order is reported (log entry 15). -/
theorem test_table_fault :
    tableFault duplicateCodec = some (.malformedOpcodeTable .moveRegisterAddress .duplicateCode) := by decide
theorem test_admitted_std : Config.std.admitted = true := by decide
theorem test_admitted_width : Config.admitted { Config.std with terminalWidth := 0 } = false := by decide
theorem test_admitted_cost :
    Config.admitted { Config.std with costs := Config.std.costs.set 3 0 } = false := by decide
theorem test_admitted_extra : Config.admitted { Config.std with framebufferExtraWords := 1 } = false := by decide
theorem test_admitted_stack : Config.admitted { Config.std with stackSize := 6 } = false := by decide
theorem test_admitted_entry_alignment : Config.admitted { Config.std with stackSize := 524292 } = false := by decide
theorem test_admitted_cursor :
    Config.admitted { Config.std with terminalWidth := 61, terminalHeight := 33 } = false := by decide
theorem test_admitted_fit : Config.admitted { Config.std with stackSize := 0x1000000 } = false := by decide
theorem test_memory_order : Memory.wf [(5, 1), (4, 1)] = false := by decide
theorem test_memory_repeat : Memory.wf [(5, 1), (5, 2)] = false := by decide
theorem test_memory_blank : Memory.wf [(5, 0)] = false := by decide
theorem test_memory_bound : Memory.wf [(0x1000000, 1)] = false := by decide
theorem test_memory_wf : Memory.wf [(0, 1), (0xFFFFFF, 2)] = true := by decide
theorem test_cache_order : ICache.wf ⟨.empty, [(5, .decoded .pop), (4, .decoded .pop)]⟩ = false := by decide
theorem test_cache_base : ICache.wf ⟨.empty, [(5, .empty)]⟩ = false := by decide
theorem test_cache_bound : ICache.wf ⟨.empty, [(0x200000, .decoded .pop)]⟩ = false := by decide

/-! ### Single steps -/

/-- The reset state with registers written and bytes stored. -/
def start (regs : List (Reg × Word)) (bytes : List (Nat × List Byte)) : State :=
  { regs.foldl (fun (s : State) (p : Reg × Word) => s.setReg p.1 p.2) State.reset with
    mem := bytes.foldl (fun (m : Memory) (b : Nat × List Byte) => m.setBytes b.1 b.2) [] }

/-- Whether the next step, with the word placed at `ip`, answers a next state with a property. -/
def after (s : State) (w : DWord) (p : State → Bool) : Bool :=
  match step (s.placeWord w) with
  | .next t => p t
  | _ => false

/-- The registers hold the given values. -/
def holds (t : State) (regs : List (Reg × Word)) : Bool := regs.all fun p => decide (t.reg p.1 = p.2)

/-- Memory holds the given bytes. -/
def stores (t : State) (bytes : List (Nat × List Byte)) : Bool :=
  bytes.all fun b => decide (t.mem.bytes b.1 b.2.length = b.2)

/-- A completed step of a machine with cost 1: no fault, one cycle, the given registers and bytes. -/
def gives (s : State) (w : DWord) (regs : List (Reg × Word)) (bytes : List (Nat × List Byte)) : Bool :=
  after s w fun t => decide (t.fault = none) && decide (t.cycles = 1) && holds t regs && stores t bytes

/-- A faulting step: the record, no cycle, the given registers unchanged. -/
def faults (s : State) (w : DWord) (k : Fault) (regs : List (Reg × Word)) : Bool :=
  after s w fun t => decide (t.fault = some ⟨k, s.ip⟩) && decide (t.cycles = 0) && holds t regs

/-- The state under DEBUG_POLICY = Lenient. -/
def lenient (s : State) : State := { s with cfg := { s.cfg with debugPolicy := .lenient } }

/-- The bytes DE AD BE EF at 0x2000. -/
def deadbeef : List (Nat × List Byte) := [(0x2000, [0xDE, 0xAD, 0xBE, 0xEF])]

/-! #### Move -/
theorem test_v24 :
    gives (start [(flagsReg, 0x7)] []) 0x00000100FFFFFFFF [(1, 0xFFFFFFFF), (flagsReg, 0x7), (ipReg, 0xC0808)] [] =
      true := by
  decide
theorem test_v25 :
    gives (start [(flagsReg, 0x7)] deadbeef) 0x0001010000002000
      [(1, 0xDEADBEEF), (flagsReg, 0x7), (ipReg, 0xC0808)] [] = true := by
  decide
theorem test_v28 :
    faults (start [(1, 0x9)] []) 0x0001010001000000 (.outOfBounds 0x01000000 4)
      [(1, 0x9), (ipReg, 0xC0800)] = true := by
  decide
theorem test_v29 :
    gives (start [(2, 0x7)] []) 0x0002010200000000 [(1, 0x7), (2, 0x7), (ipReg, 0xC0808)] [] = true := by
  decide
theorem test_v30 :
    gives (start [(1, 0x11223344)] []) 0x0003010000002000 [(1, 0x11223344), (ipReg, 0xC0808)]
      [(0x1FFF, [0x00, 0x11, 0x22, 0x33, 0x44, 0x00])] = true := by
  decide
theorem test_v32 :
    gives (start [(2, 0x2000)] [(0x2000, [0x00, 0x00, 0x00, 0x05])]) 0x0004020200000000 [(2, 0x5)] [] = true := by
  decide
theorem test_v33 :
    faults (start [(1, 0x1002)] []) 0x0004020100000000 (.unalignedAccess 0x1002 4) [(2, 0x0)] = true := by
  decide
theorem test_v34 :
    gives (start [(1, 0x2000), (2, 0xCAFEBABE)] []) 0x0005010200000000 [(ipReg, 0xC0808)]
      [(0x2000, [0xCA, 0xFE, 0xBA, 0xBE, 0x00])] = true := by
  decide
theorem test_v35 :
    gives (start [(1, 0x2000)] []) 0x0005010100000000 [(ipReg, 0xC0808)] [(0x2000, [0x00, 0x00, 0x20,
      0x00])] = true := by
  decide
theorem test_v36 :
    gives (start [(1, 0xFFFFFFFF)] deadbeef) 0x0006010000002003 [(1, 0xEF)] [] = true := by
  decide
theorem test_v38 :
    faults (start [] []) 0x0006010001000000 (.outOfBounds 0x01000000 1) [(1, 0x0)] = true := by
  decide
theorem test_v39 :
    gives (start [(1, 0x12345641)] [(0x0, [0x09, 0x08, 0x07, 0x06])]) 0x0007010000000000 []
      [(0x0, [0x41, 0x08, 0x07, 0x06])] = true := by
  decide
theorem test_v40 :
    gives (start [(1, 0xFFFFFFFF), (2, 0x2001)] deadbeef) 0x0008010200000000 [(1, 0xAD)] [] = true := by
  decide
theorem test_v41 :
    gives (start [(1, 0x2002), (2, 0x1FF)] deadbeef) 0x0009010200000000 []
      [(0x2000, [0xDE, 0xAD, 0xFF, 0xEF])] = true := by
  decide
theorem test_v42 :
    gives (start [(1, 0xFFFFFFFF)] deadbeef) 0x000A010000002000 [(1, 0xDEAD)] [] = true := by
  decide
theorem test_v43 :
    faults (start [] []) 0x000A010000002001 (.unalignedAccess 0x2001 2) [(1, 0x0)] = true := by
  decide
theorem test_v44 :
    gives (start [(1, 0xAAAA1234)] deadbeef) 0x000B010000002002 [] [(0x2000, [0xDE, 0xAD, 0x12, 0x34])] = true := by
  decide
theorem test_v45 :
    gives (start [(1, 0xFFFFFFFF), (2, 0x2002)] deadbeef) 0x000C010200000000 [(1, 0xBEEF)] [] = true := by
  decide
theorem test_v46 :
    gives (start [(1, 0xFFFFFE), (2, 0xABCD)] []) 0x000D010200000000 [] [(0xFFFFFE, [0xAB, 0xCD])] = true := by
  decide
theorem test_v47 :
    faults (start [(1, 0x1000000)] []) 0x000D010200000000 (.outOfBounds 0x01000000 2) [] = true := by
  decide
/-- V48: a store into the program region leaves the cache entry as it was. -/
theorem test_v48 :
    after (start [(1, 0x00610000)] []) 0x00030100000C0818 (fun t =>
      stores t [(0xC0818, [0, 0x61, 0, 0])] &&
        decide (t.icache.get (0xC0818 / 8) = .decoded (.moveRegisterImmediate 0 0))) = true := by decide
/-! #### Arithmetic: FLAGS holds Zero in bit 0, Carry in bit 1, DivideByZero in bit 2; the other bits are kept -/
theorem test_v51 :
    gives (start [(1, 0xFFFFFFFF), (2, 0x1), (flagsReg, 0xA0000004)] []) 0x0010030102000000
      [(3, 0x0), (flagsReg, 0xA0000007), (ipReg, 0xC0808)] [] = true := by
  decide
theorem test_v55 :
    gives (start [(1, 0xFFFFFFFF), (2, 0xFFFFFFFF), (flagsReg, 0xA0000001)] []) 0x0010030102000000
      [(3, 0xFFFFFFFE), (flagsReg, 0xA0000002), (ipReg, 0xC0808)] [] = true := by
  decide
theorem test_v57 :
    gives (start [(1, 0xFFFFFFFF), (2, 0x0), (flagsReg, 0x2)] []) 0x0011030102000000
      [(3, 0x0), (flagsReg, 0x3), (ipReg, 0xC0808)] [] = true := by
  decide
theorem test_v58 :
    gives (start [(1, 0xFFFFFFFF), (2, 0xFFFFFFFF), (flagsReg, 0x6)] []) 0x0011030102000000
      [(3, 0xFFFFFFFF), (flagsReg, 0x6), (ipReg, 0xC0808)] [] = true := by
  decide
theorem test_v60 :
    gives (start [(1, 0x3), (2, 0x5), (flagsReg, 0x1)] []) 0x0012030102000000
      [(3, 0xFFFFFFFE), (flagsReg, 0x2), (ipReg, 0xC0808)] [] = true := by
  decide
theorem test_v61 :
    gives (start [(1, 0x5), (2, 0x5), (flagsReg, 0x6)] []) 0x0012030102000000
      [(3, 0x0), (flagsReg, 0x5), (ipReg, 0xC0808)] [] = true := by
  decide
theorem test_v65 :
    gives (start [(1, 0x0), (2, 0xFFFFFFFF), (flagsReg, 0x2)] []) 0x0013030102000000
      [(3, 0x0), (flagsReg, 0x3), (ipReg, 0xC0808)] [] = true := by
  decide
theorem test_v66 :
    gives (start [(1, 0x5), (2, 0x4), (flagsReg, 0x2)] []) 0x0013030102000000
      [(3, 0x0), (flagsReg, 0x1), (ipReg, 0xC0808)] [] = true := by
  decide
theorem test_v79 :
    gives (start [(1, 0x0), (flagsReg, 0x7)] []) 0x00140101FFFFFFFF [(1, 0xFFFFFFFF), (flagsReg, 0x4)] [] = true := by
  decide
theorem test_v78 :
    gives (start [(1, 0x1)] []) 0x00140101FFFFFFFF [(1, 0x0), (flagsReg, 0x3)] [] = true := by
  decide
theorem test_v81 :
    gives (start [(1, 0x0), (flagsReg, 0x5)] []) 0x0015010100000001 [(1, 0xFFFFFFFF), (flagsReg, 0x6)] [] = true := by
  decide
theorem test_v80 :
    gives (start [(1, 0x1)] []) 0x0015010100000001 [(1, 0x0), (flagsReg, 0x1)] [] = true := by
  decide
theorem test_v70 :
    gives (start [(1, 0xFFFFFFFF), (2, 0xFFFFFFFF), (flagsReg, 0x5)] []) 0x0016030401020000
      [(3, 0xFFFFFFFE), (4, 0x1), (flagsReg, 0x6), (ipReg, 0xC0808)] [] = true := by
  decide
theorem test_v84 :
    gives (start [(1, 0x10000), (2, 0x30000)] []) 0x0016030301020000 [(3, 0x0), (flagsReg, 0x3)] [] = true := by
  decide
theorem test_v72 :
    gives (start [(1, 0x7), (2, 0x0), (flagsReg, 0x2)] []) 0x0017030401020000
      [(3, 0x0), (4, 0x7), (flagsReg, 0x7), (ipReg, 0xC0808)] [] = true := by
  decide
theorem test_v85 :
    gives (start [(1, 0x11), (2, 0x5), (flagsReg, 0x7)] []) 0x0017030301020000
      [(3, 0x2), (flagsReg, 0x2)] [] = true := by
  decide
/-! #### Bitwise, shift and compare -/
theorem test_v86 :
    gives (start [(1, 0xF0F0F0F0), (2, 0xFF00FF0), (flagsReg, 0x7)] []) 0x0020030102000000
      [(3, 0xF000F0), (flagsReg, 0x6), (ipReg, 0xC0808)] [] = true := by
  decide
theorem test_v88 :
    gives (start [(1, 0xF0000000), (2, 0xF), (flagsReg, 0x7)] []) 0x0021030102000000
      [(3, 0xF000000F), (flagsReg, 0x6), (ipReg, 0xC0808)] [] = true := by
  decide
theorem test_v90 :
    gives (start [(1, 0xFFFF0000), (2, 0xFF00FF00), (flagsReg, 0xFFFFFFFF)] []) 0x0022030102000000
      [(3, 0xFFFF00), (flagsReg, 0xFFFFFFFE), (ipReg, 0xC0808)] [] = true := by
  decide
theorem test_v92 :
    gives (start [(1, 0xFFFFFFFF), (2, 0x0), (flagsReg, 0x6)] []) 0x0023030100000000
      [(3, 0x0), (flagsReg, 0x7), (ipReg, 0xC0808)] [] = true := by
  decide
theorem test_v93 :
    gives (start [(1, 0x40000001), (2, 0x2), (flagsReg, 0x5)] []) 0x0024030102000000
      [(3, 0x4), (flagsReg, 0x6), (ipReg, 0xC0808)] [] = true := by
  decide
theorem test_v96 :
    gives (start [(1, 0x1), (2, 0x20), (flagsReg, 0x0)] []) 0x0024030102000000
      [(3, 0x0), (flagsReg, 0x3), (ipReg, 0xC0808)] [] = true := by
  decide
theorem test_v102 :
    gives (start [(1, 0x80000000), (2, 0x1F), (flagsReg, 0x3)] []) 0x0025030102000000
      [(3, 0x1), (flagsReg, 0x0), (ipReg, 0xC0808)] [] = true := by
  decide
theorem test_v106 :
    gives (start [(1, 0x80000000), (2, 0x120), (flagsReg, 0x0)] []) 0x0025030102000000
      [(3, 0x0), (flagsReg, 0x3), (ipReg, 0xC0808)] [] = true := by
  decide
theorem test_v107 :
    gives (start [(1, 0x3), (2, 0x5), (flagsReg, 0x7)] []) 0x0026030102000000
      [(3, 0xFFFFFFFF), (flagsReg, 0x6), (ipReg, 0xC0808)] [] = true := by
  decide
theorem test_v110 :
    gives (start [(1, 0x80000000), (2, 0x7FFFFFFF), (flagsReg, 0x7)] []) 0x0026030102000000
      [(3, 0x1), (flagsReg, 0x6), (ipReg, 0xC0808)] [] = true := by
  decide
theorem test_v111 :
    gives (start [(1, 0x3), (2, 0x3), (flagsReg, 0x0)] []) 0x0027030102000000
      [(3, 0x1), (flagsReg, 0x0), (ipReg, 0xC0808)] [] = true := by
  decide
theorem test_v113 :
    gives (start [(1, 0x3), (2, 0x5), (flagsReg, 0x7)] []) 0x0028030102000000
      [(3, 0x1), (flagsReg, 0x7), (ipReg, 0xC0808)] [] = true := by
  decide
theorem test_v114 :
    gives (start [(1, 0xFFFFFFFF), (2, 0x0), (flagsReg, 0x1)] []) 0x0029030102000000
      [(3, 0x1), (flagsReg, 0x1), (ipReg, 0xC0808)] [] = true := by
  decide
theorem test_v115 :
    gives (start [(1, 0x3), (2, 0x3), (flagsReg, 0x0)] []) 0x0029030102000000
      [(3, 0x0), (flagsReg, 0x0), (ipReg, 0xC0808)] [] = true := by
  decide
theorem test_v116 :
    gives (start [(1, 0x0), (2, 0x0), (flagsReg, 0x0)] []) 0x002A030102000000
      [(3, 0x1), (flagsReg, 0x0), (ipReg, 0xC0808)] [] = true := by
  decide
theorem test_v117 :
    gives (start [(1, 0x3), (2, 0x5), (flagsReg, 0x0)] []) 0x002A030102000000
      [(3, 0x0), (flagsReg, 0x0), (ipReg, 0xC0808)] [] = true := by
  decide
theorem test_v118 :
    gives (start [(1, 0x7FFFFFFF), (2, 0x80000000), (flagsReg, 0x0)] []) 0x002B030102000000
      [(3, 0x1), (flagsReg, 0x0), (ipReg, 0xC0808)] [] = true := by
  decide
theorem test_v119 :
    gives (start [(1, 0xFFFFFFFF), (2, 0xFFFFFFFF), (flagsReg, 0x0)] []) 0x002C030102000000
      [(3, 0x1), (flagsReg, 0x0), (ipReg, 0xC0808)] [] = true := by
  decide
theorem test_v120 :
    gives (start [(1, 0x5), (2, 0x3), (flagsReg, 0x0)] []) 0x002C030102000000
      [(3, 0x0), (flagsReg, 0x0), (ipReg, 0xC0808)] [] = true := by
  decide
/-! #### Stack, call and return -/
theorem test_v123 :
    gives (start [(1, 0xAABBCCDD)] []) 0x0030010000000000 [(spReg, 0x40804), (ipReg, 0xC0808)]
      [(0x40800, [0xAA, 0xBB, 0xCC, 0xDD, 0x00])] = true := by
  decide
theorem test_v125 :
    gives (start [(spReg, 0xC07FC)] []) 0x0031000000001234 [(spReg, 0xC0800)] [(0xC07FC, [0x00,
      0x00, 0x12, 0x34])] = true := by
  decide
theorem test_v126 :
    faults (start [(spReg, 0xC0800)] []) 0x0031000000001234 (.outOfBounds 0x000C0800 4) [(spReg, 0xC0800)] = true := by
  decide
theorem test_v127 :
    faults (start [(spReg, 0x40802)] []) 0x0030010000000000 (.unalignedAccess 0x00040802 4)
      [(spReg, 0x40802)] = true := by
  decide
theorem test_v129 :
    gives (start [(spReg, 0x40804)] [(0x40800, [0x00, 0x00, 0x12, 0x34])]) 0x0032010000000000
      [(1, 0x1234), (spReg, 0x40800), (ipReg, 0xC0808)] [] = true := by
  decide
theorem test_v131 :
    gives (start [(spReg, 0x40808)] []) 0x0033000000000000 [(spReg, 0x40804), (ipReg, 0xC0808)] [] = true := by
  decide
theorem test_v133 :
    gives (start [] []) 0x00340000000C0840 [(spReg, 0x40804), (ipReg, 0xC0840)]
      [(0x40800, [0x00, 0x0C, 0x08, 0x08])] = true := by
  decide
theorem test_v134 :
    faults (start [(spReg, 0xC0800)] []) 0x00340000000C0840 (.outOfBounds 0x000C0800 4)
      [(spReg, 0xC0800), (ipReg, 0xC0800)] = true := by
  decide
theorem test_v135 :
    gives (start [(9, 0xC0900), (ipReg, 0xC0810)] []) 0x0035090000000000 [(spReg, 0x40804), (ipReg, 0xC0900)]
      [(0x40800, [0x00, 0x0C, 0x08, 0x18])] = true := by
  decide
theorem test_v136 :
    gives (start [(spReg, 0x40804)] [(0x40800, [0x00, 0x0C, 0x08, 0x08])]) 0x0036000000000000
      [(ipReg, 0xC0808), (spReg, 0x40800)] [] = true := by
  decide
theorem test_v137 :
    faults (start [] []) 0x0036000000000000 (.outOfBounds 0x000407FC 4) [(ipReg, 0xC0800)] = true := by
  decide
/-- V139: under the Direct policy a pop into SP leaves the popped value. -/
theorem test_v139 :
    after { start [(spReg, 0x40808)] [(0x40804, [0, 4, 9, 0])] with
      cfg := { Config.std with codec := codec .direct .ignore } } 0x0032FF0000000000
      (fun t => holds t [(spReg, 0x40900)]) = true := by decide
/-! #### Jumps -/
theorem test_v140 :
    gives (start [(flagsReg, 0x7), (ipReg, 0xC0808)] []) 0x00400000000C0840
      [(flagsReg, 0x7), (ipReg, 0xC0840)] [] = true := by
  decide
theorem test_v141 :
    gives (start [(1, 0xC0840), (ipReg, 0xC0808)] []) 0x0041010000000000
      [(1, 0xC0840), (ipReg, 0xC0840)] [] = true := by
  decide
theorem test_v142 :
    gives (start [(1, 0x0), (ipReg, 0xC0808)] []) 0x00420100000C0840 [(1, 0x0), (ipReg, 0xC0840)] [] = true := by
  decide
theorem test_v143 :
    gives (start [(1, 0x5), (ipReg, 0xC0808)] []) 0x00420100000C0840 [(1, 0x5), (ipReg, 0xC0810)] [] = true := by
  decide
theorem test_v144 :
    gives (start [(1, 0x1), (ipReg, 0xC0808)] []) 0x00430100000C0840 [(1, 0x1), (ipReg, 0xC0840)] [] = true := by
  decide
theorem test_v146 :
    gives (start [(1, 0x2), (ipReg, 0xC0808)] []) 0x00430100000C0840 [(1, 0x2), (ipReg, 0xC0810)] [] = true := by
  decide
theorem test_v147 :
    gives (start [(1, 0xFFFFFFFF), (ipReg, 0xC0808)] []) 0x00440100000C0840
      [(1, 0xFFFFFFFF), (ipReg, 0xC0840)] [] = true := by
  decide
theorem test_v148 :
    gives (start [(1, 0x80000000), (ipReg, 0xC0808)] []) 0x00440100000C0840
      [(1, 0x80000000), (ipReg, 0xC0810)] [] = true := by
  decide
theorem test_v149 :
    gives (start [(1, 0x0), (ipReg, 0xC0808)] []) 0x00450100000C0840 [(1, 0x0), (ipReg, 0xC0840)] [] = true := by
  decide
theorem test_v151 :
    gives (start [(1, 0xFFFFFFFF), (ipReg, 0xC0808)] []) 0x00450100000C0840
      [(1, 0xFFFFFFFF), (ipReg, 0xC0810)] [] = true := by
  decide
theorem test_v152 :
    gives (start [(1, 0xFFFFFFFF), (ipReg, 0xC0808)] []) 0x00460100000C0840
      [(1, 0xFFFFFFFF), (ipReg, 0xC0840)] [] = true := by
  decide
theorem test_v154 :
    gives (start [(1, 0x1), (ipReg, 0xC0808)] []) 0x00460100000C0840 [(1, 0x1), (ipReg, 0xC0810)] [] = true := by
  decide
theorem test_v155 :
    gives (start [(flagsReg, 0x1), (ipReg, 0xC0808)] []) 0x00470000000C0840
      [(flagsReg, 0x1), (ipReg, 0xC0840)] [] = true := by
  decide
theorem test_v163 :
    gives (start [(flagsReg, 0xFFFFFFF8), (ipReg, 0xC0808)] []) 0x00470000000C0840
      [(flagsReg, 0xFFFFFFF8), (ipReg, 0xC0810)] [] = true := by
  decide
theorem test_v157 :
    gives (start [(flagsReg, 0x6), (ipReg, 0xC0808)] []) 0x00480000000C0840
      [(flagsReg, 0x6), (ipReg, 0xC0840)] [] = true := by
  decide
theorem test_v158 :
    gives (start [(flagsReg, 0x1), (ipReg, 0xC0808)] []) 0x00480000000C0840
      [(flagsReg, 0x1), (ipReg, 0xC0810)] [] = true := by
  decide
theorem test_v159 :
    gives (start [(flagsReg, 0x2), (ipReg, 0xC0808)] []) 0x00490000000C0840
      [(flagsReg, 0x2), (ipReg, 0xC0840)] [] = true := by
  decide
theorem test_carry_clear :
    gives (start [(flagsReg, 0x5), (ipReg, 0xC0808)] []) 0x00490000000C0840
      [(flagsReg, 0x5), (ipReg, 0xC0810)] [] = true := by
  decide
theorem test_v160 :
    gives (start [(flagsReg, 0x2), (ipReg, 0xC0808)] []) 0x004A0000000C0840
      [(flagsReg, 0x2), (ipReg, 0xC0810)] [] = true := by
  decide
theorem test_not_carry_clear :
    gives (start [(flagsReg, 0x5), (ipReg, 0xC0808)] []) 0x004A0000000C0840
      [(flagsReg, 0x5), (ipReg, 0xC0840)] [] = true := by
  decide
theorem test_v161 :
    gives (start [(flagsReg, 0x4), (ipReg, 0xC0808)] []) 0x004B0000000C0840
      [(flagsReg, 0x4), (ipReg, 0xC0840)] [] = true := by
  decide
theorem test_dbz_clear :
    gives (start [(flagsReg, 0x3), (ipReg, 0xC0808)] []) 0x004B0000000C0840
      [(flagsReg, 0x3), (ipReg, 0xC0810)] [] = true := by
  decide
theorem test_v162 :
    gives (start [(flagsReg, 0x4), (ipReg, 0xC0808)] []) 0x004C0000000C0840
      [(flagsReg, 0x4), (ipReg, 0xC0810)] [] = true := by
  decide
theorem test_not_dbz_clear :
    gives (start [(flagsReg, 0x3), (ipReg, 0xC0808)] []) 0x004C0000000C0840
      [(flagsReg, 0x3), (ipReg, 0xC0840)] [] = true := by
  decide
/-! #### Fetch faults: the step at a bad `ip` (V164 to V168, V196) -/
theorem test_v164 :
    faults (start [(ipReg, 0xC0804)] []) 0 (.unalignedAccess 0xC0804 8) [(ipReg, 0xC0804)] = true := by
  decide
theorem test_v165 :
    faults (start [(ipReg, 0x800)] []) 0 (.fetchOutsideCache 0x800) [(ipReg, 0x800)] = true := by
  decide
theorem test_v166 :
    faults (start [(ipReg, 0x1000000)] []) 0 (.outOfBounds 0x1000000 8) [(ipReg, 0x1000000)] = true := by
  decide
theorem test_v168 :
    faults (start [(ipReg, 0x804)] []) 0 (.unalignedAccess 0x804 8) [(ipReg, 0x804)] = true := by
  decide
theorem test_v196 :
    faults (start [] []) 0x00FF000000000000 (.unknownOpcode 0x00FF) [(ipReg, 0xC0800)] = true := by
  decide
theorem test_v7 :
    faults (start [] []) 0x0002FD0100000000 (.reservedRegisterOperand .target 253) [(ipReg, 0xC0800)] = true := by
  decide
/-! #### Input and output -/
/-- V169, V170: the answer is free, and the rest is fixed. -/
theorem test_key_state :
    after (start [(2, 32), (flagsReg, 7)] []) 0x0050010200000000 (fun t =>
      decide (t.draws = 1) && decide (t.cycles = 1) && holds t [(2, 32), (flagsReg, 7), (ipReg, 0xC0808)]) = true := by
  decide
/-- V171: the clock is free, and the rest is fixed. -/
theorem test_poll_time :
    after (start [(flagsReg, 7)] []) 0x0051010200000000 (fun t =>
      decide (t.draws = 1) && decide (t.cycles = 1) && holds t [(3, 0), (flagsReg, 7), (ipReg, 0xC0808)]) = true := by
  decide
theorem test_v173 :
    after (start [] []) 0x0052000000000000 (fun t =>
      decide (t.fbFirstVisible = false) && holds t [(ipReg, 0xC0808)]) = true := by decide
theorem test_v174 :
    gives (start [] []) 0x0053010000000000 [(1, 0x20800)] [] = true := by
  decide
theorem test_v175 :
    gives { start [] [] with fbFirstVisible := false } 0x0053010000000000 [(1, 0x800)] [] = true := by decide
theorem test_v177 :
    after { start [] [] with cycles := 0x00000001FFFFFFFF } 0x0054010200000000 (fun t =>
      holds t [(1, 1), (2, 0xFFFFFFFF)] && decide (t.cycles = 0x0000000200000000)) = true := by decide
/-! #### System and debug -/
theorem test_v178 :
    gives (start [(flagsReg, 0x7)] []) 0x0060000000000000 [(ipReg, 0xC0808), (flagsReg, 0x7)] [] = true := by
  decide
theorem test_v179 :
    after (start [(ipReg, 0xC0810)] []) 0x0061000000000000 (fun t =>
      decide (t.halted = true) && decide (t.cycles = 1) && holds t [(ipReg, 0xC0810)]) = true := by decide
theorem test_v181 :
    after (start [] []) 0x0062000000000000 (fun t =>
      decide (t.debugOut.length = 1) && holds t [(ipReg, 0xC0808)]) = true := by decide
theorem test_v182 :
    after (start [] deadbeef) 0x0063000000000000 (fun t =>
      decide (t.debugOut.length = 1) && holds t [(ipReg, 0xC0808)]) = true := by decide
theorem test_v184 :
    faults (start [(1, 0x5), (2, 0x6)] []) 0x0064010200000000 (.assertionFailed 5 6) [(ipReg, 0xC0800)] = true := by
  decide
theorem test_v185 :
    gives (lenient (start [(1, 0x5), (2, 0x6)] [])) 0x0064010200000000 [(ipReg, 0xC0808)] [] = true := by
  decide
theorem test_v186 :
    gives (start [(5, 0x1234)] []) 0x0065050000001234 [(ipReg, 0xC0808)] [] = true := by
  decide
theorem test_v187 :
    faults (start [] []) 0x0065050000001234 (.assertionFailed 0x1234 0) [] = true := by
  decide
theorem test_v188 :
    gives (start [(1, 0x2000)] [(0x2000, [0x11, 0x22, 0x33, 0x44])]) 0x0066010011223344
      [(ipReg, 0xC0808)] [] = true := by
  decide
theorem test_v190 :
    faults (lenient (start [(1, 0x2002)] [])) 0x0066010011223344 (.unalignedAccess 0x2002 4) [] = true := by
  decide
theorem test_v191 :
    after (start [(ipReg, 0xC0810)] []) 0x0067000000000000 (fun t =>
      decide (t.debugOut = [.breakpoint 0xC0810]) && holds t [(ipReg, 0xC0818)]) = true := by decide
theorem test_v193 :
    faults (start [] []) 0x0068000000000005 (.checkpointMismatch 5 0) [] = true := by decide
theorem test_v195 :
    after { start [] [] with checkpoint := 0xFFFFFFFF } 0x00680000FFFFFFFF (fun t =>
      decide (t.checkpoint = 0) && decide (t.fault = none)) = true := by decide
/-! #### Cache generation, boot and stopped machines -/
theorem test_v180 : (step { State.reset with halted := true } matches .next { halted := true, cycles := 0, .. }) =
  true := by
  decide
theorem test_v201 :
    generateCache Config.std [] ICache.none ⟨some 0x800, some 8⟩ = .error (.invalidCacheRegion 0x800 8) := by decide
theorem test_v202 :
    generateCache Config.std [] ICache.none ⟨some 0xC0804, some 8⟩ = .error (.invalidCacheRegion 0xC0804 8) := by decide
theorem test_v203 :
    generateCache Config.std [] ICache.none ⟨some 0xC0800, some 12⟩ = .error
      (.invalidCacheRegion 0xC0800 12) := by decide
theorem test_v204 :
    generateCache Config.std [] ICache.none ⟨some 0xFFFFF8, some 16⟩ = .error
      (.invalidCacheRegion 0xFFFFF8 16) := by decide
/-- V200: the host regenerates one slot after a store of 0x00610000. -/
theorem test_v200 :
    (State.regenerate { State.reset with mem := Memory.setBytes [] 0xC0818 [0, 0x61, 0, 0] }
      ⟨some 0xC0818, some 8⟩).icache.get (0xC0818 / 8) = .decoded .haltAndCatchFire := by decide
/-- V205: the boot of a ROM of 16 bytes. -/
theorem test_v205 :
    (match boot Config.std resetInitRegs [] [0, 0x61, 0, 0, 0, 0, 0, 0, 0, 0xFF, 0, 0, 0, 0, 0, 0] with
      | .next t => holds t [(ipReg, 0xC0800), (spReg, 0x40800)] && decide (t.fault = none) && t.fbFirstVisible &&
          decide (t.icache.get (0xC0800 / 8) = .decoded .haltAndCatchFire) &&
          decide (t.icache.get (0xC0808 / 8) = .undecodable (.unknownOpcode 0x00FF))
      | _ => false) = true := by decide
theorem test_v206 (rom : List Byte) (h : rom.length = 0xF3F804) :
    loadRom Config.std [] rom = .error (.fileTooBig 0xF3F804) := by
  unfold loadRom
  rw [h, if_pos (by decide)]
theorem test_v208 : loadRom Config.std [] [1, 2, 3, 4, 5, 6] = .error (.fileSizeNotDivisible 6) := by decide
/-- V210: a ROM of 12 bytes; the last slot decodes from the mixed bytes. -/
theorem test_v210 :
    (match boot Config.std resetInitRegs [(0xC080F, 0x77)] [0, 0x61, 0, 0, 0, 0, 0, 0, 0, 0x31, 0, 0] with
      | .next t => decide (t.icache.get (0xC0808 / 8) = .decoded (.pushImmediate 0x77))
      | _ => false) = true := by decide

/-! ### Witnesses: the hypotheses of the statements are met, each clause at a boundary of its range -/

/-- WordLoadsReadBigEndian, WordStoresWriteBigEndian, PointerAssertionReadsFirst: the last accessible word, a misaligned
address, the first address past memory. -/
theorem witness_word_access :
    Accessible 0x00FFFFFC 4 ∧ Accessible 0 4 ∧ (0x00FFFFFD#32).toNat % 4 ≠ 0 ∧
      ((0x01000000#32).toNat % 4 = 0 ∧ memorySize < (0x01000000#32).toNat + 4) :=
  ⟨⟨by decide, by decide⟩, ⟨by decide, by decide⟩, by decide, by decide⟩

/-- NarrowLoadsZeroExtend, NarrowStoresWriteLowBytes: the last byte and the first address past memory; the last halfword,
a misaligned address and the first one past memory. -/
theorem witness_narrow_access :
    (0x00FFFFFF#32).toNat < memorySize ∧ memorySize ≤ (0x01000000#32).toNat ∧ Accessible 0x00FFFFFE 2 ∧
      (0x00FFFFFF#32).toNat % 2 ≠ 0 ∧ ((0x01000000#32).toNat % 2 = 0 ∧ memorySize < (0x01000000#32).toNat + 2) :=
  ⟨by decide, by decide, ⟨by decide, by decide⟩, by decide, by decide⟩

/-- AddWithCarryFeedsTheCarryIn, SubtractWithCarryFeedsTheBorrowIn: both values of the carry in. -/
theorem witness_carry_in :
    1 = (((start [(flagsReg, 2)] []).reg flagsReg).getLsbD 1).toNat ∧
      0 = (((start [(flagsReg, 5)] []).reg flagsReg).getLsbD 1).toNat := by decide

/-- MultiplyIsExact: the largest product. -/
theorem witness_product :
    (0xFFFFFFFE00000001 : DWord) =
      ((start [(1, 0xFFFFFFFF)] []).reg 1).setWidth 64 * ((start [(1, 0xFFFFFFFF)] []).reg 1).setWidth 64 := by decide

/-- DivmodFlagsAZeroDivisor: a zero divisor, and a division with its quotient and remainder. -/
theorem witness_divmod :
    (start [] []).reg 2 = 0 ∧ (start [(2, 5)] []).reg 2 ≠ 0 ∧
      ((start [(1, 17), (2, 5)] []).reg 1).toNat = (3#32).toNat * ((start [(1, 17), (2, 5)] []).reg 2).toNat +
        (2#32).toNat ∧
      (2#32).toNat < ((start [(1, 17), (2, 5)] []).reg 2).toNat := by decide

/-- BitwiseSetsZeroOnly: the bits of a value, for every position. -/
theorem witness_bits (a b : Word) :
    (∀ k, (a &&& b).getLsbD k = (a.getLsbD k && b.getLsbD k)) ∧
      (∀ k, (a ||| b).getLsbD k = (a.getLsbD k || b.getLsbD k)) ∧
      (∀ k, (a ^^^ b).getLsbD k = (a.getLsbD k != b.getLsbD k)) ∧
      ∀ k, k < 32 → (~~~a).getLsbD k = !a.getLsbD k := by
  refine ⟨fun k => by simp, fun k => by simp, fun k => by simp, fun k hk => by simp [hk]⟩

/-- ShiftsCarryShiftedOutBits: the bits of a value, by any amount. -/
theorem witness_shifts (a : Word) (n : Nat) :
    (∀ k, (a <<< n).getLsbD k = (decide (k < 32) && decide (n ≤ k) && a.getLsbD (k - n))) ∧
      ∀ k, (a >>> n).getLsbD k = a.getLsbD (k + n) := by
  refine ⟨fun k => ?_, fun k => by simp [Nat.add_comm]⟩
  rw [BitVec.getLsbD_shiftLeft, ← decide_not, decide_eq_decide.mpr (Nat.not_lt (a := k) (b := n))]

/-- CompareIsTriState: less (lhs 1, rhs 2), equal (lhs 2, rhs 3) and greater (lhs 2, rhs 1), at unsigned neighbours. -/
theorem witness_compare :
    let s := start [(1, 0x7FFFFFFF), (2, 0x80000000), (3, 0x80000000)] []
    (s.reg 1).toNat < (s.reg 2).toNat ∧ s.reg 2 = s.reg 3 := by decide

/-- The hypotheses `c = s.reg comparison`, `a = (s.reg lhs).toNat` and `n = (s.reg rhs).toNat` of
CompareJumpsMatchExactly, BoolComparesStoreZeroOrOne and ShiftsCarryShiftedOutBits, and the bits of FLAGS of FlagJumpsReadOneFlag. -/
theorem witness_register_values :
    let s := start [(1, 0xFFFFFFFF), (2, 33), (flagsReg, 7)] []
    0xFFFFFFFF = s.reg 1 ∧ 0xFFFFFFFF = (s.reg 1).toNat ∧ 33 = (s.reg 2).toNat ∧
      ∀ k, (7#32).getLsbD k = (s.reg flagsReg).getLsbD k :=
  ⟨by decide, by decide, by decide, fun _ => rfl⟩

/-- PushStoresThenAdvances, PopRetreatsThenReads, CallPushesTheReturnAddress, ReturnPopsItsTarget,
PushThenPopGivesTheWordBack, CallThenReturnComesBack: an admitted configuration, the first and the last word of the
stack, a misaligned address, and the words just outside it. -/
theorem witness_stack :
    State.reset.cfg.admitted = true ∧ InStack State.reset.cfg State.reset.sp ∧ InStack State.reset.cfg 0x000C07FC ∧
      (0x000C07FD#32).toNat % 4 ≠ 0 ∧
      ((0x000407FC#32).toNat % 4 = 0 ∧ (0x000407FC#32).toNat < State.reset.cfg.stackStart) ∧
      ((0x000C0800#32).toNat % 4 = 0 ∧ State.reset.cfg.stackEnd < (0x000C0800#32).toNat + 4) ∧
      (252#8).toNat < 253 :=
  ⟨by decide, ⟨by decide, by decide, by decide⟩, ⟨by decide, by decide, by decide⟩, by decide, by decide, by decide,
    by decide⟩

/-- PopRetreatsThenReads, ReturnPopsItsTarget: the addresses of pops at both ends of the stack. -/
theorem witness_pop :
    InStack State.reset.cfg ((start [(spReg, 0x40804)] []).sp - 4) ∧
      InStack State.reset.cfg ((start [(spReg, 0xC0800)] []).sp - 4) ∧
      ((start [] []).sp - 4).toNat < State.reset.cfg.stackStart ∧
      State.reset.cfg.stackEnd < ((start [(spReg, 0xC0804)] []).sp - 4).toNat + 4 :=
  ⟨⟨by decide, by decide, by decide⟩, ⟨by decide, by decide, by decide⟩, by decide, by decide⟩

/-- FramebuffersSwap: both values of the display's state. -/
theorem witness_framebuffers :
    State.reset.fbFirstVisible = true ∧ { State.reset with fbFirstVisible := false }.fbFirstVisible = false := by decide

/-- HaltStopsTheMachine: no fault before. -/
theorem witness_no_fault : State.reset.fault = none := by decide

/-- RegisterAssertionsCompare, PointerAssertionReadsFirst, CheckpointAdvancesOnAMatch: a check that holds, one that does
not, and both policies. -/
theorem witness_checks :
    State.reset.reg 1 = State.reset.reg 2 ∧ ¬ (start [(1, 5)] []).reg 1 = (start [(1, 5)] []).reg 2 ∧
      (0 : Word) = State.reset.checkpoint ∧ ¬ (1 : Word) = State.reset.checkpoint ∧
      (0xDEADBEEF : Word) = (start [] deadbeef).wordAt 0x2000 ∧ ¬ (0 : Word) = (start [] deadbeef).wordAt 0x2000 ∧
      State.reset.cfg.debugPolicy = .strict ∧ (lenient State.reset).cfg.debugPolicy = .lenient := by decide

/-- DecodeAndEncodeAgree: distinct codes, a well-formed instruction with the highest register the Fault policy admits
and one with the highest index under Direct, a word that decodes, and words with zero and with nonzero padding. -/
theorem witness_codec :
    Codec.std.Distinct ∧ Instr.wf Codec.std (.moveRegisterImmediate 252 0xFFFFFFFF) = true ∧
      Instr.wf (codec .direct .ignore) (.moveRegisterImmediate 255 0xFFFFFFFF) = true ∧
      decode Codec.std 0x000005AB00001234 = .ok (.moveRegisterImmediate 5 0x1234) ∧
      PaddingByte .moveRegisterImmediate 3 ∧ wordByte 0x000005AB00001234 3 ≠ 0 ∧ wordByte 0x0000050000001234 3 = 0 :=
  ⟨by decide, by decide, by decide, by decide, ⟨by decide, by decide⟩, by decide, by decide⟩

/-- DecodeChecksInOrder: the code above the last one is no definition's. -/
theorem witness_decode_unknown :
    0x0069 = (0x0069000000000000#64).extractLsb' 48 16 ∧ ∀ op, Codec.std.code op ≠ 0x0069 := by
  refine ⟨by decide, fun op => ?_⟩
  cases op <;> decide

/-- DecodeChecksInOrder: a reserved second register after a first one of 252; no reserved register; padding in the last
byte, and none. -/
theorem witness_decode_order :
    Codec.std.code .moveTargetSource = (0x0002FCFD00000000#64).extractLsb' 48 16 ∧ Codec.std.reserved = .fault ∧
      Opcode.moveTargetSource.roles[1]? = some .source ∧
      253 ≤ ((0x0002FCFD00000000#64).extractLsb' (40 - 8 * 1) 8).toNat ∧
      (∀ j, j < 1 → ((0x0002FCFD00000000#64).extractLsb' (40 - 8 * j) 8).toNat < 253) ∧
      (∀ k, k < 2 → ((0x0002FCFC00000001#64).extractLsb' (40 - 8 * k) 8).toNat < 253) ∧
      (codec .fault .fault).padding = .fault ∧
      (PaddingByte .moveTargetSource 7 ∧ (0x0002FCFC00000001#64).extractLsb' (56 - 8 * 7) 8 ≠ 0) ∧
      (∀ j, PaddingByte .moveTargetSource j → (0x0002FCFC00000000#64).extractLsb' (56 - 8 * j) 8 = 0) ∧
      (codec .direct .ignore).reserved = .direct ∧ Codec.std.padding = .ignore := by
  refine ⟨by decide, by decide, by decide, by decide, by decide, by decide, by decide, ⟨⟨by decide, by decide⟩, by
    decide⟩,
    fun j hj => ?_, by decide, by decide⟩
  obtain ⟨h1, h2⟩ := hj
  have h1 : 4 ≤ j := h1
  have h2 : j < 8 := h2
  interval_cases j <;> decide

/-- EncoderChecksItsCall: each clause in turn, at the largest register index and extra word and one above. -/
theorem witness_encoder :
    [3, 1].length ≠ Opcode.addTargetLhsRhs.roles.length ∧ [5].length = Opcode.moveRegisterImmediate.roles.length ∧
      Opcode.moveRegisterImmediate.extraKind.isSome = true ∧ Opcode.noOp.extraKind = none ∧
      (some 1).isSome = true ∧ Opcode.moveTargetSource.extraKind.isSome = (none : Option Nat).isSome ∧
      [255, 256][1]? = some 256 ∧ 255 < 256 ∧ (∀ (j q : Nat), j < 1 → [255, 256][j]? = some q → q ≤ 255) ∧
      (∀ r ∈ [255, 0], r ≤ 255) ∧ 2 ^ 32 - 1 < 0x100000000 ∧ 0xFFFFFFFF ≤ 2 ^ 32 - 1 := by
  refine ⟨by decide, by decide, by decide, by decide, by decide, by decide, by decide, by decide, fun j q hj hq => ?_,
    by decide, by decide, by decide⟩
  obtain rfl : j = 0 := by omega
  simp at hq
  omega

/-- RegistersHoldWhatIsWritten, MemoryAccessesAreBigEndian: the last register index and the first bad one; each clause
of an access of 8 bytes. -/
theorem witness_ranges :
    255 < 256 ∧ 256 ≤ 256 ∧ 8 = Width.instruction.bytes ∧ (0x00FFFFFC#32).toNat % 8 ≠ 0 ∧
      ((0x01000000#32).toNat % 8 = 0 ∧ memorySize < (0x01000000#32).toNat + 8) ∧
      ((0x00FFFFF8#32).toNat % 8 = 0 ∧ (0x00FFFFF8#32).toNat + 8 ≤ memorySize) := by decide

/-- ReadAfterWriteGivesTheValue: a write that succeeds at the end of memory, and a neighbouring read. -/
theorem witness_write :
    (∃ t, State.reset.memWrite 0x00FFFFFC .word 0x123456789 = .ok t) ∧
      (0x00FFFFF8#32).toNat + Width.word.bytes ≤ (0x00FFFFFC#32).toNat := ⟨⟨_, rfl⟩, by decide⟩

/-- StepRunsTheDecodedInstruction, FetchFaultsInOrder: a machine that runs alone, at the first and the last fetchable
address; a decoded slot; an Empty slot over a word that decodes and over one that does not; an undecodable slot; and the
three bad addresses. -/
theorem witness_fetch :
    RunsAlone State.reset ∧ Fetchable State.reset.cfg State.reset.ip ∧ Fetchable State.reset.cfg 0x00FFFFF8 ∧
      State.reset.icache.get (0xC0800 / 8) = .decoded (.moveRegisterImmediate 0 0) ∧
      { State.reset with icache := ICache.none }.icache.get (0xC0800 / 8) = .empty ∧
      decode Codec.std (State.reset.dwordAt 0xC0800) = .ok (.moveRegisterImmediate 0 0) ∧
      (State.reset.placeWord 0x00FF000000000000).icache.get (0xC0800 / 8) = .undecodable (.unknownOpcode 0x00FF) ∧
      decode Codec.std ((start [] [(0xC0800, [0, 0xFF])]).dwordAt 0xC0800) = .error (.unknownOpcode 0x00FF) ∧
      (0x000C0804#32).toNat % 8 ≠ 0 ∧ ((0x01000000#32).toNat % 8 = 0 ∧ memorySize < (0x01000000#32).toNat + 8) ∧
      (Accessible 0x000C07F8 8 ∧ (0x000C07F8#32).toNat < State.reset.cfg.entryPoint) := by
  refine ⟨⟨by decide, by decide, by decide⟩, ⟨⟨by decide, by decide⟩, by decide⟩, ⟨⟨by decide, by decide⟩, by decide⟩,
    by decide, by decide, by decide, by decide, by decide, by decide, by decide, ⟨⟨by decide, by decide⟩, by decide⟩⟩

/-- StoppedMachineStays: a halted machine and a faulted one. -/
theorem witness_stopped :
    { State.reset with halted := true }.halted = true ∧ (State.reset.raise (.fetchOutsideCache 0)).fault ≠ none := by
  decide

/-- FaultsArePrecise: a step that faults. -/
theorem witness_faulting_step :
    ∃ (s t : State) (r : FaultRecord), s.cfg.hostRegenerates = .bootOnly ∧ s.fault = none ∧ step s = .next t ∧
      t.fault = some r :=
  ⟨State.reset.setIp 0xC0804, { State.reset.setIp 0xC0804 with fault := some ⟨.unalignedAccess 0xC0804 8, 0xC0804⟩ },
    ⟨.unalignedAccess 0xC0804 8, 0xC0804⟩, by decide, by decide, rfl, rfl⟩

/-- EveryStepKeepsTheInvariant: a state with the invariant and a step from it, here one at the end of the stack with a
byte in memory. -/
theorem witness_invariant :
    ∃ s t : State, Inv s ∧ step s = .next t := by
  refine ⟨start [(spReg, 0xC0800)] [(0, [0x41])], _, ⟨by decide, by decide, by decide, fun slot => .inr ⟨0, rfl⟩,
    fun slot _ _ => ?_, by decide⟩, rfl⟩
  exact CacheEntry.noConfusion

/-- ConfigurationIsFixed, ExecutionNeverChangesTheCache, OnlyTheHaltHalts, ExitOnHaltChangesNoCoreState: an instruction
and a step that answer a next state, on a machine with a generated cache; the halt from a running state, an instruction
in a halted one, and a step of a halted one. -/
theorem witness_next :
    (∃ t, exec .noOp State.reset = .next t) ∧ (∃ t, step State.reset = .next t) ∧
      State.reset.cfg.hostRegenerates = .bootOnly ∧ CacheGenerated State.reset ∧
      (∃ t, exec .haltAndCatchFire State.reset = .next t ∧ State.reset.halted = false ∧ t.halted = true) ∧
      (∃ t, exec .noOp { State.reset with halted := true } = .next t) ∧
      ∃ t, step { State.reset with halted := true } = .next t :=
  ⟨⟨_, rfl⟩, ⟨_, rfl⟩, rfl, fun _ _ _ => CacheEntry.noConfusion, ⟨_, rfl, rfl, rfl⟩, ⟨_, rfl⟩, ⟨_, rfl⟩⟩

/-- OnlyListedInstructionsWriteFlags, OnlyStackInstructionsMoveTheStackPointer: the Fault policy, a well-formed
instruction outside the lists, and its next state. -/
theorem witness_frames :
    State.reset.cfg.codec.reserved = .fault ∧ Instr.wf State.reset.cfg.codec (.moveTargetSource 252 0) = true ∧
      (∃ t, exec (.moveTargetSource 252 0) State.reset = .next t) ∧
      Opcode.moveTargetSource ∉ [Opcode.pushRegister, .pushImmediate, .popRegister, .pop, .callAddress, .callRegister,
        .returnFromCall] ∧
      Opcode.moveTargetSource ∉ [Opcode.addTargetLhsRhs, .addTargetSourceImmediate, .addWithCarryTargetLhsRhs,
        .subtractTargetLhsRhs, .subtractTargetSourceImmediate, .subtractWithCarryTargetLhsRhs, .multiplyHighLowLhsRhs,
        .divmodTargetModLhsRhs, .andTargetLhsRhs, .orTargetLhsRhs, .xorTargetLhsRhs, .notTargetSource,
        .leftShiftTargetLhsRhs, .rightShiftTargetLhsRhs, .compareTargetLhsRhs] :=
  ⟨by decide, by decide, ⟨_, rfl⟩, by decide, by decide⟩

/-- CacheGenerationCoversItsRegion: a region rejected for each reason, the last slot accepted, and an empty region at
the end of memory. -/
theorem witness_regions :
    0xC07F8 < Config.std.entryPoint ∧ 0xC0804 % 8 ≠ 0 ∧ 12 % 8 ≠ 0 ∧ memorySize < 0xFFFFF8 + 16 ∧
      (Config.std.entryPoint ≤ 0xFFFFF8 ∧ 0xFFFFF8 % 8 = 0 ∧ 8 % 8 = 0 ∧ 0xFFFFF8 + 8 ≤ memorySize) ∧
      (Config.std.entryPoint ≤ 8 * 0x1FFFFF ∧ 8 * 0x1FFFFF < memorySize) ∧ 0x1000000 ≤ memorySize := by decide

/-- HostRegenerationWritesOnlyTheCache: a regeneration that succeeds and one that is rejected. -/
theorem witness_regeneration :
    (∃ ic, generateCache State.reset.cfg State.reset.mem State.reset.icache ⟨some 0xC0800, some 8⟩ = .ok ic) ∧
      ∃ k, generateCache State.reset.cfg State.reset.mem State.reset.icache ⟨some 0xC07F8, some 8⟩ = .error k :=
  ⟨⟨_, rfl⟩, ⟨_, rfl⟩⟩

/-- BootLeavesTheResetValues: the empty ROM and the largest ROM that fits. -/
theorem witness_boot :
    Config.std.admitted = true ∧ Config.std.codec.Distinct ∧
      (Config.std.entryPoint + ([] : List Byte).length ≤ memorySize ∧ ([] : List Byte).length % 4 = 0) ∧
      ∃ rom : List Byte, Config.std.entryPoint + rom.length = memorySize ∧ rom.length % 4 = 0 := by
  refine ⟨by decide, by decide, by decide, List.replicate 0xF3F800 0, ?_⟩
  rw [List.length_replicate]
  decide

/-- StartupFaultsStopTheMachine: an inadmissible configuration, a table with a code used twice, a ROM one word too big
and one of 6 bytes. -/
theorem witness_startup :
    Config.admitted { Config.std with stackSize := 524292 } = false ∧
      (¬ duplicateCodec.Distinct ∧
        tableFault duplicateCodec = some (.malformedOpcodeTable .moveRegisterAddress .duplicateCode) ∧
        Config.admitted { Config.std with codec := duplicateCodec } = true) ∧
      (∃ rom : List Byte, memorySize < Config.std.entryPoint + rom.length ∧ rom.length = 0xF3F804) ∧
      (Config.std.entryPoint + [1, 2, 3, 4, 5, 6].length ≤ memorySize ∧ [1, 2, 3, 4, 5, 6].length % 4 ≠ 0) := by
  refine ⟨by decide, by decide, ⟨List.replicate 0xF3F804 0, ?_⟩, by decide⟩
  rw [List.length_replicate]
  decide

end Sys2Proof.Machine.Tests
end

section
/-! PROOFS. Family 00_scope: every step keeps the invariant of the machine, the reset state meets it, and the startup
faults stop the machine. -/

namespace Sys2Proof.Machine

/-! ### A stopped machine -/

theorem State.stopped_eq_false_iff (s : State) : s.stopped = false ↔ s.halted = false ∧ s.fault = none := by
  simp [State.stopped]

theorem step_of_stopped (s : State) (h : s.stopped = true) : step s = .next s := by
  rcases step_cases s with ⟨-, hstep⟩ | ⟨hrun, -⟩
  · exact hstep
  · rw [h] at hrun; cases hrun

/-! ### The invariant (R11, R121, R344, R358) -/

theorem Inv.cacheSound {s : State} (h : Inv s) : CacheSound s.cfg s.icache := ⟨h.cache, h.decoded, h.generated⟩

/-- What has to be shown of a state reached from one with the invariant. -/
theorem Inv.of_sameConfig {s t : State} (h : Inv s) (hcfg : t.cfg = s.cfg) (hmem : t.mem.wf = true)
    (hcache : CacheSound s.cfg t.icache) (hend : t.halted = true → t.fault = none) : Inv t := by
  rw [← hcfg] at hcache
  exact ⟨hcfg ▸ h.admitted, hmem, hcache.wf, hcache.decoded, hcache.generated, hend⟩

/-- Taking a fault keeps the invariant of a machine that has not halted. -/
theorem Inv.raise {s : State} (h : Inv s) (hhalt : s.halted = false) (k : Fault) : Inv (s.raise k) :=
  h.of_sameConfig rfl h.memory h.cacheSound fun hh => absurd (hhalt.symm.trans hh) Bool.false_ne_true

/-- Whatever the host regenerates between two steps keeps the invariant of a running machine. -/
theorem Inv.betweenSteps {s : State} (h : Inv s) (hrun : s.stopped = false) : Inv s.betweenSteps := by
  obtain ⟨hhalt, hfault⟩ := s.stopped_eq_false_iff.mp hrun
  obtain ⟨ic, n, hsound, -, hnext⟩ := s.betweenSteps_cases hfault
  have hinv : Inv { s with icache := ic, draws := n } :=
    h.of_sameConfig rfl h.memory (hsound h.cacheSound) fun _ => hfault
  rcases hnext with hnext | ⟨k, -, hnext⟩ <;> rw [hnext]
  · exact hinv
  · exact hinv.raise hhalt k

/-- A fetch keeps the invariant: it fills at most the one Empty slot it reads, which lies in memory. -/
theorem Inv.fetch {s : State} (h : Inv s) : Inv s.fetch.1 := by
  rcases s.fetch_cases.1 with hsame | ⟨hfetch, -, hfill⟩
  · rw [hsame]; exact h
  · rw [hfill]; exact h.of_sameConfig rfl h.memory (h.cacheSound.fillSlot hfetch) h.oneEnd

theorem State.stopped_fetch (s : State) : s.fetch.1.stopped = s.stopped := by
  rcases s.fetch_cases.1 with hsame | ⟨-, -, hfill⟩
  · rw [hsame]
  · rw [hfill]; rfl

/-- Every instruction keeps the invariant of a running machine. -/
theorem Inv.exec {s t : State} (h : Inv s) (hrun : s.stopped = false) (i : Instr) (he : exec i s = .next t) :
    Inv t := by
  obtain ⟨hhalt, hfault⟩ := s.stopped_eq_false_iff.mp hrun
  rcases exec_cases i s with ⟨u, hkeep, hnext⟩ | ⟨-, hnext⟩ | ⟨k, -, -, hnext⟩ <;>
    (rw [hnext] at he; cases he)
  case inl =>
    obtain ⟨hcfg, hcache, -, hufault⟩ := hkeep.control
    exact h.of_sameConfig (by simpa using hcfg) (by simpa using hkeep.wf h.memory)
      (by simpa [hcache] using h.cacheSound) (fun _ => by simpa using hufault.trans hfault)
  case inr.inl => exact h.of_sameConfig rfl h.memory h.cacheSound fun _ => hfault
  case inr.inr => exact h.raise hhalt k

/-- Settles O48: the step is what the host does between two steps, a fetch, and then an instruction or a fault, and
each of these keeps the invariant. -/
theorem everyStepKeepsTheInvariant : Obligations.EveryStepKeepsTheInvariant := by
  intro s t h hstep
  rcases step_cases s with ⟨-, hnext⟩ | ⟨hrun, ⟨-, hnext⟩ | ⟨hrun', ⟨k, -, -, -, hnext⟩ | ⟨i, -, hnext⟩⟩⟩ <;>
    rw [hnext] at hstep
  case inl => cases hstep; exact h
  case inr.inl => cases hstep; exact h.betweenSteps hrun
  all_goals
    have hfetch : Inv s.betweenSteps.fetch.1 := (h.betweenSteps hrun).fetch
    have hrunning : s.betweenSteps.fetch.1.stopped = false := (State.stopped_fetch _).trans hrun'
  case inr.inr.inl =>
    cases hstep
    exact hfetch.raise ((State.stopped_eq_false_iff _).mp hrunning).1 k
  case inr.inr.inr => exact hfetch.exec hrunning i hstep

/-- Settles O49: in the reset state every slot holds the decode of the blank word. -/
theorem resetMeetsTheInvariant : Obligations.ResetMeetsTheInvariant where
  admitted := by decide
  memory := Memory.wf_nil
  cache := ICache.wf_base _
  decoded := fun _ => .inr ⟨Memory.dword [] 0, rfl⟩
  generated := fun _ _ _ => decodeEntry_ne_empty Config.std.codec (Memory.dword [] 0)
  oneEnd := fun _ => rfl

/-! ### The startup faults (R114, R305, R343) -/

/-- A table in which every code leads back to its own definition uses no code twice. -/
theorem distinct_of_byCode_code (c : Codec) (h : ∀ op, c.byCode (c.code op) = some op) : c.Distinct := by
  refine List.nodup_iff_injective_get.mpr fun j k hjk => ?_
  have hlen : c.codes.toList.length = 69 := by simp
  obtain ⟨op, hop⟩ := Opcode.exists_index (j.cast hlen)
  obtain ⟨op', hop'⟩ := Opcode.exists_index (k.cast hlen)
  have hcode : c.code op = c.code op' := by simpa [Codec.code, hop, hop'] using hjk
  have hsame : op = op' := Option.some.inj ((h op).symm.trans (hcode ▸ h op'))
  subst hsame
  exact Fin.cast_injective hlen (hop.symm.trans hop')

/-- The validation of a table with a code used twice reports a definition that repeats one. -/
theorem tableFault_of_not_distinct (c : Codec) (h : ¬ c.Distinct) :
    ∃ op, tableFault c = some (.malformedOpcodeTable op .duplicateCode) := by
  cases hk : tableFault c with
  | none =>
    refine absurd (distinct_of_byCode_code c fun op => ?_) h
    have hop := List.findSome?_eq_none_iff.mp hk op op.mem_all
    rw [definitionFault_eq] at hop
    by_contra hne
    rw [if_neg hne] at hop
    cases hop
  | some k =>
    obtain ⟨op, -, hop⟩ := List.exists_of_findSome?_eq_some hk
    rw [definitionFault_eq] at hop
    split at hop
    · cases hop
    · exact ⟨op, by rw [← hop]⟩

theorem boot_of_not_admitted (c : Config) (init : Vector Word 256) (m : Memory) (rom : List Byte)
    (h : c.admitted = false) : boot c init m rom = .refused .configurationNotAdmitted := by
  simp [boot, h]

theorem boot_of_tableFault (c : Config) (init : Vector Word 256) (m : Memory) (rom : List Byte) (k : Fault)
    (h : c.admitted = true) (hk : tableFault c.codec = some k) :
    boot c init m rom = .next ((State.created c init m).raise k) := by
  simp [boot, h, hk]

theorem boot_of_loadRom_error (c : Config) (init : Vector Word 256) (m : Memory) (rom : List Byte) (k : Fault)
    (h : c.admitted = true) (hd : c.codec.Distinct) (hk : loadRom c m rom = .error k) :
    boot c init m rom = .next ((State.created c init m).raise k) := by
  simp [boot, h, tableFault_eq_none c.codec hd, hk]

theorem loadRom_fileTooBig (c : Config) (m : Memory) (rom : List Byte) (h : memorySize < c.entryPoint + rom.length) :
    loadRom c m rom = .error (.fileTooBig rom.length) := if_pos h

theorem loadRom_fileSizeNotDivisible (c : Config) (m : Memory) (rom : List Byte)
    (hfit : c.entryPoint + rom.length ≤ memorySize) (h : rom.length % 4 ≠ 0) :
    loadRom c m rom = .error (.fileSizeNotDivisible rom.length) := by
  rw [loadRom, if_neg (Nat.not_lt.mpr hfit), if_pos h]

/-- Settles O58: every startup fault is taken in the state as created, whose `ip` is the entry point, and a faulted
machine stays as it is. -/
theorem startupFaultsStopTheMachine : Obligations.StartupFaultsStopTheMachine := by
  intro c init m rom
  refine ⟨boot_of_not_admitted c init m rom, fun hadm k hk => ?_, fun _ => tableFault_of_not_distinct c.codec⟩
  have hboot : boot c init m rom = .next ((State.created c init m).raise k) := by
    rcases hk with ⟨_, -, htable, -⟩ | ⟨hd, hbig, rfl⟩ | ⟨hd, hfit, hdiv, rfl⟩
    · exact boot_of_tableFault c init m rom k hadm htable
    · exact boot_of_loadRom_error c init m rom _ hadm hd (loadRom_fileTooBig c m rom hbig)
    · exact boot_of_loadRom_error c init m rom _ hadm hd (loadRom_fileSizeNotDivisible c m rom hfit hdiv)
  refine ⟨_, hboot, ?_, rfl, step_of_stopped _ rfl⟩
  rw [State.raise, State.ip_created]

end Sys2Proof.Machine
end

section
/-! PROOFS. Family 10_state: the registers and the flags, what an instruction and a step leave of the configuration, the
cache, the halted flag, FLAGS and SP, the exit-on-halt policy, and the values the boot leaves. -/

namespace Sys2Proof.Machine

/-! ### Registers and flags (R31, R40) -/

theorem ofNat_reg_inj (i j : Nat) (hi : i < 256) (hj : j < 256) :
    (BitVec.ofNat 8 j : Reg) = BitVec.ofNat 8 i ↔ j = i := by
  rw [← BitVec.toNat_inj, BitVec.toNat_ofNat, BitVec.toNat_ofNat, Nat.mod_eq_of_lt hi, Nat.mod_eq_of_lt hj]

theorem State.readIndex_of_lt (s : State) (i : Nat) (h : i < 256) : s.readIndex i = .ok (s.reg (BitVec.ofNat 8 i)) :=
  if_pos h

theorem State.readIndex_of_ge (s : State) (i : Nat) (h : 256 ≤ i) : s.readIndex i = .error (.registerOutOfRange i) :=
  if_neg (Nat.not_lt.mpr h)

theorem State.writeIndex_of_lt (s : State) (i v : Nat) (h : i < 256) :
    s.writeIndex i v = .ok (s.setReg (BitVec.ofNat 8 i) (BitVec.ofNat 32 v)) := if_pos h

theorem State.writeIndex_of_ge (s : State) (i v : Nat) (h : 256 ≤ i) :
    s.writeIndex i v = .error (.registerOutOfRange i) := if_neg (Nat.not_lt.mpr h)

/-- Settles O39: below 256 the two accesses are `reg` and `setReg`, and an index of 256 or more fails. -/
theorem registersHoldWhatIsWritten : Obligations.RegistersHoldWhatIsWritten := by
  intro s i v
  refine ⟨fun hi => ⟨s.readIndex_of_ge i hi, s.writeIndex_of_ge i v hi⟩, fun hi =>
    ⟨_, s.writeIndex_of_lt i v hi, ?_, fun j hj => ?_, rfl⟩⟩
  · rw [State.readIndex_of_lt _ i hi, State.reg_setReg, if_pos rfl]
  · rcases Nat.lt_or_ge j 256 with hlt | hge
    · rw [State.readIndex_of_lt _ j hlt, State.readIndex_of_lt _ j hlt, State.reg_setReg,
        if_neg (mt (ofNat_reg_inj i j hi hlt).mp hj)]
    · rw [State.readIndex_of_ge _ j hge, State.readIndex_of_ge _ j hge]

theorem State.getLsbD_flags_setFlag (s : State) (f : Flag) (b : Bool) (k : Nat) :
    ((s.setFlag f b).reg flagsReg).getLsbD k = if k = f.bitpos then b else (s.reg flagsReg).getLsbD k := by
  rw [State.setFlag_def, State.reg_setReg, if_pos rfl, Flag.getLsbD_put]

/-- Settles O40: a flag accessor reads and writes one bit of FLAGS. -/
theorem flagAccessorsKeepOtherBits : Obligations.FlagAccessorsKeepOtherBits := by
  intro s f b
  refine ⟨s.getFlag_eq f, ?_, fun k hk => ?_, fun q hq => ?_, rfl, rfl, rfl⟩
  · rw [State.getFlag_eq, State.getLsbD_flags_setFlag, if_pos rfl]
  · rw [State.getLsbD_flags_setFlag, if_neg hk]
  · rw [State.setFlag_def, State.reg_setReg, if_neg hq]

/-! ### The configuration, the cache and the halted flag (R46, R51, R97) -/

/-- What an instruction leaves of the configuration, the cache and the halted flag. -/
theorem exec_keeps_control {i : Instr} {s t : State} (h : exec i s = .next t) :
    t.cfg = s.cfg ∧ t.icache = s.icache ∧ (t.halted = s.halted ∨ i = .haltAndCatchFire ∧ t.halted = true) := by
  rcases exec_cases i s with ⟨u, hkeep, hnext⟩ | ⟨hi, hnext⟩ | ⟨k, -, -, hnext⟩ <;>
    (rw [hnext] at h; cases h)
  case inl =>
    obtain ⟨hcfg, hcache, hhalt, -⟩ := hkeep.control
    exact ⟨by simpa using hcfg, by simpa using hcache, .inl (by simpa using hhalt)⟩
  case inr.inl => exact ⟨rfl, rfl, .inr ⟨hi, rfl⟩⟩
  case inr.inr => exact ⟨rfl, rfl, .inl rfl⟩

theorem State.cfg_betweenSteps (s : State) (h : s.stopped = false) : s.betweenSteps.cfg = s.cfg := by
  obtain ⟨_, _, -, -, hnext | ⟨_, -, hnext⟩⟩ := s.betweenSteps_cases (s.stopped_eq_false_iff.mp h).2 <;> rw [hnext]

theorem State.betweenSteps_of_bootOnly (s : State) (h : s.cfg.hostRegenerates = .bootOnly) : s.betweenSteps = s := by
  unfold State.betweenSteps; rw [h]

theorem State.cfg_fetch (s : State) : s.fetch.1.cfg = s.cfg := by
  rcases s.fetch_cases.1 with hsame | ⟨-, -, hfill⟩
  · rw [hsame]
  · rw [hfill]; rfl

/-- A fetch fills no slot of a generated cache: the slot it reads lies in the program region and is not Empty. -/
theorem State.fetch_of_generated (s : State) (h : CacheGenerated s) : s.fetch.1 = s := by
  rcases s.fetch_cases.1 with hsame | ⟨⟨⟨halign, hmem⟩, hentry⟩, hempty, -⟩
  · exact hsame
  · have hslot : 8 * slotOf s.ip = s.ip.toNat := by unfold slotOf; omega
    exact absurd hempty (h _ (by omega) (by omega))

/-- Settles O50: what the host does, the fetch and the instruction each leave the configuration. -/
theorem configurationIsFixed : Obligations.ConfigurationIsFixed := by
  refine ⟨fun i s t h => (exec_keeps_control h).1, fun s t h => ?_⟩
  rcases step_cases s with ⟨-, hnext⟩ | ⟨hrun, ⟨-, hnext⟩ | ⟨-, ⟨k, -, -, -, hnext⟩ | ⟨i, -, hnext⟩⟩⟩ <;>
    rw [hnext] at h
  case inl => cases h; rfl
  case inr.inl => cases h; exact s.cfg_betweenSteps hrun
  case inr.inr.inl => cases h; exact (State.cfg_fetch _).trans (s.cfg_betweenSteps hrun)
  case inr.inr.inr => exact (exec_keeps_control h).1.trans ((State.cfg_fetch _).trans (s.cfg_betweenSteps hrun))

/-- Settles O51: under BootOnly and a generated cache the fetch changes nothing, and no instruction changes the
cache. -/
theorem executionNeverChangesTheCache : Obligations.ExecutionNeverChangesTheCache := by
  refine ⟨fun i s t h => (exec_keeps_control h).2.1, fun s t hboot hgen h => ?_⟩
  have hcases := step_cases s
  rw [s.betweenSteps_of_bootOnly hboot, s.fetch_of_generated hgen] at hcases
  rcases hcases with ⟨-, hnext⟩ | ⟨-, ⟨-, hnext⟩ | ⟨-, ⟨k, -, -, -, hnext⟩ | ⟨i, -, hnext⟩⟩⟩ <;>
    rw [hnext] at h
  case inr.inr.inr => exact (exec_keeps_control h).2.1
  all_goals cases h; rfl

/-- Settles O52: every instruction but the halt leaves the flag, and a halted machine stays as it is. -/
theorem onlyTheHaltHalts : Obligations.OnlyTheHaltHalts := by
  refine ⟨fun i s t h hs ht => ?_, fun i s t h hs => ?_, fun s t h hs => ?_⟩
  · rcases (exec_keeps_control h).2.2 with hsame | ⟨hi, -⟩
    · rw [hsame, hs] at ht; cases ht
    · exact hi
  · rcases (exec_keeps_control h).2.2 with hsame | ⟨-, ht⟩
    · exact hsame.trans hs
    · exact ht
  · rw [step_of_stopped s (by simp [State.stopped, hs])] at h
    cases h; exact hs

/-! ### The registers an instruction may write (R35, R38, R41) -/

/-- The table of flag writers of R41: the opcodes that set a flag. -/
def flagWriters : Flag → List Opcode
  | .zero => [.addTargetLhsRhs, .addTargetSourceImmediate, .addWithCarryTargetLhsRhs, .subtractTargetLhsRhs,
      .subtractTargetSourceImmediate, .subtractWithCarryTargetLhsRhs, .multiplyHighLowLhsRhs, .divmodTargetModLhsRhs,
      .andTargetLhsRhs, .orTargetLhsRhs, .xorTargetLhsRhs, .notTargetSource, .leftShiftTargetLhsRhs,
      .rightShiftTargetLhsRhs, .compareTargetLhsRhs]
  | .carry => [.addTargetLhsRhs, .addTargetSourceImmediate, .addWithCarryTargetLhsRhs, .subtractTargetLhsRhs,
      .subtractTargetSourceImmediate, .subtractWithCarryTargetLhsRhs, .multiplyHighLowLhsRhs, .leftShiftTargetLhsRhs,
      .rightShiftTargetLhsRhs]
  | .divideByZero => [.divmodTargetModLhsRhs]

/-- The opcodes that move the stack pointer (R220 to R228). -/
def stackMovers : List Opcode :=
  [.pushRegister, .pushImmediate, .popRegister, .pop, .callAddress, .callRegister, .returnFromCall]

/-- The registers that an instruction may write as a whole: its operands, IP, and SP where it moves the stack
pointer. -/
def MayWrite (op : Opcode) (operands : List Reg) (r : Reg) : Prop :=
  r ∈ operands ∨ r = ipReg ∨ r = spReg ∧ op ∈ stackMovers

/-- What an instruction leaves of the register file: a register it may not write, FLAGS aside, and, where FLAGS is no
operand, every bit of FLAGS but the flags it sets. -/
structure RegisterFrame (op : Opcode) (operands : List Reg) (s t : State) : Prop where
  registers : ∀ q, q ≠ flagsReg → ¬ MayWrite op operands q → t.reg q = s.reg q
  flags : flagsReg ∉ operands → ∀ k, (∀ f, op ∈ flagWriters f → k ≠ f.bitpos) →
    (t.reg flagsReg).getLsbD k = (s.reg flagsReg).getLsbD k

/-- Whatever the answer of an instruction, if it is a next state then the frame holds of it. -/
def Framed (op : Opcode) (operands : List Reg) (s : State) (res : Result) : Prop :=
  ∀ t, res = .next t → RegisterFrame op operands s t

section
variable {op op' : Opcode} {rs : List Reg} {s u : State} {r : Reg}

theorem RegisterFrame.of_regs_eq (h : u.regs = s.regs) : RegisterFrame op rs s u :=
  ⟨fun q _ _ => State.reg_congr s u q h, fun _ k _ => by rw [State.reg_congr s u flagsReg h]⟩

theorem RegisterFrame.refl (op : Opcode) (rs : List Reg) (s : State) : RegisterFrame op rs s s := .of_regs_eq rfl

theorem RegisterFrame.setReg (h : RegisterFrame op rs s u) (hr : MayWrite op rs r) (v : Word) :
    RegisterFrame op rs s (u.setReg r v) where
  registers q hq hw := by
    rw [State.reg_setReg, if_neg fun e : q = r => hw (e ▸ hr)]
    exact h.registers q hq hw
  flags hn k hk := by
    have hne : flagsReg ≠ r := by
      rintro rfl
      rcases hr with hmem | hip | ⟨hsp, -⟩
      · exact hn hmem
      · simp at hip
      · simp at hsp
    rw [State.reg_setReg, if_neg hne]
    exact h.flags hn k hk

theorem RegisterFrame.setOpnd (h : RegisterFrame op rs s u) (hr : r ∈ rs) (v : Word) :
    RegisterFrame op rs s (u.setOpnd r v) := h.setReg (.inl hr) v

theorem RegisterFrame.setPair {r' : Reg} (h : RegisterFrame op rs s u) (hr : r ∈ rs) (hr' : r' ∈ rs) (v w : Word) :
    RegisterFrame op rs s (u.setPair r r' v w) := (h.setOpnd hr v).setOpnd hr' w

theorem RegisterFrame.setIp (h : RegisterFrame op rs s u) (v : Word) : RegisterFrame op rs s (u.setIp v) :=
  h.setReg (.inr (.inl rfl)) v

theorem RegisterFrame.setSp (h : RegisterFrame op rs s u) (hop : op ∈ stackMovers) (v : Word) :
    RegisterFrame op rs s (u.setReg spReg v) := h.setReg (.inr (.inr ⟨rfl, hop⟩)) v

theorem RegisterFrame.setFlag (h : RegisterFrame op rs s u) {f : Flag} (hf : op ∈ flagWriters f) (b : Bool) :
    RegisterFrame op rs s (u.setFlag f b) where
  registers q hq hw := by
    rw [State.setFlag_def, State.reg_setReg, if_neg hq]
    exact h.registers q hq hw
  flags hn k hk := by
    rw [State.getLsbD_flags_setFlag, if_neg (hk f hf)]
    exact h.flags hn k hk

theorem RegisterFrame.advance (h : RegisterFrame op rs s u) (op' : Opcode) : RegisterFrame op rs s (u.advance op') := by
  unfold State.advance
  split
  · exact h.setIp _
  · exact h

theorem framed_normal (h : RegisterFrame op rs s u) : Framed op rs s (finish op' s (.normal u)) := by
  rintro t ⟨⟩
  exact ⟨(h.advance op').registers, (h.advance op').flags⟩

theorem framed_error (k : Fault) : Framed op rs s (finish op' s (.error k)) := by
  rintro t ⟨⟩
  exact .of_regs_eq rfl

theorem writeValue_framed (hr : r ∈ rs) (v : Word) : Framed op rs s (writeValue op' r v s) :=
  framed_normal ((RegisterFrame.refl op rs s).setOpnd hr v)

theorem writeZ_framed (hr : r ∈ rs) (hz : op ∈ flagWriters .zero) (v : Word) (z : Bool) :
    Framed op rs s (writeZ op' r v z s) :=
  framed_normal (((RegisterFrame.refl op rs s).setOpnd hr v).setFlag hz z)

theorem writeZC_framed (hr : r ∈ rs) (hz : op ∈ flagWriters .zero) (hc : op ∈ flagWriters .carry) (x : ZC) :
    Framed op rs s (writeZC op' r x s) :=
  framed_normal ((((RegisterFrame.refl op rs s).setOpnd hr x.value).setFlag hz x.zero).setFlag hc x.carry)

theorem load_framed (hr : r ∈ rs) (w : Width) (a : Word) : Framed op rs s (load op' w r a s) := by
  unfold load
  rcases s.memRead_cases a w with ⟨-, h⟩ | ⟨k, -, h⟩ <;> rw [h]
  · exact framed_normal ((RegisterFrame.refl op rs s).setOpnd hr _)
  · exact framed_error k

theorem store_framed (w : Width) (a v : Word) : Framed op rs s (store op' w a v s) := by
  unfold store
  rcases s.memWrite_cases a w v.toNat with ⟨-, h⟩ | ⟨k, -, h⟩ <;> rw [h]
  · exact framed_normal (.of_regs_eq rfl)
  · exact framed_error k

theorem pushThen_framed (hop : op ∈ stackMovers) (v : Word) (after : State → State)
    (hafter : ∀ u, RegisterFrame op rs s u → RegisterFrame op rs s (after u)) :
    Framed op rs s (pushThen op' v after s) := by
  unfold pushThen
  rcases s.push32_cases v with ⟨-, -, h⟩ | ⟨k, -, h⟩ <;> rw [h]
  · exact framed_normal (hafter _ (RegisterFrame.setSp (.of_regs_eq (by rfl)) hop _))
  · exact framed_error k

theorem popThen_framed (hop : op ∈ stackMovers) (after : Word → State → State)
    (hafter : ∀ v u, RegisterFrame op rs s u → RegisterFrame op rs s (after v u)) :
    Framed op rs s (popThen op' after s) := by
  unfold popThen
  rcases s.pop32_cases with ⟨-, -, h⟩ | ⟨k, -, h⟩ <;> rw [h]
  · exact framed_normal (hafter _ _ ((RegisterFrame.refl op rs s).setSp hop _))
  · exact framed_error k

theorem jumpIf_framed (taken : Bool) (a : Word) : Framed op rs s (jumpIf op' taken a s) := by
  rw [jumpIf_eq]
  exact framed_normal ((RegisterFrame.refl op rs s).setIp _)

theorem assertEqual_framed (a b : Word) : Framed op rs s (assertEqual op' a b s) := by
  unfold assertEqual
  split
  · exact framed_normal (RegisterFrame.refl op rs s)
  · split
    · exact framed_error _
    · exact framed_normal (.of_regs_eq rfl)

end

/-- Every instruction keeps the frame of its opcode and its operands. -/
theorem exec_framed (i : Instr) (s : State) : Framed i.opcode i.regs s (exec i s) := by
  cases i
  case moveRegisterImmediate | moveTargetSource | boolCompareEquals | boolCompareNotEquals | boolCompareGreater |
      boolCompareGreaterOrEquals | boolCompareLess | boolCompareLessOrEquals | invisibleFramebufferAddress =>
    exact writeValue_framed List.mem_cons_self _
  case moveRegisterAddress | moveTargetPointer | moveByteRegisterAddress | moveByteTargetPointer |
      moveHalfwordRegisterAddress | moveHalfwordTargetPointer => exact load_framed List.mem_cons_self _ _
  case moveAddressRegister | movePointerSource | moveByteAddressRegister | moveBytePointerSource |
      moveHalfwordAddressRegister | moveHalfwordPointerSource => exact store_framed _ _ _
  case addTargetLhsRhs | addWithCarryTargetLhsRhs | subtractTargetLhsRhs | subtractWithCarryTargetLhsRhs |
      addTargetSourceImmediate | subtractTargetSourceImmediate | leftShiftTargetLhsRhs | rightShiftTargetLhsRhs =>
    exact writeZC_framed List.mem_cons_self (by simp [Instr.opcode, flagWriters])
      (by simp [Instr.opcode, flagWriters]) _
  case andTargetLhsRhs | orTargetLhsRhs | xorTargetLhsRhs | notTargetSource | compareTargetLhsRhs =>
    exact writeZ_framed List.mem_cons_self (by simp [Instr.opcode, flagWriters]) _ _
  case multiplyHighLowLhsRhs | divmodTargetModLhsRhs =>
    exact framed_normal ((((RegisterFrame.refl _ _ s).setPair (by simp [Instr.regs]) (by simp [Instr.regs]) _ _).setFlag
      (by simp [Instr.opcode, flagWriters]) _).setFlag (by simp [Instr.opcode, flagWriters]) _)
  case pushRegister | pushImmediate =>
    exact pushThen_framed (by simp [Instr.opcode, stackMovers]) _ _ fun _ h => h
  case callAddress | callRegister =>
    exact pushThen_framed (by simp [Instr.opcode, stackMovers]) _ _ fun _ h => h.setIp _
  case popRegister =>
    exact popThen_framed (by simp [Instr.opcode, stackMovers]) _ fun _ _ h => h.setOpnd List.mem_cons_self _
  case pop => exact popThen_framed (by simp [Instr.opcode, stackMovers]) _ fun _ _ h => h
  case returnFromCall => exact popThen_framed (by simp [Instr.opcode, stackMovers]) _ fun _ _ h => h.setIp _
  case jumpImmediate a => exact jumpIf_framed (op' := .jumpImmediate) true a
  case jumpRegister r => exact jumpIf_framed (op' := .jumpRegister) true (s.opnd r)
  case jumpImmediateIfEqual | jumpImmediateIfGreaterThan | jumpImmediateIfLessThan |
      jumpImmediateIfGreaterThanOrEqual | jumpImmediateIfLessThanOrEqual | jumpImmediateIfZero |
      jumpImmediateIfNotZero | jumpImmediateIfCarry | jumpImmediateIfNotCarry | jumpImmediateIfDivideByZero |
      jumpImmediateIfNotDivideByZero => exact jumpIf_framed _ _
  case getKeyState => exact framed_normal (RegisterFrame.setOpnd (.of_regs_eq (by rfl)) List.mem_cons_self _)
  case pollTime | pollCycleCountHighLow =>
    exact framed_normal (RegisterFrame.setPair (.of_regs_eq (by rfl)) (by simp [Instr.regs]) (by simp [Instr.regs]) _ _)
  case swapFramebuffers | noOp | dumpRegisters | dumpMemory | debugBreak => exact framed_normal (.of_regs_eq rfl)
  case haltAndCatchFire => rintro t ⟨⟩; exact .of_regs_eq rfl
  case assertRegisterRegister | assertRegisterImmediate => exact assertEqual_framed _ _
  case assertPointerImmediate p x =>
    change Framed _ _ s (execAssertPointerImmediate p x s)
    unfold execAssertPointerImmediate
    rcases s.memRead_cases (s.opnd p) .word with ⟨-, h⟩ | ⟨k, -, h⟩ <;> rw [h]
    · exact assertEqual_framed _ _
    · exact framed_error k
  case checkpoint x =>
    change Framed _ _ s (execCheckpoint x s)
    unfold execCheckpoint
    split
    · exact framed_normal (.of_regs_eq rfl)
    · split
      · exact framed_error _
      · exact framed_normal (.of_regs_eq rfl)

/-- Under the Fault policy a well-formed instruction names no reserved register (R118, R127). -/
theorem not_mem_regs_of_reserved {c : Codec} {i : Instr} (hc : c.reserved = .fault) (hwf : i.wf c = true)
    (r : Reg) (hr : Reg.reserved r = true) : r ∉ i.regs := by
  intro hmem
  simp only [Instr.wf, hc, List.all_eq_true, Bool.not_eq_true'] at hwf
  exact Bool.false_ne_true ((hwf r hmem).symm.trans hr)

/-- Settles O53: FLAGS is no operand, so the frame gives every bit of it but the flags that the opcode sets. -/
theorem onlyListedInstructionsWriteFlags : Obligations.OnlyListedInstructionsWriteFlags := by
  intro i s t hc hwf h
  have hbit := (exec_framed i s t h).flags (not_mem_regs_of_reserved hc hwf flagsReg rfl)
  refine ⟨fun k hk => hbit k fun f _ => ?_, fun hop => hbit 2 fun f hf => ?_, fun hop => hbit 1 fun f hf => ?_,
    fun hop => hbit 0 fun f hf => ?_⟩ <;> cases f
  case refine_1.zero | refine_1.carry | refine_1.divideByZero => simp only [Flag.bitpos]; omega
  case refine_2.divideByZero => exact absurd (List.mem_singleton.mp hf) hop
  case refine_3.carry | refine_4.zero => exact absurd hf hop
  all_goals decide

/-- Settles O54: SP is no operand, so only an opcode that moves the stack pointer may write it. -/
theorem onlyStackInstructionsMoveTheStackPointer : Obligations.OnlyStackInstructionsMoveTheStackPointer := by
  intro i s t hc hwf h hop
  refine (exec_framed i s t h).registers spReg (by decide) ?_
  rintro (hmem | hip | ⟨-, hmoves⟩)
  · exact not_mem_regs_of_reserved hc hwf spReg rfl hmem
  · simp at hip
  · exact hop hmoves

/-! ### The exit-on-halt policy (R45, R359) -/

/-- The state under a value of EXIT_ON_HALT. -/
def State.withExit (s : State) (b : Bool) : State := { s with cfg := { s.cfg with exitOnHalt := b } }

/-- An answer with its next state under a value of EXIT_ON_HALT. -/
def resultWithExit (b : Bool) : Result → Result
  | .next t => .next (t.withExit b)
  | .fault k => .fault k
  | .refused k => .refused k

section
variable (s : State) (b : Bool) (op : Opcode)

theorem State.memRead_withExit (a : Word) (w : Width) : (s.withExit b).memRead a w = s.memRead a w := rfl

theorem State.memWrite_withExit (a : Word) (w : Width) (v : Nat) :
    (s.withExit b).memWrite a w v = (s.memWrite a w v).map (State.withExit · b) := by
  unfold State.memWrite
  cases accessFault a w.bytes <;> rfl

theorem State.push32_withExit (v : Word) : (s.withExit b).push32 v = (s.push32 v).map (State.withExit · b) := by
  have hsp : (s.withExit b).sp = s.sp := rfl
  have hstack : Config.stackFault (s.withExit b).cfg s.sp = Config.stackFault s.cfg s.sp := rfl
  unfold State.push32
  rw [hsp, hstack, State.memWrite_withExit]
  cases Config.stackFault s.cfg s.sp with
  | some k => rfl
  | none => cases s.memWrite s.sp .word v.toNat <;> rfl

theorem State.pop32_withExit : (s.withExit b).pop32 = s.pop32.map fun r => (r.1, r.2.withExit b) := by
  have hsp : (s.withExit b).popAddress = s.popAddress := rfl
  have hstack : Config.stackFault (s.withExit b).cfg s.popAddress = Config.stackFault s.cfg s.popAddress := rfl
  unfold State.pop32
  rw [hsp, hstack, State.memRead_withExit]
  cases Config.stackFault s.cfg s.popAddress with
  | some k => rfl
  | none => cases s.memRead s.popAddress .word <;> rfl

theorem finish_normal_withExit (u : State) :
    finish op (s.withExit b) (.normal (u.withExit b)) = resultWithExit b (finish op s (.normal u)) := by
  cases h : op.increment <;> simp only [finish_normal, State.advance, h] <;> rfl

theorem load_withExit (w : Width) (r : Reg) (a : Word) :
    load op w r a (s.withExit b) = resultWithExit b (load op w r a s) := by
  unfold load
  rw [State.memRead_withExit]
  cases s.memRead a w with
  | ok v => exact finish_normal_withExit s b op (s.setOpnd r (BitVec.ofNat 32 v))
  | error k => rfl

theorem store_withExit (w : Width) (a v : Word) :
    store op w a v (s.withExit b) = resultWithExit b (store op w a v s) := by
  unfold store
  rw [State.memWrite_withExit]
  cases s.memWrite a w v.toNat with
  | ok t => exact finish_normal_withExit s b op t
  | error k => rfl

theorem pushThen_withExit (v : Word) (after : State → State)
    (hafter : ∀ t, after (t.withExit b) = (after t).withExit b) :
    pushThen op v after (s.withExit b) = resultWithExit b (pushThen op v after s) := by
  unfold pushThen
  rw [State.push32_withExit]
  cases s.push32 v with
  | ok t => exact (congrArg _ (congrArg _ (hafter t))).trans (finish_normal_withExit s b op (after t))
  | error k => rfl

theorem popThen_withExit (after : Word → State → State)
    (hafter : ∀ v t, after v (t.withExit b) = (after v t).withExit b) :
    popThen op after (s.withExit b) = resultWithExit b (popThen op after s) := by
  unfold popThen
  rw [State.pop32_withExit]
  cases s.pop32 with
  | ok r => exact (congrArg _ (congrArg _ (hafter r.1 r.2))).trans (finish_normal_withExit s b op (after r.1 r.2))
  | error k => rfl

theorem jumpIf_withExit (taken : Bool) (a : Word) :
    jumpIf op taken a (s.withExit b) = resultWithExit b (jumpIf op taken a s) := by
  rw [jumpIf_eq, jumpIf_eq]
  exact finish_normal_withExit s b op (s.setIp (if taken then a else s.ip + 8))

theorem assertEqual_withExit (x y : Word) :
    assertEqual op x y (s.withExit b) = resultWithExit b (assertEqual op x y s) := by
  have hpolicy : (s.withExit b).cfg.debugPolicy = s.cfg.debugPolicy := rfl
  unfold assertEqual
  rw [hpolicy]
  split
  · exact finish_normal_withExit s b op s
  · cases s.cfg.debugPolicy with
    | strict => rfl
    | lenient => exact finish_normal_withExit s b op (s.emit _)

theorem checkpoint_withExit (x : Word) :
    execCheckpoint x (s.withExit b) = resultWithExit b (execCheckpoint x s) := by
  have hcounter : (s.withExit b).checkpoint = s.checkpoint := rfl
  have hpolicy : (s.withExit b).cfg.debugPolicy = s.cfg.debugPolicy := rfl
  unfold execCheckpoint
  rw [hcounter, hpolicy]
  split
  · rfl
  · cases s.cfg.debugPolicy <;> rfl

/-- An instruction does the same under the other policy. -/
theorem exec_withExit (i : Instr) : exec i (s.withExit b) = resultWithExit b (exec i s) := by
  cases i
  case moveRegisterAddress | moveTargetPointer | moveByteRegisterAddress | moveByteTargetPointer |
      moveHalfwordRegisterAddress | moveHalfwordTargetPointer => exact load_withExit s b _ _ _ _
  case moveAddressRegister | movePointerSource | moveByteAddressRegister | moveBytePointerSource |
      moveHalfwordAddressRegister | moveHalfwordPointerSource => exact store_withExit s b _ _ _ _
  case pushRegister | pushImmediate | callAddress | callRegister => exact pushThen_withExit s b _ _ _ fun _ => rfl
  case popRegister | pop | returnFromCall => exact popThen_withExit s b _ _ fun _ _ => rfl
  case jumpImmediateIfEqual | jumpImmediateIfGreaterThan | jumpImmediateIfLessThan |
      jumpImmediateIfGreaterThanOrEqual | jumpImmediateIfLessThanOrEqual | jumpImmediateIfZero |
      jumpImmediateIfNotZero | jumpImmediateIfCarry | jumpImmediateIfNotCarry | jumpImmediateIfDivideByZero |
      jumpImmediateIfNotDivideByZero => exact jumpIf_withExit s b _ _ _
  case assertRegisterRegister | assertRegisterImmediate => exact assertEqual_withExit s b _ _ _
  case assertPointerImmediate p x =>
    change execAssertPointerImmediate p x (s.withExit b) = resultWithExit b (execAssertPointerImmediate p x s)
    have hpointer : (s.withExit b).opnd p = s.opnd p := rfl
    unfold execAssertPointerImmediate
    rw [hpointer, State.memRead_withExit]
    cases s.memRead (s.opnd p) .word with
    | ok v => exact assertEqual_withExit s b _ _ _
    | error k => rfl
  case checkpoint x => exact checkpoint_withExit s b x
  -- the remaining instructions have a single outcome
  all_goals rfl

theorem State.regenerate_withExit (call : RegenerateCall) :
    (s.withExit b).regenerate call = (s.regenerate call).withExit b := by
  have hcache : generateCache (s.withExit b).cfg (s.withExit b).mem (s.withExit b).icache call =
      generateCache s.cfg s.mem s.icache call := rfl
  unfold State.regenerate
  rw [hcache]
  cases generateCache s.cfg s.mem s.icache call <;> rfl

theorem State.regenerateEach_withExit (calls : List RegenerateCall) :
    (s.withExit b).regenerateEach calls = (s.regenerateEach calls).withExit b := by
  induction calls generalizing s with
  | nil => rfl
  | cons call calls ih =>
    have hfault : ((s.regenerate call).withExit b).fault = (s.regenerate call).fault := rfl
    unfold State.regenerateEach
    simp only [State.regenerate_withExit, hfault, ih]
    split <;> rfl

theorem State.betweenSteps_withExit : (s.withExit b).betweenSteps = s.betweenSteps.withExit b := by
  have hpolicy : (s.withExit b).cfg.hostRegenerates = s.cfg.hostRegenerates := rfl
  unfold State.betweenSteps
  rw [hpolicy]
  cases s.cfg.hostRegenerates with
  | bootOnly => rfl
  | betweenSteps => exact State.regenerateEach_withExit { s with draws := s.draws + 1 } b _

theorem State.fetch_withExit : (s.withExit b).fetch = (s.fetch.1.withExit b, s.fetch.2) := by
  have hcheck : fetchFault (s.withExit b).cfg (s.withExit b).ip = fetchFault s.cfg s.ip := rfl
  have hslot : (s.withExit b).icache.get (slotOf (s.withExit b).ip) = s.icache.get (slotOf s.ip) := rfl
  have hword : decode (s.withExit b).cfg.codec ((s.withExit b).mem.dword (s.withExit b).ip.toNat) =
    decode s.cfg.codec (s.mem.dword s.ip.toNat) := rfl
  unfold State.fetch
  rw [hcheck, hslot, hword]
  cases fetchFault s.cfg s.ip with
  | some k => rfl
  | none =>
    cases s.icache.get (slotOf s.ip) with
    | decoded i => rfl
    | undecodable e => rfl
    | empty => cases decode s.cfg.codec (s.mem.dword s.ip.toNat) <;> rfl

theorem fetchExecute_withExit : fetchExecute (s.withExit b) = resultWithExit b (fetchExecute s) := by
  unfold fetchExecute
  rw [State.fetch_withExit]
  cases s.fetch with
  | mk t r =>
    cases r with
    | ok i => exact exec_withExit t b i
    | error k => rfl

/-- A step does the same under the other policy. -/
theorem step_withExit : step (s.withExit b) = resultWithExit b (step s) := by
  have hstopped : ∀ t : State, (t.withExit b).stopped = t.stopped := fun _ => rfl
  unfold step executeNextInstruction
  rw [State.betweenSteps_withExit, hstopped, hstopped, fetchExecute_withExit]
  split
  · rfl
  · split <;> rfl

end

/-- Settles O60: nothing that a step does reads EXIT_ON_HALT. -/
theorem exitOnHaltChangesNoCoreState : Obligations.ExitOnHaltChangesNoCoreState := by
  intro s t b h
  exact (step_withExit s b).trans (congrArg (resultWithExit b) h)

/-! ### The boot (R52, R341 to R344) -/

theorem loadRom_ok (c : Config) (m : Memory) (rom : List Byte) (hfit : c.entryPoint + rom.length ≤ memorySize)
    (hdiv : rom.length % 4 = 0) : loadRom c m rom = .ok (m.setBytes c.entryPoint rom) := by
  rw [loadRom, if_neg (Nat.not_lt.mpr hfit), if_neg (not_not.mpr hdiv)]

/-- The generation with the default region covers the program region of an admitted configuration. -/
theorem generateCache_default (c : Config) (m : Memory) (ic : ICache) (h : c.admitted = true) :
    generateCache c m ic ⟨none, none⟩ = .ok (ICache.generateAll c.codec m (c.entryPoint / 8)) := by
  obtain ⟨hend, halign, hentry, -⟩ := admitted_layout c h
  have hmem : memorySize % 8 = 0 := rfl
  rcases generateCache_cases c m ic ⟨none, none⟩ c.entryPoint (memorySize - c.entryPoint) rfl rfl with
    ⟨hbad, -⟩ | ⟨-, -, -, -, ⟨-, -, hall⟩ | ⟨hnot, -⟩⟩
  · omega
  · exact hall
  · omega

/-- The state the boot leaves: the machine as created, with the ROM loaded and the cache generated. -/
def booted (c : Config) (init : Vector Word 256) (m : Memory) (rom : List Byte) : State :=
  { State.created c init (m.setBytes c.entryPoint rom) with
    icache := ICache.generateAll c.codec (m.setBytes c.entryPoint rom) (c.entryPoint / 8) }

theorem boot_eq_booted (c : Config) (init : Vector Word 256) (m : Memory) (rom : List Byte) (hadm : c.admitted = true)
    (hd : c.codec.Distinct) (hfit : c.entryPoint + rom.length ≤ memorySize) (hdiv : rom.length % 4 = 0) :
    boot c init m rom = .next (booted c init m rom) := by
  have hregen : (State.created c init (m.setBytes c.entryPoint rom)).regenerate ⟨none, none⟩ =
      booted c init m rom := by
    unfold State.regenerate
    simp only [State.created, generateCache_default c _ _ hadm]
    rfl
  simp [boot, hadm, tableFault_eq_none c.codec hd, loadRom_ok c m rom hfit hdiv, hregen]

/-- Settles O57: the state the boot leaves, field by field. -/
theorem bootLeavesTheResetValues : Obligations.BootLeavesTheResetValues := by
  intro c init m rom hadm hd hfit hdiv
  obtain ⟨hend, halign, hentry, hstack⟩ := admitted_layout c hadm
  have hsize : memorySize = 16777216 := rfl
  refine ⟨_, boot_eq_booted c init m rom hadm hd hfit hdiv, rfl, ?ip, ?sp,
    State.reg_created c init (m.setBytes c.entryPoint rom), rfl, rfl, rfl, rfl, rfl,
    Memory.byte_setBytes_inside m _ rom, Memory.byte_setBytes_outside m _ rom, fun slot hlo hhi => ?cache⟩
  case ip =>
    rw [show (booted c init m rom).ip = _ from State.ip_created c init (m.setBytes c.entryPoint rom),
      BitVec.toNat_ofNat]
    exact Nat.mod_eq_of_lt (by omega)
  case sp =>
    rw [show (booted c init m rom).sp = _ from State.sp_created c init (m.setBytes c.entryPoint rom),
      BitVec.toNat_ofNat]
    exact Nat.mod_eq_of_lt (by omega)
  case cache =>
    rw [← State.dword_eq]
    exact ICache.get_generateAll c.codec _ _ slot (by omega) hhi

/-- Settles O59: the boot lists no byte of memory, so every slot holds the decode of the blank word. -/
theorem resetIsTheBootOfAnEmptyRom : Obligations.ResetIsTheBootOfAnEmptyRom := by
  refine ⟨?_, by decide, by decide, rfl, rfl, rfl, rfl, rfl⟩
  exact boot_eq_booted Config.std resetInitRegs [] [] (by decide) (by decide) (by decide) rfl

end Sys2Proof.Machine
end

section
/-! PROOFS. Family 20_memory: the checked memory accesses at every width, a read after a write, the checks of the fetch,
and the step of a machine that runs alone. -/

namespace Sys2Proof.Machine

/-! ### The bytes and the value of an access (R78) -/

theorem Memory.bytes_succ (m : Memory) (a n : Nat) : m.bytes a (n + 1) = m.bytes a n ++ [m.byte (a + n)] := by
  simp [Memory.bytes, List.range_succ]

/-- Two memories that agree on the bytes of an access give it the same list of bytes. -/
theorem Memory.bytes_congr {m m' : Memory} {a n : Nat} (h : ∀ k, k < n → m'.byte (a + k) = m.byte (a + k)) :
    m'.bytes a n = m.bytes a n :=
  List.map_congr_left fun k hk => h k (List.mem_range.mp hk)

/-- A read is big-endian: the byte at offset `k` of `n` counts `2 ^ (8 * (n - 1 - k))`. -/
theorem Memory.beValue_bytes (m : Memory) (a n : Nat) :
    beValue (m.bytes a n) = ∑ k ∈ Finset.range n, (m.byte (a + k)).toNat * 2 ^ (8 * (n - 1 - k)) := by
  induction n with
  | zero => rfl
  | succ n ih =>
    have hlast : n + 1 - 1 - n = 0 := by omega
    have hshift : ∀ k ∈ Finset.range n, (m.byte (a + k)).toNat * 2 ^ (8 * (n - 1 - k)) * 256 =
        (m.byte (a + k)).toNat * 2 ^ (8 * (n + 1 - 1 - k)) := fun k hk => by
      have hk := Finset.mem_range.mp hk
      rw [show 8 * (n + 1 - 1 - k) = 8 * (n - 1 - k) + 8 by omega, Nat.pow_add, Nat.mul_assoc]
    rw [Memory.bytes_succ, beValue_append, ih, Finset.sum_range_succ, Finset.sum_mul, Finset.sum_congr rfl hshift,
      hlast, Nat.mul_zero, Nat.pow_zero, Nat.mul_one]

/-! ### The bytes a write leaves (R79) -/

/-- A write stores the low bytes of the value, most significant first. -/
theorem Memory.toNat_byte_setBytes_beBytes (m : Memory) (a n v k : Nat) (h : k < n) :
    ((m.setBytes a (beBytes n v)).byte (a + k)).toNat = v / 2 ^ (8 * (n - 1 - k)) % 256 := by
  have hk : k < (beBytes n v).length := by rwa [length_beBytes]
  rw [Memory.byte_setBytes_inside _ _ _ _ hk, getElem_beBytes, BitVec.toNat_ofNat]

theorem Memory.byte_setBytes_beBytes_outside (m : Memory) (a n v b : Nat) (h : b < a ∨ a + n ≤ b) :
    (m.setBytes a (beBytes n v)).byte b = m.byte b :=
  Memory.byte_setBytes_outside _ _ _ _ (by rwa [length_beBytes])

/-- The bytes of an access that lies outside a write are as before it. -/
theorem Memory.bytes_setBytes_beBytes_outside (m : Memory) (a n v b l : Nat) (h : b + l ≤ a ∨ a + n ≤ b) :
    (m.setBytes a (beBytes n v)).bytes b l = m.bytes b l :=
  Memory.bytes_congr fun k hk => m.byte_setBytes_beBytes_outside a n v (b + k) (by omega)

theorem Memory.bytes_setBytes_beBytes (m : Memory) (a n v : Nat) :
    (m.setBytes a (beBytes n v)).bytes a n = beBytes n v := by
  simpa only [length_beBytes] using m.bytes_setBytes a (beBytes n v)

/-! ### The checked accesses (R74 to R79) -/

/-- An access that fails its checks faults as a read and as a write. -/
theorem State.access_error (s : State) (a : Word) (w : Width) (v : Nat) {k : Fault}
    (h : accessFault a w.bytes = some k) : s.memRead a w = .error k ∧ s.memWrite a w v = .error k :=
  ⟨s.memRead_error a w k h, s.memWrite_error a w v k h⟩

/-- What a write that completes says: its checks passed, and only memory changed. -/
theorem State.memWrite_eq_ok {s t : State} {a : Word} {w : Width} {v : Nat} (h : s.memWrite a w v = .ok t) :
    Accessible a w.bytes ∧ t = { s with mem := s.mem.setBytes a.toNat (beBytes w.bytes v) } := by
  rcases s.memWrite_cases a w v with ⟨hacc, hok⟩ | ⟨k, -, herr⟩
  · rw [hok] at h; cases h; exact ⟨hacc, rfl⟩
  · rw [herr] at h; cases h

/-- A read depends on the bytes it reads alone. -/
theorem State.memRead_congr {s t : State} {a : Word} {w : Width}
    (h : t.mem.bytes a.toNat w.bytes = s.mem.bytes a.toNat w.bytes) : t.memRead a w = s.memRead a w := by
  unfold State.memRead; rw [h]

/-- Settles O41: the two faults in their order, then the bytes of the one read and the one write that are left. -/
theorem memoryAccessesAreBigEndian : Obligations.MemoryAccessesAreBigEndian := by
  rintro s a w v n rfl
  refine ⟨fun h => s.access_error a w v (accessFault_unaligned a _ h),
    fun h hb => s.access_error a w v (accessFault_outOfBounds a _ h hb),
    fun h hb => ⟨?read, _, s.memWrite_ok a w v ⟨h, hb⟩, rfl, ?stored, ?outside⟩⟩
  case read => rw [s.memRead_ok a w ⟨h, hb⟩, Memory.beValue_bytes]
  case stored => exact fun k hk => s.mem.toNat_byte_setBytes_beBytes a.toNat w.bytes v k hk
  case outside => exact fun b hb => s.mem.byte_setBytes_beBytes_outside a.toNat w.bytes v b hb

/-- Settles O42: the read back sees the bytes just stored, and a read beside them sees bytes the write has left. -/
theorem readAfterWriteGivesTheValue : Obligations.ReadAfterWriteGivesTheValue := by
  intro s t a w v hwrite
  obtain ⟨hacc, rfl⟩ := State.memWrite_eq_ok hwrite
  refine ⟨?_, fun b x hout => State.memRead_congr (s.mem.bytes_setBytes_beBytes_outside _ _ v _ _ hout)⟩
  rw [State.memRead_ok _ a w hacc, Memory.bytes_setBytes_beBytes, beValue_beBytes, Nat.pow_mul]

/-! ### The checks of the fetch (R90) -/

/-- The alignment and the bounds come before the check against the entry point. -/
theorem fetchFault_of_accessFault (c : Config) {a : Word} {k : Fault} (h : accessFault a 8 = some k) :
    fetchFault c a = some k := by
  unfold fetchFault
  rw [show accessFault a Width.instruction.bytes = some k from h]

theorem fetchFault_outsideCache {c : Config} {a : Word} (h : Accessible a 8) (hlow : a.toNat < c.entryPoint) :
    fetchFault c a = some (.fetchOutsideCache a) := by
  unfold fetchFault
  rw [show accessFault a Width.instruction.bytes = none from (accessFault_eq_none a 8).mpr h]
  exact if_pos hlow

/-! ### What a fetch answers (R91) -/

theorem State.fetch_of_fetchFault {s : State} {k : Fault} (h : fetchFault s.cfg s.ip = some k) :
    s.fetch = (s, .error k) := by
  unfold State.fetch; rw [h]

theorem State.fetch_of_decoded {s : State} {i : Instr} (h : Fetchable s.cfg s.ip)
    (hslot : s.icache.get (slotOf s.ip) = .decoded i) : s.fetch = (s, .ok i) := by
  unfold State.fetch; rw [(fetchFault_eq_none _ _).mpr h, hslot]

theorem State.fetch_of_undecodable {s : State} {e : DecodeError} (h : Fetchable s.cfg s.ip)
    (hslot : s.icache.get (slotOf s.ip) = .undecodable e) : s.fetch = (s, .error (decodeFault e)) := by
  unfold State.fetch; rw [(fetchFault_eq_none _ _).mpr h, hslot]

/-- The fetch of an Empty slot fills it and answers what the word at `ip` decodes to. -/
theorem State.fetch_of_empty {s : State} (h : Fetchable s.cfg s.ip) (hslot : s.icache.get (slotOf s.ip) = .empty) :
    s.fetch = (s.fillSlot, (decode s.cfg.codec (s.dwordAt s.ip.toNat)).mapError decodeFault) := by
  unfold State.fetch
  rw [(fetchFault_eq_none _ _).mpr h, hslot, State.dword_eq]
  cases decode s.cfg.codec (s.dwordAt s.ip.toNat) with
  | ok i => rfl
  | error e => rfl

theorem decodeEntry_of_ok {c : Codec} {w : DWord} {i : Instr} (h : decode c w = .ok i) :
    decodeEntry c w = .decoded i := by
  unfold decodeEntry; rw [h]

theorem decodeEntry_of_error {c : Codec} {w : DWord} {e : DecodeError} (h : decode c w = .error e) :
    decodeEntry c w = .undecodable e := by
  unfold decodeEntry; rw [h]

theorem State.fillSlot_eq {s : State} {e : CacheEntry}
    (h : decodeEntry s.cfg.codec (s.dwordAt s.ip.toNat) = e) :
    s.fillSlot = { s with icache := s.icache.put (slotOf s.ip) e } := by
  unfold State.fillSlot; rw [State.dword_eq, h]

/-! ### The step of a machine that runs alone (R350) -/

theorem step_of_runsAlone {s : State} (h : RunsAlone s) : step s = fetchExecute s := by
  obtain ⟨hhalt, hfault, hboot⟩ := h
  have hrun : s.stopped = false := s.stopped_eq_false_iff.mpr ⟨hhalt, hfault⟩
  simp [step, executeNextInstruction, s.betweenSteps_of_bootOnly hboot, hrun]

theorem step_of_fetch_ok {s t : State} {i : Instr} (h : RunsAlone s) (hf : s.fetch = (t, .ok i)) :
    step s = exec i t := by
  rw [step_of_runsAlone h, fetchExecute, hf]

theorem step_of_fetch_error {s t : State} {k : Fault} (h : RunsAlone s) (hf : s.fetch = (t, .error k)) :
    step s = .next (t.raise k) := by
  rw [step_of_runsAlone h, fetchExecute, hf]

/-- Settles O43: the step of a machine that runs alone is `exec` of what the fetch answers, at the state it leaves. -/
theorem stepRunsTheDecodedInstruction : Obligations.StepRunsTheDecodedInstruction := by
  intro s i hrun hip
  refine ⟨fun hslot => step_of_fetch_ok hrun (State.fetch_of_decoded hip hslot), fun hslot hd => ?_⟩
  have hfetch := State.fetch_of_empty hip hslot
  rw [hd, State.fillSlot_eq (decodeEntry_of_ok hd)] at hfetch
  exact step_of_fetch_ok hrun hfetch

/-- Settles O44: each failed check of the fetch, and each decode failure, is raised at the state the fetch leaves. -/
theorem fetchFaultsInOrder : Obligations.FetchFaultsInOrder := by
  intro s hrun
  have check {k : Fault} (h : fetchFault s.cfg s.ip = some k) : step s = .next (s.raise k) :=
    step_of_fetch_error hrun (State.fetch_of_fetchFault h)
  refine ⟨fun h => check (fetchFault_of_accessFault _ (accessFault_unaligned _ 8 h)),
    fun h hb => check (fetchFault_of_accessFault _ (accessFault_outOfBounds _ 8 h hb)),
    fun h hlow => check (fetchFault_outsideCache h hlow), fun hip e =>
    ⟨fun hslot => step_of_fetch_error hrun (State.fetch_of_undecodable hip hslot), fun hslot hd => ?_⟩⟩
  have hfetch := State.fetch_of_empty hip hslot
  rw [hd, State.fillSlot_eq (decodeEntry_of_error hd)] at hfetch
  exact step_of_fetch_error hrun hfetch

end Sys2Proof.Machine
end

section
/-! PROOFS. Family 30_encoding: decode and encode are inverse, the checks of the decoder and of the encoder in their
order, and the default opcode table. -/

namespace Sys2Proof

open Machine

/-! ### A word is its fields (R112, R113) -/

theorem wordByte_eq_opcodeField (w : DWord) {j : Nat} (h : j < 2) :
    wordByte w j = (opcodeField w).extractLsb' (8 - 8 * j) 8 := by
  ext i hi
  simp [wordByte, opcodeField, show 8 - 8 * j + i < 16 by omega, show 48 + (8 - 8 * j + i) = 56 - 8 * j + i by omega]

theorem wordByte_eq_regField (w : DWord) (k : Nat) : wordByte w (2 + k) = regField w k := by
  rw [wordByte, regField, show 56 - 8 * (2 + k) = 40 - 8 * k by omega]

theorem wordByte_eq_extraField (w : DWord) {j : Nat} (h : 4 ≤ j) :
    wordByte w j = (extraField w).extractLsb' (56 - 8 * j) 8 := by
  ext i hi
  simp [wordByte, extraField, show 56 - 8 * j + i < 32 by omega]

theorem DWord.ext_wordByte {v w : DWord} (h : ∀ j, j < 8 → wordByte v j = wordByte w j) : v = w := by
  refine DWord.ext fun i hi => ?_
  have hbit : ∀ u : DWord, u.getLsbD i = (wordByte u (7 - i / 8)).getLsbD (i % 8) := fun u => by
    rw [wordByte, BitVec.getLsbD_extractLsb', show 56 - 8 * (7 - i / 8) + i % 8 = i by omega]
    simp [Nat.mod_lt i (show 0 < 8 by decide)]
  rw [hbit v, hbit w, h _ (by omega)]

/-- The fields and the padding bytes of a definition's format make up the whole word. -/
theorem DWord.ext_format {v w : DWord} (op : Opcode) (hcode : opcodeField v = opcodeField w)
    (hregs : ∀ k, k < op.roles.length → regField v k = regField w k)
    (hextra : op.extraKind.isSome = true → extraField v = extraField w)
    (hpad : ∀ j, PaddingByte op j → wordByte v j = wordByte w j) : v = w := by
  refine DWord.ext_wordByte fun j hj => ?_
  by_cases hcodeByte : j < 2
  · rw [wordByte_eq_opcodeField v hcodeByte, wordByte_eq_opcodeField w hcodeByte, hcode]
  obtain ⟨k, rfl⟩ := Nat.exists_eq_add_of_le (Nat.le_of_not_lt hcodeByte)
  by_cases hreg : k < op.roles.length
  · rw [wordByte_eq_regField, wordByte_eq_regField, hregs k hreg]
  by_cases hx : op.extraKind.isSome = true ∧ 4 ≤ 2 + k
  · rw [wordByte_eq_extraField v hx.2, wordByte_eq_extraField w hx.2, hextra hx.1]
  · refine hpad _ ⟨by omega, ?_⟩
    split
    · next hkind => have hlow := not_and.mp hx hkind; omega
    · omega

/-! ### The fields of an encoded instruction (R124, R126) -/

section
variable (c : Codec) (i : Instr)

theorem Instr.length_regs : i.regs.length = i.opcode.roles.length := i.shape.1

theorem Instr.isSome_extra : i.extra.isSome = i.opcode.extraKind.isSome := i.shape.2.1

theorem Instr.length_regs_le : i.regs.length ≤ 6 := by
  have := i.opcode.format_le.1
  rw [i.length_regs]; omega

theorem Instr.length_regs_le_of_extra (h : i.extra.isSome = true) : i.regs.length ≤ 2 := by
  rw [i.length_regs]
  exact i.opcode.format_le.2 (i.isSome_extra ▸ h)

theorem opcodeField_encode : opcodeField (encode c i) = c.code i.opcode :=
  opcodeField_encodeFields _ _ _ i.length_regs_le

theorem regField_encode {k : Nat} (h : k < i.regs.length) : regField (encode c i) k = i.regs[k] :=
  regField_encodeFields _ _ _ k i.length_regs_le h i.length_regs_le_of_extra

theorem extraField_encode {x : Word} (h : i.extra = some x) : extraField (encode c i) = x := by
  rw [encode, h]
  exact extraField_encodeFields _ _ x (i.length_regs_le_of_extra (by rw [h]; rfl))

theorem wordByte_encode_of_padding {j : Nat} (h : PaddingByte i.opcode j) : wordByte (encode c i) j = 0 := by
  obtain ⟨hlow, hhigh⟩ := h
  rw [← i.length_regs] at hlow
  rw [← i.isSome_extra] at hhigh
  exact wordByte_encodeFields _ _ _ j i.length_regs_le hlow hhigh

/-- The fields of an encoding are the operands it was made of. -/
theorem assemble_encode : i.opcode.assemble (regField (encode c i)) (extraField (encode c i)) = i := by
  conv_rhs => rw [← i.shape.2.2]
  refine i.opcode.assemble_congr _ _ _ _ (fun k hk => ?_) fun hx => ?_
  · rw [← i.length_regs] at hk
    rw [regField_encode c i hk, List.getElem?_eq_getElem hk, Option.getD_some]
  · obtain ⟨x, hx⟩ := Option.isSome_iff_exists.mp (i.isSome_extra.trans hx)
    rw [extraField_encode c i hx, hx, Option.getD_some]

end

/-! ### The checks of the decoder (R118, R119, R120) -/

section
variable {c : Codec} {op : Opcode} {w : DWord}

theorem Codec.reservedOperand_eq_none :
    c.reservedOperand op w = none ↔
      c.reserved = .direct ∨ ∀ k, k < op.roles.length → (regField w k).toNat < 253 := by
  cases hp : c.reserved with
  | direct => simp [Codec.reservedOperand, hp]
  | fault => simp [Codec.reservedOperand, hp, firstReserved_eq_none, reserved_eq_false]

theorem Codec.reservedOperand_eq_some {k : Nat} {role : Role} (hp : c.reserved = .fault)
    (hrole : op.roles[k]? = some role) (hk : 253 ≤ (regField w k).toNat)
    (hbefore : ∀ j, j < k → (regField w j).toNat < 253) :
    c.reservedOperand op w = some (role, regField w k) := by
  have hfirst := firstReserved_eq_some (regField w) 0 op.roles k role hrole
  simp only [Nat.zero_add, reserved_eq_true, reserved_eq_false] at hfirst
  simp [Codec.reservedOperand, hp, hfirst hk hbefore]

theorem Codec.paddingFails_eq_true :
    c.paddingFails op w = true ↔ c.padding = .fault ∧ ∃ j, PaddingByte op j ∧ wordByte w j ≠ 0 := by
  cases hp : c.padding with
  | ignore => simp [Codec.paddingFails, hp]
  | fault => simp [Codec.paddingFails, hp, mem_paddingBytes, PaddingByte]

theorem Codec.paddingFails_eq_false :
    c.paddingFails op w = false ↔ c.padding = .ignore ∨ ∀ j, PaddingByte op j → wordByte w j = 0 := by
  rw [← Bool.not_eq_true, Codec.paddingFails_eq_true]
  cases c.padding <;> simp

theorem decode_of_unknown (h : ∀ op, c.code op ≠ opcodeField w) :
    decode c w = .error (.unknownOpcode (opcodeField w)) := by
  rw [decode, (c.byCode_eq_none _).mpr h]

theorem decode_of_reserved {role : Role} {value : Reg} (hop : c.byCode (opcodeField w) = some op)
    (hr : c.reservedOperand op w = some (role, value)) :
    decode c w = .error (.reservedRegisterOperand role value) := by
  simp only [decode, hop, hr]

theorem decode_of_padding (hop : c.byCode (opcodeField w) = some op) (hr : c.reservedOperand op w = none)
    (hp : c.paddingFails op w = true) : decode c w = .error (.paddingNotZero w) := by
  simp only [decode, hop, hr, hp, if_true]

theorem decode_of_checked (hop : c.byCode (opcodeField w) = some op) (hr : c.reservedOperand op w = none)
    (hp : c.paddingFails op w = false) : decode c w = .ok (op.assemble (regField w) (extraField w)) := by
  simp only [decode, hop, hr, hp, Bool.false_eq_true, if_false]

/-- What a word that decodes says: it has the code of the instruction's definition, and its fields are the operands. -/
theorem eq_assemble_of_decode {i : Instr} (h : decode c w = .ok i) :
    ∃ op, c.code op = opcodeField w ∧ i = op.assemble (regField w) (extraField w) := by
  rcases decode_cases c w with ⟨-, hd⟩ | ⟨op, -, hcode, ⟨_, _, -, hd⟩ | ⟨-, ⟨-, hd⟩ | ⟨-, hd⟩⟩⟩ <;> rw [hd] at h
  case inr.inr.inr => exact ⟨op, hcode, (Except.ok.inj h).symm⟩
  all_goals cases h

end

/-! ### Decode and encode are inverse (R127) -/

/-- Decoding inverts encoding: the encoding of a well-formed instruction passes every check. -/
theorem decode_encode {c : Codec} {i : Instr} (hd : c.Distinct) (hwf : i.wf c = true) :
    decode c (encode c i) = .ok i := by
  have hop : c.byCode (opcodeField (encode c i)) = some i.opcode := by
    rw [opcodeField_encode, c.byCode_code hd]
  have hreserved : c.reservedOperand i.opcode (encode c i) = none := by
    rw [Codec.reservedOperand_eq_none]
    cases hp : c.reserved with
    | direct => exact .inl rfl
    | fault =>
      refine .inr fun k hk => ?_
      rw [← i.length_regs] at hk
      rw [regField_encode c i hk]
      refine Nat.lt_of_not_le fun hbig => ?_
      exact not_mem_regs_of_reserved hp hwf _ ((reserved_eq_true _).mpr hbig) (List.getElem_mem hk)
  have hpadding : c.paddingFails i.opcode (encode c i) = false :=
    Codec.paddingFails_eq_false.mpr (.inr fun _ => wordByte_encode_of_padding c i)
  rw [decode_of_checked hop hreserved hpadding, assemble_encode]

/-- Encoding inverts decoding up to the padding: every other bit of the word is in a field that decoding keeps. -/
theorem encode_of_decode {c : Codec} {w : DWord} {i : Instr} (hd : decode c w = .ok i)
    (hpad : ∀ j, PaddingByte i.opcode j → wordByte w j = 0) : encode c i = w := by
  obtain ⟨op, hcode, hi⟩ := eq_assemble_of_decode hd
  have hop : i.opcode = op := by rw [hi, Opcode.opcode_assemble]
  have hregs : i.regs = (List.range op.roles.length).map (regField w) := by rw [hi, Opcode.regs_assemble]
  refine DWord.ext_format op ?code (fun k hk => ?reg) (fun hx => ?extra) fun j hj => ?padding
  case code => rw [opcodeField_encode, hop, hcode]
  case reg =>
    have hk' : k < i.regs.length := by rwa [i.length_regs, hop]
    rw [regField_encode c i hk']
    simp [hregs]
  case extra => exact extraField_encode c i (by rw [hi, Opcode.extra_assemble, if_pos hx])
  case padding =>
    rw [← hop] at hj
    rw [wordByte_encode_of_padding c i hj, hpad j hj]

/-- Settles O34: each direction is one of the two inverses, and an encoding has no padding but zeros. -/
theorem decodeAndEncodeAgree : Obligations.DecodeAndEncodeAgree := by
  refine ⟨fun c i hd hwf => decode_encode hd hwf, fun c w i hd => ⟨?_, encode_of_decode hd⟩⟩
  rintro rfl j hj
  exact wordByte_encode_of_padding c i hj

/-! ### The order of the checks (R120, R133, R135) -/

/-- Settles O35: each clause is the outcome of `decode` whose checks its hypotheses pass or fail. -/
theorem decodeChecksInOrder : Obligations.DecodeChecksInOrder := by
  rintro c w _ rfl
  refine ⟨decode_of_unknown, fun op hd hcode => ?_⟩
  have hop : c.byCode (opcodeField w) = some op := by
    rw [show opcodeField w = c.code op from hcode.symm, c.byCode_code hd]
  refine ⟨fun k role hrole hp hk hbefore => decode_of_reserved hop (Codec.reservedOperand_eq_some hp hrole hk hbefore),
    fun hregs => ?_⟩
  have hr : c.reservedOperand op w = none := Codec.reservedOperand_eq_none.mpr hregs
  refine ⟨fun hp hpad => decode_of_padding hop hr (Codec.paddingFails_eq_true.mpr ⟨hp, hpad⟩), fun hpad => ?_⟩
  exact ⟨_, decode_of_checked hop hr (Codec.paddingFails_eq_false.mpr hpad), Opcode.opcode_assemble ..,
    Opcode.regs_assemble .., Opcode.extra_assemble ..⟩

/-! ### The encoder's call (R124, R125) -/

/-- Operands of the number and kind that a definition declares are those of an instruction. -/
theorem Opcode.exists_instr (op : Opcode) (regs : List Reg) (extra : Option Word)
    (hlen : regs.length = op.roles.length) (hextra : op.extraKind.isSome = extra.isSome) :
    ∃ i : Instr, i.opcode = op ∧ i.regs = regs ∧ i.extra = extra := by
  refine ⟨op.assemble (fun k => regs[k]?.getD 0) (extra.getD 0), op.opcode_assemble _ _, ?_, ?_⟩
  · rw [Opcode.regs_assemble, ← hlen]
    exact List.ext_getElem (by simp) fun k _ hk => by simp [hk]
  · rw [Opcode.extra_assemble, hextra]
    cases extra <;> rfl

section
variable {c : Codec} {op : Opcode} {regs : List Nat} {extra : Option Nat}

theorem encodeCall_of_length_ne (h : regs.length ≠ op.roles.length) :
    encodeCall c op regs extra = .error (.operandArityMismatch op) := if_pos h

theorem encodeCall_of_missing (hlen : regs.length = op.roles.length) (hk : op.extraKind.isSome = true) :
    encodeCall c op regs none = .error (.missingOperand op) := by
  simp [encodeCall, hlen, hk]

theorem encodeCall_of_unexpected (hlen : regs.length = op.roles.length) (hk : op.extraKind = none)
    (hx : extra.isSome = true) : encodeCall c op regs extra = .error (.unexpectedOperand op) := by
  simp [encodeCall, hlen, hk, hx]

/-- The first register value above 255 is reported, in a call with the operands its definition declares. -/
theorem encodeCall_of_register {r : Nat} (hlen : regs.length = op.roles.length)
    (hx : op.extraKind.isSome = extra.isSome) (hr : regs.find? (fun r => decide (255 < r)) = some r) :
    encodeCall c op regs extra = .error (.registerOutOfRange r) := by
  simp [encodeCall, hlen, hx, ← Option.not_isSome, hr]

theorem encodeCall_of_extra {x : Nat} (hlen : regs.length = op.roles.length) (hk : op.extraKind.isSome = true)
    (hr : ∀ r ∈ regs, r ≤ 255) (hx : 2 ^ 32 - 1 < x) :
    encodeCall c op regs (some x) = .error (.operandArityMismatch op) := by
  have hfind : regs.find? (fun r => decide (255 < r)) = none := by simpa using hr
  have hany : (some x).any (fun x => decide (2 ^ 32 - 1 < x)) = true := by simpa using hx
  simp only [encodeCall, hfind, hany]
  simp [hlen, hk, ← Option.not_isSome]

/-- A call that passes every check gives the word of the instruction with its operands. -/
theorem encodeCall_of_operands (i : Instr) :
    encodeCall c i.opcode (i.regs.map BitVec.toNat) (i.extra.map BitVec.toNat) = .ok (encode c i) := by
  have hfind : (i.regs.map BitVec.toNat).find? (fun r => decide (255 < r)) = none := by
    simp only [List.find?_eq_none, List.mem_map]
    rintro _ ⟨r, -, rfl⟩
    simpa using Nat.le_of_lt_succ r.isLt
  have hany : (i.extra.map BitVec.toNat).any (fun x => decide (2 ^ 32 - 1 < x)) = false := by
    cases i.extra with
    | none => rfl
    | some x => simpa using Nat.le_of_lt_succ x.isLt
  have hregs : (i.regs.map BitVec.toNat).map (BitVec.ofNat 8) = i.regs := by simp [Function.comp_def]
  have hextra : (i.extra.map BitVec.toNat).map (BitVec.ofNat 32) = i.extra := by simp [Function.comp_def]
  simp only [encodeCall, hfind, hany, hregs, hextra]
  simp [encode, i.length_regs, ← i.isSome_extra, ← Option.not_isSome]

end

/-- Register values of one byte and an extra word of 32 bits are the operands of an instruction of the definition. -/
theorem Opcode.exists_instr_of_values (op : Opcode) (regs : List Nat) (extra : Option Nat)
    (hlen : regs.length = op.roles.length) (hextra : op.extraKind.isSome = extra.isSome)
    (hregs : ∀ r ∈ regs, r ≤ 255) (hx : ∀ x, extra = some x → x ≤ 2 ^ 32 - 1) :
    ∃ i : Instr, i.opcode = op ∧ i.regs.map BitVec.toNat = regs ∧ i.extra.map BitVec.toNat = extra := by
  obtain ⟨i, hop, hr, he⟩ := op.exists_instr (regs.map (BitVec.ofNat 8)) (extra.map (BitVec.ofNat 32))
    (by rw [List.length_map, hlen]) (by rw [Option.isSome_map, hextra])
  refine ⟨i, hop, ?_, ?_⟩
  · rw [hr, List.map_map]
    refine (List.map_congr_left fun r hmem => ?_).trans (List.map_id regs)
    exact Nat.mod_eq_of_lt (Nat.lt_succ_of_le (hregs r hmem))
  · rw [he]
    cases extra with
    | none => rfl
    | some x => exact congrArg some (Nat.mod_eq_of_lt (Nat.lt_succ_of_le (hx x rfl)))

/-- Settles O36: a call fails at the first of its checks, or its values are the operands of an instruction. -/
theorem encoderChecksItsCall : Obligations.EncoderChecksItsCall := by
  intro c op regs extra
  refine ⟨encodeCall_of_length_ne, fun hlen => ⟨fun hk hx => hx ▸ encodeCall_of_missing hlen hk,
    encodeCall_of_unexpected hlen, fun hx => ⟨fun k r hr hbig hbefore => ?register, fun hregs => ⟨?extra, ?ok⟩⟩⟩⟩
  case register =>
    refine encodeCall_of_register hlen hx (List.find?_eq_some_iff_getElem.mpr ⟨by simpa using hbig, k, ?_⟩)
    obtain ⟨hk, hget⟩ := List.getElem?_eq_some_iff.mp hr
    refine ⟨hk, hget, fun j hj => ?_⟩
    simpa using hbefore j _ hj (List.getElem?_eq_getElem (hj.trans hk))
  case extra =>
    rintro x rfl hbig
    exact encodeCall_of_extra hlen hx hregs hbig
  case ok =>
    intro hfit
    obtain ⟨i, rfl, rfl, rfl⟩ := op.exists_instr_of_values regs extra hlen hx hregs hfit
    exact ⟨i, rfl, rfl, rfl, encodeCall_of_operands i⟩

/-! ### The worked encodings and the default table (R139, R143) -/

theorem Codec.std_distinct : Codec.std.Distinct := by decide

/-- Settles O37, by evaluating the decoder at each of the nine words. -/
theorem workedEncodingsDecode : Obligations.WorkedEncodingsDecode := by
  refine ⟨?_, ?_, ?_, ?_, ?_, ?_, ?_, ?_, ?_⟩ <;> decide

/-- Settles O38: distinct codes and the bit budget of every definition are all that the validation asks for. -/
theorem defaultTableIsValid : Obligations.DefaultTableIsValid :=
  ⟨tableFault_eq_none _ Codec.std_distinct, Codec.std_distinct, bitBudget_le, rfl, rfl, rfl, rfl⟩

end Sys2Proof
end

section
/-! PROOFS. Family 40_move: the register moves, and the loads and stores of each width by address and by pointer. -/

namespace Sys2Proof.Machine

/-! ### The outcomes of an access (R74 to R76) -/

section
variable {i : Instr} {s : State} {a : Word} {n : Nat} {ok : Prop}

/-- An instruction whose one failure is that of its access answers every address. -/
theorem accessOutcome_of_accessFault (hok : Accessible a n → ok)
    (hfault : ∀ k, accessFault a n = some k → Faults i s k) : AccessOutcome i s a n ok :=
  ⟨hok, fun h => hfault _ (accessFault_unaligned a n h), fun h hb => hfault _ (accessFault_outOfBounds a n h hb)⟩

/-- Every address is aligned for an access of one byte. -/
theorem AccessOutcome.byte (h : AccessOutcome i s a 1 ok) : ByteOutcome i s a ok := by
  obtain ⟨hok, -, hbounds⟩ := h
  exact ⟨fun hin => hok ⟨Nat.mod_one _, hin⟩, fun hout => hbounds (Nat.mod_one _) (Nat.lt_succ_of_le hout)⟩

/-! ### Register moves, loads and stores (R150) -/

/-- What a register move answers in every state. -/
theorem runs_writeValue {r : Reg} {v : Word} (hexec : exec i s = writeValue i.opcode r v s)
    (hinc : i.opcode.increment = true) : Runs i s { writes := [(r, v)] } := by
  rw [runs_iff, hexec]
  exact writeValue_completes _ r v s hinc

/-- What a load answers at every address, with the value it writes left open. -/
theorem accessOutcome_load {w : Width} {r : Reg} {v : Word} (hexec : exec i s = load i.opcode w r a s)
    (hinc : i.opcode.increment = true) (hv : BitVec.ofNat 32 (beValue (s.mem.bytes a.toNat w.bytes)) = v) :
    AccessOutcome i s a w.bytes (Runs i s { writes := [(r, v)] }) := by
  refine accessOutcome_of_accessFault (fun ha => ?_) fun k hk => hexec.trans (load_error _ w r a s k hk)
  rw [runs_iff, hexec, ← hv]
  exact load_completes _ w r a s hinc ha

/-- What a store answers at every address. -/
theorem accessOutcome_store {w : Width} {v : Word} (hexec : exec i s = store i.opcode w a v s)
    (hinc : i.opcode.increment = true) :
    AccessOutcome i s a w.bytes (∃ t, RunsTo i s {} t ∧ Stored s t a.toNat w.bytes v ∧ SameRest s t) := by
  refine accessOutcome_of_accessFault (fun ha => ?_) fun k hk => hexec.trans (store_error _ w a v s k hk)
  simp only [runsTo_iff, hexec]
  exact store_completes _ w a v s hinc ha

end

/-! ### The family (R151 to R164) -/

/-- Settles O1: both moves are one value write. -/
theorem registerMovesWriteTheirSource : Obligations.RegisterMovesWriteTheirSource := by
  intro s register target source immediate
  refine ⟨?immediateRow, ?immediate, ?registerRow, ?register⟩
  case immediate | register => exact runs_writeValue rfl rfl
  case immediateRow | registerRow => exact ⟨rfl, rfl, rfl, rfl, rfl, rfl⟩

/-- Settles O2: both forms are a load of a word. -/
theorem wordLoadsReadBigEndian : Obligations.WordLoadsReadBigEndian := by
  intro s register target pointer address
  refine ⟨?addressRow, ?address, ?pointerRow, ?pointer⟩
  case address | pointer => exact accessOutcome_load (w := .word) rfl rfl (s.load_word _)
  case addressRow | pointerRow => exact ⟨rfl, rfl, rfl, rfl, rfl, rfl⟩

/-- Settles O3: the four forms are loads of a byte or a halfword, and a byte is never misaligned. -/
theorem narrowLoadsZeroExtend : Obligations.NarrowLoadsZeroExtend := by
  intro s register target pointer address
  refine ⟨?byteAddressRow, ?byteAddress, ?bytePointerRow, ?bytePointer, ?halfAddressRow, ?halfAddress,
    ?halfPointerRow, ?halfPointer⟩
  case byteAddress | bytePointer => exact (accessOutcome_load (w := .byte) rfl rfl (s.load_byte _)).byte
  case halfAddress | halfPointer => exact accessOutcome_load (w := .half) rfl rfl (s.load_half _)
  all_goals exact ⟨rfl, rfl, rfl, rfl, rfl, rfl⟩

/-- Settles O4: both forms are a store of a word. -/
theorem wordStoresWriteBigEndian : Obligations.WordStoresWriteBigEndian := by
  intro s register pointer source address
  refine ⟨?addressRow, ?address, ?pointerRow, ?pointer⟩
  case address | pointer => exact accessOutcome_store (w := .word) rfl rfl
  case addressRow | pointerRow => exact ⟨rfl, rfl, rfl, rfl, rfl, rfl⟩

/-- Settles O5: the four forms are stores of a byte or a halfword, and a byte is never misaligned. -/
theorem narrowStoresWriteLowBytes : Obligations.NarrowStoresWriteLowBytes := by
  intro s register pointer source address
  refine ⟨?byteAddressRow, ?byteAddress, ?bytePointerRow, ?bytePointer, ?halfAddressRow, ?halfAddress,
    ?halfPointerRow, ?halfPointer⟩
  case byteAddress | bytePointer => exact (accessOutcome_store (w := .byte) rfl rfl).byte
  case halfAddress | halfPointer => exact accessOutcome_store (w := .half) rfl rfl
  all_goals exact ⟨rfl, rfl, rfl, rfl, rfl, rfl⟩

end Sys2Proof.Machine
end

section
/-! PROOFS. Family 41_arithmetic: addition and subtraction with their carries and borrows, the exact product, and the
division with its flag for a zero divisor. -/

namespace Sys2Proof.Machine

/-! ### A result with Zero and Carry (R170) -/

/-- What an instruction that writes one result with Zero and Carry answers, with that result in the words of a
statement. -/
theorem runs_writeZC {i : Instr} {s : State} {r : Reg} {x : ZC} {v : Word} {z c : Bool}
    (hexec : exec i s = writeZC i.opcode r x s) (hinc : i.opcode.increment = true) (hx : x = ⟨v, z, c⟩) :
    Runs i s { writes := [(r, v)], zero := some z, carry := some c } := by
  subst hx
  rw [runs_iff, hexec]
  exact writeZC_completes _ r _ s hinc

/-- Settles O6: both forms write `addZC` without a carry in. -/
theorem addSetsZeroAndCarry : Obligations.AddSetsZeroAndCarry := by
  intro s target lhs rhs source immediate
  refine ⟨?registerRow, ?register, ?immediateRow, ?immediate⟩
  case register | immediate => exact runs_writeZC rfl rfl (addZC_false _ _)
  case registerRow | immediateRow => exact ⟨rfl, rfl, rfl, rfl, rfl, rfl⟩

/-- Settles O7: the carry in is bit 1 of FLAGS as the instruction finds it. -/
theorem addWithCarryFeedsTheCarryIn : Obligations.AddWithCarryFeedsTheCarryIn := by
  rintro s target lhs rhs _ rfl
  refine ⟨⟨rfl, rfl, rfl, rfl, rfl, rfl⟩, runs_writeZC rfl rfl ?_⟩
  rw [s.getFlag_eq]
  exact addZC_eq _ _ _

/-- Settles O8: both forms write `subZC` without a borrow in. -/
theorem subtractSetsZeroAndBorrow : Obligations.SubtractSetsZeroAndBorrow := by
  intro s target lhs rhs source immediate
  refine ⟨?registerRow, ?register, ?immediateRow, ?immediate⟩
  case register | immediate => exact runs_writeZC rfl rfl (subZC_false _ _)
  case registerRow | immediateRow => exact ⟨rfl, rfl, rfl, rfl, rfl, rfl⟩

/-- Settles O9: the borrow in is bit 1 of FLAGS as the instruction finds it. -/
theorem subtractWithCarryFeedsTheBorrowIn : Obligations.SubtractWithCarryFeedsTheBorrowIn := by
  rintro s target lhs rhs _ rfl
  refine ⟨⟨rfl, rfl, rfl, rfl, rfl, rfl⟩, runs_writeZC rfl rfl ?_⟩
  rw [s.getFlag_eq]
  exact subZC_eq _ _ _

/-! ### Two results, Zero and one more flag (R177, R178) -/

/-- What an instruction answers that writes two registers in order and then sets Zero and a second flag. -/
theorem runs_setPair_setFlags {i : Instr} {s : State} {a b : Reg} {v w : Word} {f : Flag} {z d : Bool} {e : Effect}
    (hexec : exec i s = finish i.opcode s (.normal (((s.setPair a b v w).setFlag .zero z).setFlag f d)))
    (hinc : i.opcode.increment = true) (hwrites : e.writes = [(a, v), (b, w)]) (hadvance : e.advance = 8)
    (hflags : ∀ x, FlagsAfter x (f.put d (Flag.zero.put z x)) e) : Runs i s e := by
  rw [runs_iff, hexec]
  refine completes_finish _ s _ e (by simp [hinc, hadvance]) (fun q hq => by simp [hwrites, hq]) ?_ rfl
    ⟨rfl, rfl, rfl, rfl⟩ rfl ⟨rfl, rfl, rfl, rfl⟩
  simpa [hwrites] using hflags (written s e.writes flagsReg)

/-- A word differs from 0 when its value is positive: the Carry of the product. -/
theorem decide_ne_zero_eq (v : Word) : decide (v ≠ 0) = decide (0 < v.toNat) := by
  rw [decide_eq_decide, Nat.pos_iff_ne_zero, ne_eq, ne_eq, ← BitVec.toNat_inj]
  rfl

/-- Settles O10: the two words are the halves of the 64-bit product, which holds the exact product. -/
theorem multiplyIsExact : Obligations.MultiplyIsExact := by
  rintro s high low lhs rhs p rfl
  have hexact := product_eq (s.reg lhs) (s.reg rhs)
  refine ⟨⟨rfl, rfl, rfl, rfl, rfl, rfl⟩, hexact, ?_⟩
  rw [← hi32_toNat, ← lo32_toNat, hexact, ← decide_ne_zero_eq]
  exact runs_setPair_setFlags rfl rfl rfl rfl fun x => .zeroCarry x _ _ _ _

/-- The quotient and the remainder of a division are written, with Zero from the quotient and DivideByZero from the
divisor. -/
theorem runs_divmod {s : State} {result remainder lhs rhs : Reg} {q r : Word} {d : Bool}
    (hqr : divmod (s.reg lhs) (s.reg rhs) = (q, r)) (hd : decide (s.reg rhs = 0) = d) :
    Runs (.divmodTargetModLhsRhs result remainder lhs rhs) s
      { writes := [(result, q), (remainder, r)], zero := some (decide (q = 0)), divideByZero := some d } := by
  have hexec : exec (.divmodTargetModLhsRhs result remainder lhs rhs) s = finish .divmodTargetModLhsRhs s (.normal
      (((s.setPair result remainder q r).setFlag .zero (decide (q = 0))).setFlag .divideByZero d)) := by
    simp only [exec, execDivmodTargetModLhsRhs, hqr, hd]
  exact runs_setPair_setFlags hexec rfl rfl rfl fun x => .zeroDivide x _ _ _ _

/-- Settles O11: a zero divisor has its own branch, and any other divisor fixes the quotient and the remainder. -/
theorem divmodFlagsAZeroDivisor : Obligations.DivmodFlagsAZeroDivisor := by
  intro s result remainder lhs rhs
  refine ⟨⟨rfl, rfl, rfl, rfl, rfl, rfl⟩, fun hzero => ?zero, fun hne q r hdiv hlt => ?nonzero⟩
  case zero => exact runs_divmod (if_pos hzero) (decide_eq_true hzero)
  case nonzero => exact runs_divmod (divmod_eq _ _ q r hdiv hlt) (decide_eq_false hne)

end Sys2Proof.Machine
end

section
/-! PROOFS. Family 42_logic_compare: the bitwise instructions, the logical shifts with their shifted-out bits, the
three-way compare and the boolean compares. -/

namespace Sys2Proof.Machine

section
variable {i : Instr} {s : State} {r : Reg}

/-! ### A result with Zero (R190) -/

/-- What an instruction that writes one result with Zero answers, with that result in the words of a statement. -/
theorem runs_writeZ {x v : Word} {y z : Bool} (hexec : exec i s = writeZ i.opcode r x y s)
    (hinc : i.opcode.increment = true) (hx : x = v) (hy : y = z) :
    Runs i s { writes := [(r, v)], zero := some z } := by
  subst hx hy
  rw [runs_iff, hexec]
  exact writeZ_completes _ r _ _ s hinc

/-- A bitwise instruction answers with the one word that has the bits of its result. -/
theorem runs_writeZ_of_bits {x v : Word} (hexec : exec i s = writeZ i.opcode r x (decide (x = 0)) s)
    (hinc : i.opcode.increment = true) (hbits : ∀ k, k < 32 → v.getLsbD k = x.getLsbD k) :
    Runs i s { writes := [(r, v)], zero := some (decide (v = 0)) } := by
  obtain rfl : v = x := BitVec.eq_of_getLsbD_eq hbits
  exact runs_writeZ hexec hinc rfl rfl

/-- A shift answers with the one word that has the bits of its result. -/
theorem runs_writeZC_of_bits {x : ZC} {y v : Word} {c : Bool} (hexec : exec i s = writeZC i.opcode r x s)
    (hinc : i.opcode.increment = true) (hx : x = ⟨y, decide (y = 0), c⟩)
    (hbits : ∀ k, k < 32 → v.getLsbD k = y.getLsbD k) :
    Runs i s { writes := [(r, v)], zero := some (decide (v = 0)), carry := some c } := by
  obtain rfl : v = y := BitVec.eq_of_getLsbD_eq hbits
  exact runs_writeZC hexec hinc hx

end

/-! ### The bitwise instructions (R191 to R194) -/

/-- Settles O12: the result of each of the four is fixed by its bits. -/
theorem bitwiseSetsZeroOnly : Obligations.BitwiseSetsZeroOnly := by
  intro s target lhs rhs source v
  refine ⟨?andRow, fun hv => ?and, ?orRow, fun hv => ?or, ?xorRow, fun hv => ?xor, ?notRow, fun hv => ?not⟩
  case and => exact runs_writeZ_of_bits rfl rfl fun k _ => (hv k).trans BitVec.getLsbD_and.symm
  case or => exact runs_writeZ_of_bits rfl rfl fun k _ => (hv k).trans BitVec.getLsbD_or.symm
  case xor => exact runs_writeZ_of_bits rfl rfl fun k _ => (hv k).trans BitVec.getLsbD_xor.symm
  case not =>
    refine runs_writeZ_of_bits rfl rfl fun k hk => ?_
    rw [hv k hk, BitVec.getLsbD_not, decide_eq_true hk, Bool.true_and]
  all_goals exact ⟨rfl, rfl, rfl, rfl, rfl, rfl⟩

/-! ### The shifts (R196, R197) -/

/-- Settles O13: `shiftLeftZC_eq` and `shiftRightZC_eq` give the value and the flags at every amount. -/
theorem shiftsCarryShiftedOutBits : Obligations.ShiftsCarryShiftedOutBits := by
  rintro s target lhs rhs _ v _ rfl rfl
  refine ⟨?leftRow, fun hv => ?left, ?rightRow, fun hv => ?right⟩
  case left =>
    refine runs_writeZC_of_bits rfl rfl (shiftLeftZC_eq _ _) fun k _ => (hv k).trans ?_
    rw [BitVec.getLsbD_shiftLeft, ← decide_not, decide_eq_decide.mpr Nat.not_lt]
  case right =>
    refine runs_writeZC_of_bits rfl rfl (shiftRightZC_eq _ _) fun k _ => (hv k).trans ?_
    rw [BitVec.getLsbD_ushiftRight, Nat.add_comm]
  all_goals exact ⟨rfl, rfl, rfl, rfl, rfl, rfl⟩

/-! ### The three-way compare (R198) -/

section
variable {a b : Word}

theorem triState_of_lt (h : a.toNat < b.toNat) : triState a b = 0xFFFFFFFF := if_pos h

theorem triState_of_eq (h : a = b) : triState a b = 0 := by simp [triState, h]

theorem triState_of_gt (h : b.toNat < a.toNat) : triState a b = 1 := by
  have hne : a ≠ b := by rintro rfl; exact Nat.lt_irrefl _ h
  rw [triState, if_neg (Nat.lt_asymm h), if_neg hne]

end

/-- Settles O14: each order of the operands has its own value, and Zero is their equality. -/
theorem compareIsTriState : Obligations.CompareIsTriState := by
  intro s target lhs rhs
  refine ⟨?row, fun hlt => ?below, fun heq => ?equal, fun hgt => ?above⟩
  case row => exact ⟨rfl, rfl, rfl, rfl, rfl, rfl⟩
  case below =>
    exact runs_writeZ rfl rfl (triState_of_lt hlt) (decide_eq_false fun heq => hlt.ne (congrArg _ heq))
  case equal => exact runs_writeZ rfl rfl (triState_of_eq heq) (decide_eq_true heq)
  case above =>
    exact runs_writeZ rfl rfl (triState_of_gt hgt) (decide_eq_false fun heq => hgt.ne' (congrArg _ heq))

/-! ### The boolean compares (R199 to R205) -/

/-- What a boolean compare answers, with its relation in the words of a statement. -/
theorem runs_boolWord {i : Instr} {s : State} {r : Reg} {p q : Prop} [Decidable p] [Decidable q]
    (hexec : exec i s = writeValue i.opcode r (boolWord (decide p)) s) (hinc : i.opcode.increment = true)
    (hpq : p ↔ q) : Runs i s { writes := [(r, if q then 1 else 0)] } := by
  have hvalue : boolWord (decide p) = if q then 1 else 0 := by simp [boolWord, hpq]
  exact hvalue ▸ runs_writeValue hexec hinc

/-- Settles O15: the six store their relation as a word, and two words are equal when their values are. -/
theorem boolComparesStoreZeroOrOne : Obligations.BoolComparesStoreZeroOrOne := by
  rintro s target lhs rhs _ _ rfl rfl
  have heq : s.reg lhs = s.reg rhs ↔ (s.reg lhs).toNat = (s.reg rhs).toNat := BitVec.toNat_inj.symm
  refine ⟨?equalsRow, ?equals, ?notEqualsRow, ?notEquals, ?greaterRow, ?greater, ?greaterOrEqualsRow,
    ?greaterOrEquals, ?lessRow, ?less, ?lessOrEqualsRow, ?lessOrEquals⟩
  case equals => exact runs_boolWord rfl rfl heq
  case notEquals => exact runs_boolWord rfl rfl heq.not
  case greater | greaterOrEquals | less | lessOrEquals => exact runs_boolWord rfl rfl Iff.rfl
  all_goals exact ⟨rfl, rfl, rfl, rfl, rfl, rfl⟩

end Sys2Proof.Machine
end

section
/-! PROOFS. Family 43_stack_call: pushes and pops, calls and returns, and the two round trips over the stack. -/

namespace Sys2Proof.Machine

/-! ### Register writes in order -/

/-- The state after register writes in order, the executable form of `written`. -/
def State.setRegs (s : State) (ws : List (Reg × Word)) : State := ws.foldl (fun t w => t.setReg w.1 w.2) s

theorem State.setRegs_cons (s : State) (w : Reg × Word) (ws : List (Reg × Word)) :
    s.setRegs (w :: ws) = (s.setReg w.1 w.2).setRegs ws := rfl

theorem written_cons (s : State) (w : Reg × Word) (ws : List (Reg × Word)) (q : Reg) :
    written s (w :: ws) q = written (s.setReg w.1 w.2) ws q := by simp [written]

theorem State.reg_setRegs (s : State) (ws : List (Reg × Word)) (q : Reg) : (s.setRegs ws).reg q = written s ws q := by
  induction ws generalizing s with
  | nil => rfl
  | cons w ws ih => rw [State.setRegs_cons, ih, written_cons]

/-- Register writes change the register file alone. -/
theorem State.exists_setRegs_eq (s : State) (ws : List (Reg × Word)) :
    ∃ regs, s.setRegs ws = { s with regs := regs } := by
  induction ws generalizing s with
  | nil => exact ⟨s.regs, rfl⟩
  | cons w ws ih => exact ih (s.setReg w.1 w.2)

/-- What an instruction answers that leaves a memory and then writes registers in order. -/
theorem completesTo_setRegs (op : Opcode) (s : State) (m : Memory) (ws : List (Reg × Word)) {adv : Word}
    (hadv : adv = if op.increment then 8 else 0) :
    ∃ t, CompletesTo (finish op s (.normal ({ s with mem := m }.setRegs ws))) op s { writes := ws, advance := adv } t ∧
      t.mem = m ∧ SameRest s t := by
  have hregs := State.reg_setRegs { s with mem := m } ws
  obtain ⟨regs, hu⟩ := State.exists_setRegs_eq { s with mem := m } ws
  rw [hu] at hregs ⊢
  refine ⟨_, completesTo_finish op s _ _ hadv (fun q _ => hregs q) ?flags rfl ⟨rfl, rfl, rfl, rfl⟩, ?mem, ?rest⟩
  case flags => rw [hregs]; exact FlagsAfter.refl _ _ _
  case mem => simp
  case rest => exact ⟨by simp, by simp, by simp, by simp⟩

/-! ### The outcomes of a stack access (R220, R221) -/

section
variable {i : Instr} {s : State} {a : Word} {ok : Prop} {adv : Word}

/-- An instruction whose one failure is that of its stack access answers every stack pointer. -/
theorem stackOutcome_of_stackFault (hok : InStack s.cfg a → ok)
    (hfault : ∀ k, Config.stackFault s.cfg a = some k → Faults i s k) : StackOutcome i s a ok :=
  ⟨hok, fun h => hfault _ (Config.stackFault_unaligned _ a h),
    fun h hb => hfault _ (Config.stackFault_outOfBounds _ a h hb)⟩

/-- What an instruction answers that pushes a word and then writes registers. -/
theorem stackOutcome_push {v : Word} {ws : List (Reg × Word)} (hc : s.cfg.admitted = true)
    (hexec : exec i s = pushThen i.opcode v (·.setRegs ws) s) (hadv : adv = if i.opcode.increment then 8 else 0) :
    StackOutcome i s s.sp (∃ t, RunsTo i s { writes := (spReg, s.sp + 4) :: ws, advance := adv } t ∧
      Stored s t s.sp.toNat 4 v ∧ SameRest s t) := by
  refine stackOutcome_of_stackFault (fun hin => ?_) fun k hk => hexec.trans (pushThen_error _ v _ s k hk)
  obtain ⟨t, hruns, hmem, hrest⟩ := completesTo_setRegs i.opcode s (s.mem.setBytes s.sp.toNat (beBytes 4 v.toNat))
    ((spReg, s.sp + 4) :: ws) hadv
  rw [State.setRegs_cons, ← pushThen_ok i.opcode v (·.setRegs ws) s hc hin, ← hexec, ← runsTo_iff] at hruns
  refine ⟨t, hruns, ?_, hrest⟩
  unfold Stored
  rw [hmem]
  exact s.mem.stored_setBytes s.sp.toNat 4 v

/-- What an instruction answers that pops a word and then writes registers. -/
theorem stackOutcome_pop {ws : Word → List (Reg × Word)} (hc : s.cfg.admitted = true)
    (hexec : exec i s = popThen i.opcode (fun v t => t.setRegs (ws v)) s)
    (hadv : adv = if i.opcode.increment then 8 else 0) :
    StackOutcome i s (s.sp - 4) (Runs i s
      { writes := (spReg, s.sp - 4) :: ws (s.wordAt (s.sp - 4).toNat), advance := adv }) := by
  refine stackOutcome_of_stackFault (fun hin => ?_) fun k hk => hexec.trans (popThen_error _ _ s k hk)
  obtain ⟨t, hruns, hmem, hrest⟩ := completesTo_setRegs i.opcode s s.mem
    ((spReg, s.sp - 4) :: ws (s.wordAt (s.sp - 4).toNat)) hadv
  rw [State.setRegs_cons] at hruns
  refine ⟨t, ?_, fun b => by rw [hmem], hrest⟩
  rw [runsTo_iff, hexec, popThen_ok i.opcode _ s hc hin]
  exact hruns

end

/-! ### The family (R222 to R228) -/

/-- Settles O16: both forms push and then write no further register. -/
theorem pushStoresThenAdvances : Obligations.PushStoresThenAdvances := by
  intro s register immediate hc
  refine ⟨?registerRow, ?register, ?immediateRow, ?immediate⟩
  case register | immediate => exact stackOutcome_push hc rfl rfl
  case registerRow | immediateRow => exact ⟨rfl, rfl, rfl, rfl, rfl, rfl⟩

/-- Settles O17: the popped word goes to the register after the stack pointer has moved, or nowhere. -/
theorem popRetreatsThenReads : Obligations.PopRetreatsThenReads := by
  intro s register hc
  refine ⟨?registerRow, ?register, ?discardRow, ?discard⟩
  case register => exact stackOutcome_pop (ws := fun v => [(register, v)]) hc rfl rfl
  case discard => exact stackOutcome_pop (ws := fun _ => []) hc rfl rfl
  case registerRow | discardRow => exact ⟨rfl, rfl, rfl, rfl, rfl, rfl⟩

/-- Settles O18: both forms push the return address and then write `ip`. -/
theorem callPushesTheReturnAddress : Obligations.CallPushesTheReturnAddress := by
  intro s register address hc
  refine ⟨?addressRow, ?address, ?registerRow, ?register⟩
  case address | register => exact stackOutcome_push hc rfl rfl
  case addressRow | registerRow => exact ⟨rfl, rfl, rfl, rfl, rfl, rfl⟩

/-- Settles O19: the popped word goes to `ip`. -/
theorem returnPopsItsTarget : Obligations.ReturnPopsItsTarget := fun _ hc =>
  ⟨⟨rfl, rfl, rfl, rfl, rfl, rfl⟩, stackOutcome_pop (ws := fun v => [(ipReg, v)]) hc rfl rfl⟩

/-! ### The round trips -/

section
variable {s t : State}

/-- The word read at an address where a word was stored. -/
theorem Stored.wordAt {a : Nat} {v : Word} (h : Stored s t a 4 v) : t.wordAt a = v := by
  have hbytes : t.mem.bytes a Width.word.bytes = beBytes 4 v.toNat := by
    obtain ⟨hleft, -⟩ := h
    obtain ⟨hwritten, -⟩ := s.mem.stored_setBytes a 4 v
    rw [← s.mem.bytes_setBytes_beBytes a 4]
    exact Memory.bytes_congr fun k hk => (hleft k hk).trans (hwritten k hk).symm
  rw [← State.load_word, hbytes, beValue_beBytes, Nat.mod_eq_of_lt (show v.toNat < 256 ^ 4 from v.isLt),
    BitVec.ofNat_toNat, BitVec.setWidth_eq]

/-- An instruction that sets no flag leaves every register but `ip` as its writes left it, FLAGS included. -/
theorem RegsAfter.reg_eq {ws : List (Reg × Word)} {adv : Word} (h : RegsAfter s t { writes := ws, advance := adv })
    (q : Reg) (hip : q ≠ ipReg) : t.reg q = written s ws q := by
  obtain ⟨hregs, ⟨hzero, hcarry, hdivide, hrest⟩, -⟩ := h
  by_cases hflags : q = flagsReg
  · subst hflags
    refine BitVec.eq_of_getLsbD_eq fun k _ => ?_
    match k with
    | 0 => exact hzero
    | 1 => exact hcarry
    | 2 => exact hdivide
    | k + 3 => exact hrest _ (Nat.le_add_left 3 k)
  · exact hregs q hflags hip

/-- After a push of `v` that has left `sp` four higher, a pop finds `v` where the push began. -/
theorem Stored.pop {v : Word} (h : Stored s t s.sp.toNat 4 v) (hsp : t.sp = s.sp + 4) :
    t.sp - 4 = s.sp ∧ t.wordAt (t.sp - 4).toNat = v := by
  have hback : t.sp - 4 = s.sp := by rw [hsp, BitVec.add_sub_cancel]
  exact ⟨hback, hback ▸ h.wordAt⟩

end

/-- Settles O20: the pop reads the word that the push has stored. -/
theorem pushThenPopGivesTheWordBack : Obligations.PushThenPopGivesTheWordBack := by
  intro s register immediate hc hin hregister
  have hflags : register ≠ flagsReg := by rintro rfl; exact absurd hregister (by decide)
  have hip : register ≠ ipReg := by rintro rfl; exact absurd hregister (by decide)
  have hsp : register ≠ spReg := by rintro rfl; exact absurd hregister (by decide)
  obtain ⟨-, -, -, hpush, -⟩ := pushStoresThenAdvances s register immediate hc
  obtain ⟨t, ⟨hexec, hregs, -, hcfg, -, -, hfault⟩, hstored, -⟩ := hpush hin
  obtain ⟨hback, hword⟩ := hstored.pop (hregs.reg_eq spReg (by decide))
  obtain ⟨-, ⟨hpop, -⟩, -⟩ := popRetreatsThenReads t register (hcfg ▸ hc)
  rw [hword, hback, hcfg] at hpop
  obtain ⟨u, ⟨hexec', hregs', -, -, -, -, hfault'⟩, -⟩ := hpop hin
  obtain ⟨-, -, hipt⟩ := hregs
  obtain ⟨hother, -, hipu⟩ := hregs'
  refine ⟨t, u, hexec, hexec', ?word, ?sp, ?ip, hfault'.trans hfault⟩
  case word => simpa using hother register hflags hip
  case sp => simpa [Ne.symm hsp] using hother spReg (by decide) (by decide)
  case ip => simpa [Ne.symm hip, hipt, BitVec.add_assoc] using hipu

/-- Settles O21: the return reads the address that the call has stored. -/
theorem callThenReturnComesBack : Obligations.CallThenReturnComesBack := by
  intro s address hc hin
  obtain ⟨-, ⟨hcall, -⟩, -⟩ := callPushesTheReturnAddress s 0 address hc
  obtain ⟨t, ⟨hexec, hregs, -, hcfg, -, -, hfault⟩, hstored, -⟩ := hcall hin
  obtain ⟨hback, hword⟩ := hstored.pop (hregs.reg_eq spReg (by decide))
  obtain ⟨-, hreturn, -⟩ := returnPopsItsTarget t (hcfg ▸ hc)
  rw [hword, hback, hcfg] at hreturn
  obtain ⟨u, ⟨hexec', hregs', -, -, -, -, hfault'⟩, -⟩ := hreturn hin
  have hsame : ∀ q : Reg, q ≠ ipReg → u.reg q = s.reg q := fun q hip => by
    by_cases hsp : q = spReg
    · simpa [hsp] using hregs'.reg_eq spReg (by decide)
    · simpa [hip, hsp, hregs.reg_eq q hip] using hregs'.reg_eq q hip
  obtain ⟨-, -, hipt⟩ := hregs
  obtain ⟨-, -, hipu⟩ := hregs'
  refine ⟨t, u, hexec, ?target, hexec', ?ip, hsame spReg (by decide), hfault'.trans hfault, hsame⟩
  case target => simpa using hipt
  case ip => simpa using hipu

end Sys2Proof.Machine
end

section
/-! PROOFS. Family 44_jump: the unconditional jumps, the jumps on the result of a comparison, and the jumps on a flag. -/

namespace Sys2Proof.Machine

section
variable {i : Instr} {s : State} {target : Word}

/-! ### A jump on a condition (R240) -/

/-- What a jump answers in every state, with its destination left open. -/
theorem runs_jumpIf {taken : Bool} {v : Word} (hexec : exec i s = jumpIf i.opcode taken target s)
    (hinc : i.opcode.increment = false) (hv : (if taken then target else s.ip + 8) = v) :
    Runs i s { writes := [(ipReg, v)], advance := 0 } := by
  subst hv
  rw [runs_iff, hexec]
  exact jumpIf_completes _ taken target s hinc

/-- What a jump on a decided condition answers, with that condition in the words of a statement. -/
theorem runs_jumpIf_decide {p : Prop} [Decidable p] (hexec : exec i s = jumpIf i.opcode (decide p) target s)
    (hinc : i.opcode.increment = false) :
    Runs i s { writes := [(ipReg, if p then target else s.ip + 8)], advance := 0 } :=
  runs_jumpIf hexec hinc (if_congr decide_eq_true_iff rfl rfl)

/-- What a jump on a set flag answers, with that flag as a bit of FLAGS. -/
theorem runs_jumpIf_getFlag {flag : Flag} {b : Bool} (hexec : exec i s = jumpIf i.opcode (s.getFlag flag) target s)
    (hinc : i.opcode.increment = false) (hb : b = (s.reg flagsReg).getLsbD flag.bitpos) :
    Runs i s { writes := [(ipReg, if b then target else s.ip + 8)], advance := 0 } :=
  runs_jumpIf hexec hinc (by rw [s.getFlag_eq, ← hb])

/-- What a jump on a clear flag answers: the two destinations of the jump on the set flag change places. -/
theorem runs_jumpIf_not_getFlag {flag : Flag} {b : Bool}
    (hexec : exec i s = jumpIf i.opcode (!s.getFlag flag) target s) (hinc : i.opcode.increment = false)
    (hb : b = (s.reg flagsReg).getLsbD flag.bitpos) :
    Runs i s { writes := [(ipReg, if b then s.ip + 8 else target)], advance := 0 } :=
  runs_jumpIf hexec hinc (by rw [s.getFlag_eq, ← hb]; cases b <;> rfl)

end

/-! ### The family (R241 to R255) -/

/-- Settles O22: both forms are a jump that is always taken. -/
theorem jumpsSetTheInstructionPointer : Obligations.JumpsSetTheInstructionPointer := by
  intro s register address
  refine ⟨?immediateRow, ?immediate, ?registerRow, ?register⟩
  case immediate | register => exact runs_jumpIf rfl rfl (if_pos rfl)
  case immediateRow | registerRow => exact ⟨rfl, rfl, rfl, rfl, rfl, rfl⟩

/-- Settles O23: the condition of each of the five is its equality with the codes of R243. -/
theorem compareJumpsMatchExactly : Obligations.CompareJumpsMatchExactly := by
  rintro s comparison address _ rfl
  refine ⟨?equalRow, ?equal, ?greaterRow, ?greater, ?lessRow, ?less, ?greaterOrEqualRow, ?greaterOrEqual,
    ?lessOrEqualRow, ?lessOrEqual⟩
  case equal | greater | less | greaterOrEqual | lessOrEqual => exact runs_jumpIf_decide rfl rfl
  all_goals exact ⟨rfl, rfl, rfl, rfl, rfl, rfl⟩

/-- Settles O24: each of the six reads its flag at its bit position in FLAGS (R36), set or clear. -/
theorem flagJumpsReadOneFlag : Obligations.FlagJumpsReadOneFlag := by
  intro s address f hf
  refine ⟨?zeroRow, ?zero, ?notZeroRow, ?notZero, ?carryRow, ?carry, ?notCarryRow, ?notCarry, ?divideRow, ?divide,
    ?notDivideRow, ?notDivide⟩
  case zero => exact runs_jumpIf_getFlag (flag := .zero) rfl rfl (hf 0)
  case carry => exact runs_jumpIf_getFlag (flag := .carry) rfl rfl (hf 1)
  case divide => exact runs_jumpIf_getFlag (flag := .divideByZero) rfl rfl (hf 2)
  case notZero => exact runs_jumpIf_not_getFlag (flag := .zero) rfl rfl (hf 0)
  case notCarry => exact runs_jumpIf_not_getFlag (flag := .carry) rfl rfl (hf 1)
  case notDivide => exact runs_jumpIf_not_getFlag (flag := .divideByZero) rfl rfl (hf 2)
  all_goals exact ⟨rfl, rfl, rfl, rfl, rfl, rfl⟩

end Sys2Proof.Machine
end

section
/-! PROOFS. Family 45_io: the key state and the clock, which draw an answer of the host, the framebuffers, and the cycle
counter. -/

namespace Sys2Proof.Machine

section
variable {i : Instr} {s : State} {e : Effect} {b : Bool} {n : Nat}

/-! ### An instruction that meets the host (R260) -/

/-- What an instruction answers that first sets the display's state or counts a draw: no effect on the register file
reads either, so it is the effect from the state so changed. -/
theorem runsTo_of_completes_host
    (h : Completes (exec i s) i.opcode { s with fbFirstVisible := b, draws := n } e) :
    ∃ t, RunsTo i s e t ∧ SameMemory s t ∧ SameRest { s with fbFirstVisible := b, draws := n } t := by
  obtain ⟨t, hruns, hmem, hrest⟩ := h
  exact ⟨t, hruns, hmem, hrest⟩

/-- What an instruction answers that draws an answer of the host: the next draw is another. -/
theorem runsTo_of_completes_draw (h : Completes (exec i s) i.opcode { s with draws := s.draws + 1 } e) :
    ∃ t, RunsTo i s e t ∧ SameMemory s t ∧ t.draws = s.draws + 1 ∧ t.checkpoint = s.checkpoint ∧
      t.fbFirstVisible = s.fbFirstVisible ∧ t.debugOut = s.debugOut := by
  obtain ⟨t, hruns, hmem, hcheckpoint, hvisible, hdraws, hdebug⟩ := runsTo_of_completes_host h
  exact ⟨t, hruns, hmem, hdraws, hcheckpoint, hvisible, hdebug⟩

end

/-- What a write of the two halves of a 64-bit counter answers, the low half last (R262, R265). -/
theorem setPair_halves_completes (op : Opcode) (high low : Reg) (v : DWord) (s : State) (h : op.increment = true) :
    Completes (finish op s (.normal (s.setPair high low (hi32 v.toNat) (lo32 v.toNat)))) op s
      { writes := [(high, v.extractLsb' 32 32), (low, v.extractLsb' 0 32)] } := by
  rw [hi32_toNat, lo32_toNat]
  exact setPair_completes op high low _ _ s h

/-! ### The framebuffer not shown (R50) -/

theorem State.invisibleFramebuffer_of_first (s : State) (h : s.fbFirstVisible = true) :
    s.invisibleFramebuffer = BitVec.ofNat 32 s.cfg.framebuffer1Start := by
  rw [State.invisibleFramebuffer, if_pos h]

theorem State.invisibleFramebuffer_of_second (s : State) (h : s.fbFirstVisible = false) :
    s.invisibleFramebuffer = BitVec.ofNat 32 s.cfg.framebuffer0Start := by
  rw [State.invisibleFramebuffer, if_neg (Bool.eq_false_iff.mp h)]

/-! ### The family (R261 to R265) -/

/-- Settles O25: one draw, and one value write from the state after it. -/
theorem keyStateIsTheHostsAnswer : Obligations.KeyStateIsTheHostsAnswer := by
  intro s target keycode
  refine ⟨⟨rfl, rfl, rfl, rfl, rfl, rfl⟩, runsTo_of_completes_draw ?_⟩
  exact writeValue_completes .getKeyState target (boolWord (Config.keyDown s.draws (s.reg keycode)))
    { s with draws := s.draws + 1 } rfl

/-- Settles O26: one draw, and the two halves of the clock written from the state after it. -/
theorem pollTimeSplitsTheClock : Obligations.PollTimeSplitsTheClock := by
  intro s high low
  refine ⟨⟨rfl, rfl, rfl, rfl, rfl, rfl⟩, runsTo_of_completes_draw ?_⟩
  exact setPair_halves_completes .pollTime high low (Config.timeMs s.draws) { s with draws := s.draws + 1 } rfl

/-- Settles O27: the swap writes nothing from the state with the other framebuffer visible, and the address is one
value write. -/
theorem framebuffersSwap : Obligations.FramebuffersSwap := by
  intro s target
  refine ⟨?swapRow, ?swap, ?addressRow, fun hfirst => ?first, fun hsecond => ?second⟩
  case swap =>
    obtain ⟨t, hruns, hmem, hcheckpoint, hvisible, hdraws, hdebug⟩ := runsTo_of_completes_host (i := .swapFramebuffers)
      (advance_completes .swapFramebuffers { s with fbFirstVisible := !s.fbFirstVisible } rfl)
    exact ⟨t, hruns, hmem, hvisible, hdraws, hcheckpoint, hdebug⟩
  case first => exact s.invisibleFramebuffer_of_first hfirst ▸ runs_writeValue rfl rfl
  case second => exact s.invisibleFramebuffer_of_second hsecond ▸ runs_writeValue rfl rfl
  case swapRow | addressRow => exact ⟨rfl, rfl, rfl, rfl, rfl, rfl⟩

/-- Settles O28: the two halves written are those of the counter that the instruction finds; its cost comes after. -/
theorem cycleCountReadBeforeItsOwnCost : Obligations.CycleCountReadBeforeItsOwnCost := by
  intro s high low
  refine ⟨⟨rfl, rfl, rfl, rfl, rfl, rfl⟩, (runs_iff _ _ _).mpr ?_⟩
  exact setPair_halves_completes .pollCycleCountHighLow high low s.cycles s rfl

end Sys2Proof.Machine
end

section
/-! PROOFS. Family 46_system_debug: the halt, the events of the debug side channel, and the checks that fault under
Strict and log under Lenient. -/

namespace Sys2Proof.Machine

/-! ### A halted machine (R358) -/

theorem State.status_of_halted (s : State) (hhalt : s.halted = true) (hfault : s.fault = none) :
    s.status = .halted := by
  simp [State.status, hhalt, hfault]

theorem State.hostTerminates_of_halted (s : State) (hhalt : s.halted = true) :
    s.hostTerminates = s.cfg.exitOnHalt := by
  simp [State.hostTerminates, hhalt]

section
variable {i : Instr} {s : State}

/-! ### An event on the side channel (R272) -/

/-- What an instruction with no write at all answers in every state. -/
theorem runs_advance (hexec : exec i s = finish i.opcode s (.normal s)) (hinc : i.opcode.increment = true) :
    Runs i s {} := by
  rw [runs_iff, hexec]
  exact advance_completes _ s hinc

/-- What an instruction that only sends an event answers: it writes nothing from the state with the event sent. -/
theorem emits_emit {e : DebugEvent} (hexec : exec i s = finish i.opcode s (.normal (s.emit e)))
    (hinc : i.opcode.increment = true) : Emits i s e := by
  obtain ⟨t, ⟨hnext, hregs, hcost, hcontrol⟩, hmem, hrest⟩ := advance_completes i.opcode (s.emit e) hinc
  exact ⟨t, ⟨hexec.trans hnext, hregs, hcost, hcontrol⟩, hmem, hrest⟩

/-! ### The outcomes of a check (R272, R275) -/

/-- A failed check ends by the debug policy alone, whatever it compares. -/
theorem checkOutcome_of_policy {holds passes : Prop} {k : Fault} {e : DebugEvent} (hpass : holds → passes)
    (hstrict : ¬ holds → s.cfg.debugPolicy = .strict → exec i s = finish i.opcode s (.error k))
    (hlenient : ¬ holds → s.cfg.debugPolicy = .lenient → exec i s = finish i.opcode s (.normal (s.emit e)))
    (hinc : i.opcode.increment = true) : CheckOutcome i s holds k e passes :=
  ⟨hpass, hstrict, fun hfails hpolicy => emits_emit (hlenient hfails hpolicy) hinc⟩

end

section
variable (op : Opcode) {x y : Word} {s : State}

theorem assertEqual_of_eq (h : x = y) : assertEqual op x y s = finish op s (.normal s) := if_pos h

theorem assertEqual_of_ne_strict (h : x ≠ y) (hpolicy : s.cfg.debugPolicy = .strict) :
    assertEqual op x y s = finish op s (.error (.assertionFailed x y)) := by
  rw [assertEqual, if_neg h, hpolicy]

theorem assertEqual_of_ne_lenient (h : x ≠ y) (hpolicy : s.cfg.debugPolicy = .lenient) :
    assertEqual op x y s = finish op s (.normal (s.emit (.assertionFailed x y))) := by
  rw [assertEqual, if_neg h, hpolicy]

end

/-- What an assertion on two values answers, equal or not, under either policy. -/
theorem checkOutcome_assertEqual {i : Instr} {s : State} {x y : Word} (hexec : exec i s = assertEqual i.opcode x y s)
    (hinc : i.opcode.increment = true) :
    CheckOutcome i s (x = y) (.assertionFailed x y) (.assertionFailed x y) (Runs i s {}) :=
  checkOutcome_of_policy (fun h => runs_advance (hexec.trans (assertEqual_of_eq _ h)) hinc)
    (fun h hpolicy => hexec.trans (assertEqual_of_ne_strict _ h hpolicy))
    (fun h hpolicy => hexec.trans (assertEqual_of_ne_lenient _ h hpolicy)) hinc

/-! ### The pointer assertion and the checkpoint (R277, R279) -/

section
variable {s : State} {pointer : Reg} {immediate : Word}

theorem execAssertPointerImmediate_of_accessible (h : Accessible (s.reg pointer) 4) :
    execAssertPointerImmediate pointer immediate s =
      assertEqual .assertPointerImmediate immediate (s.wordAt (s.reg pointer).toNat) s := by
  have hread := s.memRead_ok (s.opnd pointer) .word h
  rw [execAssertPointerImmediate, hread, ← s.load_word]

theorem execAssertPointerImmediate_of_accessFault {k : Fault} (h : accessFault (s.reg pointer) 4 = some k) :
    execAssertPointerImmediate pointer immediate s = finish .assertPointerImmediate s (.error k) := by
  have hread := s.memRead_error (s.opnd pointer) .word k h
  rw [execAssertPointerImmediate, hread]

theorem execCheckpoint_of_eq (h : immediate = s.checkpoint) :
    execCheckpoint immediate s =
      finish .checkpoint s (.normal { s with checkpoint := s.checkpoint + 1 }) := if_pos h

theorem execCheckpoint_of_ne_strict (h : immediate ≠ s.checkpoint) (hpolicy : s.cfg.debugPolicy = .strict) :
    execCheckpoint immediate s =
      finish .checkpoint s (.error (.checkpointMismatch immediate s.checkpoint)) := by
  rw [execCheckpoint, if_neg h, hpolicy]

theorem execCheckpoint_of_ne_lenient (h : immediate ≠ s.checkpoint) (hpolicy : s.cfg.debugPolicy = .lenient) :
    execCheckpoint immediate s =
      finish .checkpoint s (.normal (s.emit (.checkpointMismatch immediate s.checkpoint))) := by
  rw [execCheckpoint, if_neg h, hpolicy]

end

/-! ### The family (R270 to R279) -/

/-- Settles O29: the state after the halt is stopped, so `step` answers it again. -/
theorem haltStopsTheMachine : Obligations.HaltStopsTheMachine := by
  intro s
  refine ⟨⟨rfl, rfl, rfl, rfl, rfl, rfl⟩, _, rfl, rfl, ?step, ?host, ?status⟩
  case step => exact step_of_stopped _ rfl
  case host => exact State.hostTerminates_of_halted _ rfl
  case status => exact fun hfault => State.status_of_halted _ rfl hfault

/-- Settles O30: NoOp writes nothing, and the other three write nothing from the state with their event sent. -/
theorem noOpDumpsAndBreakpointOnlyAdvance : Obligations.NoOpDumpsAndBreakpointOnlyAdvance := by
  intro s
  refine ⟨?noOpRow, ?noOp, ?registersRow, ?registers, ?memoryRow, ?memory, ?breakpointRow, ?breakpoint⟩
  case noOp => exact runs_advance rfl rfl
  case registers | memory | breakpoint => exact emits_emit rfl rfl
  all_goals exact ⟨rfl, rfl, rfl, rfl, rfl, rfl⟩

/-- Settles O31: both forms are an assertion on two values. -/
theorem registerAssertionsCompare : Obligations.RegisterAssertionsCompare := by
  intro s expected actual immediate
  refine ⟨?registerRow, ?register, ?immediateRow, ?immediate⟩
  case register | immediate => exact checkOutcome_assertEqual rfl rfl
  case registerRow | immediateRow => exact ⟨rfl, rfl, rfl, rfl, rfl, rfl⟩

/-- Settles O32: the read decides between its fault and an assertion on the word read. -/
theorem pointerAssertionReadsFirst : Obligations.PointerAssertionReadsFirst := by
  intro s pointer immediate
  refine ⟨⟨rfl, rfl, rfl, rfl, rfl, rfl⟩, accessOutcome_of_accessFault (fun haccess => ?compare) fun k hk => ?fault⟩
  case compare => exact checkOutcome_assertEqual (execAssertPointerImmediate_of_accessible haccess) rfl
  case fault => exact execAssertPointerImmediate_of_accessFault hk

/-- Settles O33: a match writes nothing from the state with the counter advanced, and a mismatch is a failed check. -/
theorem checkpointAdvancesOnAMatch : Obligations.CheckpointAdvancesOnAMatch := by
  intro s immediate
  refine ⟨⟨rfl, rfl, rfl, rfl, rfl, rfl⟩, checkOutcome_of_policy (fun hmatch => ?advance)
    execCheckpoint_of_ne_strict execCheckpoint_of_ne_lenient rfl⟩
  obtain ⟨t, ⟨hnext, hregs, hcost, hcontrol⟩, hmem, hrest⟩ :=
    advance_completes .checkpoint { s with checkpoint := s.checkpoint + 1 } rfl
  exact ⟨t, ⟨(execCheckpoint_of_eq hmatch).trans hnext, hregs, hcost, hcontrol⟩, hmem, hrest⟩

end Sys2Proof.Machine
end

section
/-! PROOFS. Family 60_exceptions: every step answers a next state, a fault among them, a step that faults writes nothing
but the fault record and its lazy fill, and what a regeneration by the host writes. -/

namespace Sys2Proof.Machine

/-! ### A fault is a next state (R302, R350) -/

theorem exec_answers (i : Instr) (s : State) : ∃ t, exec i s = .next t := by
  rcases exec_cases i s with ⟨u, -, hnext⟩ | ⟨-, hnext⟩ | ⟨k, -, -, hnext⟩ <;> exact ⟨_, hnext⟩

/-- Settles O46: a step ends in a next state by itself, or as an instruction does. -/
theorem everyStepAnswersANextState : Obligations.EveryStepAnswersANextState := by
  refine ⟨exec_answers, fun s => ?_⟩
  rcases step_cases s with ⟨-, hstop⟩ | ⟨-, ⟨-, hhost⟩ | ⟨-, ⟨k, -, -, -, hfault⟩ | ⟨i, -, hexec⟩⟩⟩
  · exact ⟨_, hstop⟩
  · exact ⟨_, hhost⟩
  · exact ⟨_, hfault⟩
  · rw [hexec]; exact exec_answers i _

/-! ### The faults of a running machine (R300, R301) -/

/-- An instruction that faults does nothing but take a fault of execution. -/
theorem exec_faults {i : Instr} {s t : State} {r : FaultRecord} (h : exec i s = .next t) (hs : s.fault = none)
    (hr : t.fault = some r) : ∃ k, 4 ≤ k.code ∧ k.code ≤ 8 ∧ t = s.raise k := by
  rcases exec_cases i s with ⟨u, hkeep, hnext⟩ | ⟨-, hnext⟩ | ⟨k, hlo, hhi, hnext⟩ <;>
    (rw [hnext] at h; cases h)
  case inl =>
    obtain ⟨-, -, -, hfault⟩ := hkeep.control
    have hnone : u.fault = none := hfault.trans hs
    simp [hnone] at hr
  case inr.inl => cases hs.symm.trans hr
  case inr.inr => exact ⟨k, hlo, hhi, rfl⟩

/-- A cache that differs from that of the state by the lazy fill of its slot of `ip` at most (R91). -/
def LazyFill (s : State) (ic : ICache) : Prop :=
  ∀ slot, ic.get slot = s.icache.get slot ∨
    (slot = slotOf s.ip ∧ s.icache.get slot = .empty ∧
      ic.get slot = decodeEntry s.cfg.codec (s.dwordAt s.ip.toNat))

theorem State.fetch_lazyFill (s : State) :
    LazyFill s s.fetch.1.icache ∧ s.fetch.1 = { s with icache := s.fetch.1.icache } := by
  rcases s.fetch_cases.1 with hsame | ⟨-, hempty, hfill⟩
  · rw [hsame]; exact ⟨fun _ => .inl rfl, rfl⟩
  · rw [hfill]
    refine ⟨fun slot => ?_, rfl⟩
    rw [State.fillSlot_eq rfl, ICache.get_put]
    by_cases hslot : slot = slotOf s.ip
    · exact .inr ⟨hslot, hslot ▸ hempty, if_pos hslot⟩
    · exact .inl (if_neg hslot)

/-- A step that takes a fault, with a host that regenerates at boot only, takes it at the state its fetch leaves. -/
theorem step_faults {s t : State} {r : FaultRecord} (hboot : s.cfg.hostRegenerates = .bootOnly)
    (hs : s.fault = none) (hstep : step s = .next t) (hr : t.fault = some r) :
    ∃ k, 1 ≤ k.code ∧ k.code ≤ 8 ∧ t = s.fetch.1.raise k := by
  have hcases := step_cases s
  rw [s.betweenSteps_of_bootOnly hboot] at hcases
  rcases hcases with ⟨-, hnext⟩ | ⟨-, ⟨-, hnext⟩ | ⟨-, ⟨k, hlo, hhi, -, hnext⟩ | ⟨i, -, hnext⟩⟩⟩ <;>
    rw [hnext] at hstep
  case inr.inr.inl => cases hstep; exact ⟨k, hlo, hhi, rfl⟩
  case inr.inr.inr =>
    have hnone : s.fetch.1.fault = none := by rw [s.fetch_lazyFill.2]; exact hs
    obtain ⟨k, hlo, hhi, ht⟩ := exec_faults hstep hnone hr
    exact ⟨k, by omega, hhi, ht⟩
  all_goals cases hstep; cases hs.symm.trans hr

/-- Settles O47: the fault is taken at the state the fetch leaves, which differs by the lazy fill only. -/
theorem faultsArePrecise : Obligations.FaultsArePrecise := by
  intro s t r hboot hs hstep hr
  obtain ⟨k, hlo, hhi, rfl⟩ := step_faults hboot hs hstep hr
  obtain ⟨hcache, hframe⟩ := s.fetch_lazyFill
  have hip : s.fetch.1.ip = s.ip := by rw [hframe]; rfl
  have hrecord : r = ⟨k, s.ip⟩ := (Option.some.inj hr).symm.trans (by rw [hip])
  subst hrecord
  refine ⟨rfl, hlo, hhi, ?frame, hcache⟩
  case frame =>
    calc s.fetch.1.raise k
        = { s.fetch.1 with fault := some ⟨k, s.ip⟩ } := by rw [State.raise, hip]
      _ = { s with fault := some ⟨k, s.ip⟩, icache := s.fetch.1.icache } :=
          congrArg (fun u : State => { u with fault := some ⟨k, s.ip⟩ }) hframe

/-! ### A regeneration by the host (R305, R316) -/

theorem generateCache_error_code {c : Config} {m : Memory} {ic : ICache} {call : RegenerateCall} {k : Fault}
    (h : generateCache c m ic call = .error k) : k.code = 12 := by
  rcases generateCache_cases c m ic call _ _ rfl rfl with
    ⟨-, hans⟩ | ⟨-, -, -, -, ⟨-, -, hans⟩ | ⟨-, hans⟩⟩ <;>
    (rw [hans] at h; cases h)
  case inl => rfl

/-- Settles O56: a regeneration either generates the cache that it puts in place, or takes its fault. -/
theorem hostRegenerationWritesOnlyTheCache : Obligations.HostRegenerationWritesOnlyTheCache := by
  intro s call
  rcases s.regenerate_cases call with ⟨ic, hgen, hs⟩ | ⟨k, hgen, hs⟩ <;> rw [hgen, hs]
  · refine ⟨?generated, ?rejected⟩
    case generated => rintro _ ⟨⟩; rfl
    case rejected => rintro _ ⟨⟩
  · refine ⟨?generated, ?rejected⟩
    case generated => rintro _ ⟨⟩
    case rejected => rintro _ ⟨⟩; exact ⟨rfl, generateCache_error_code hgen⟩

end Sys2Proof.Machine
end

section
/-! PROOFS. Family 70_reset_and_hazards: cache generation over a region, and a stopped machine. -/

namespace Sys2Proof.Machine

/-! ### Cache generation (R345) -/

section
variable {c : Config} (m : Memory) (ic : ICache) {start size : Nat}

theorem generateCache_rejected
    (h : start < c.entryPoint ∨ start % 8 ≠ 0 ∨ size % 8 ≠ 0 ∨ memorySize < start + size) :
    generateCache c m ic ⟨some start, some size⟩ = .error (.invalidCacheRegion start size) := by
  rcases generateCache_cases c m ic ⟨some start, some size⟩ start size rfl rfl with
    ⟨-, hans⟩ | ⟨hentry, halign, hwhole, hend, -⟩
  · exact hans
  · omega

/-- An accepted region gets the decode of memory; outside it a slot of the program region is as before. The generation
of the whole program region leaves no slot of it outside. -/
theorem generateCache_accepted (hentry : c.entryPoint ≤ start) (halign : start % 8 = 0) (hwhole : size % 8 = 0)
    (hend : start + size ≤ memorySize) :
    ∃ ic', generateCache c m ic ⟨some start, some size⟩ = .ok ic' ∧
      ∀ slot, c.entryPoint ≤ 8 * slot → 8 * slot < memorySize →
        ic'.get slot =
          if start ≤ 8 * slot ∧ 8 * slot < start + size then slotEntry c.codec m slot else ic.get slot := by
  rcases generateCache_cases c m ic ⟨some start, some size⟩ start size rfl rfl with
    ⟨hbad, -⟩ | ⟨-, -, -, -, ⟨hfirst, hlast, hall⟩ | ⟨-, hslots⟩⟩
  · omega
  · refine ⟨_, hall, fun slot hlo hhi => ?_⟩
    rw [ICache.get_generateAll _ _ _ _ (by omega) hhi, if_pos (by omega)]
  · refine ⟨_, hslots, fun slot _ _ => ?_⟩
    have hregion : (start / 8 ≤ slot ∧ slot < start / 8 + size / 8) ↔
        (start ≤ 8 * slot ∧ 8 * slot < start + size) := by omega
    rw [ICache.get_generateSlots, if_congr hregion rfl rfl]

end

/-- Settles O55: the two clauses of a region given in full; the defaults fill in the call. -/
theorem cacheGenerationCoversItsRegion : Obligations.CacheGenerationCoversItsRegion := by
  intro c m ic start size
  exact ⟨generateCache_rejected m ic, generateCache_accepted m ic, rfl, fun _ => rfl⟩

/-! ### A stopped machine (R351) -/

/-- Settles O45: a machine with either mark is one that `step` answers unchanged. -/
theorem stoppedMachineStays : Obligations.StoppedMachineStays := by
  intro s h
  refine step_of_stopped s ?_
  rcases h with hhalt | hfault
  · simp [State.stopped, hhalt]
  · simp [State.stopped, Option.isSome_iff_ne_none, hfault]

end Sys2Proof.Machine
end
